-- ==== Sys2Proof/Word.lean ====
section
/-! DEFINITION. The word types of the block (spec/00_scope.md R8, spec/20_memory.md R47) and its one fixed character. -/

namespace Sys2Proof

/-- One bus word, one buffer element, one character (R8, R15, R52). -/
abbrev Word := BitVec 32

/-- A 20-bit word address of the host bus space (R47). -/
abbrev Addr := BitVec 20

/-- LF, U+000A: the only line break (R41). -/
def lf : Word := 0x0A#32

end Sys2Proof
end

