-- ==== Sys2Proof/Config.lean ====
section
/-! DEFINITION. What is fixed when a block is built (spec/00_scope.md R7, spec/10_state.md R38, spec/43_decoder.md
R124), the spec's own reference configuration (spec/92_eei_decisions.md D27), and the free values the spec leaves
unspecified (spec/93_implementation_defined.md I1, I2). -/

namespace Sys2Proof

/-- The alphabet ROM (R38): a parameter of the block that no access and no command writes. -/
structure Rom where
  /-- `SYM[0..1023]`, the symbol-by-index table. -/
  sym : Vector Word 1024
  /-- `PAD[2]`, `PAD[4]`, `PAD[6]`, `PAD[8]`, the padding-marker table. -/
  pad2 : Word
  pad4 : Word
  pad6 : Word
  pad8 : Word
  /-- `M`, the boundary marker. -/
  mark : Word
  /-- `BEGIN`. -/
  begin : Word
  /-- `END`. -/
  fin : Word
  /-- `DEFAULT_DESC`, the descriptor used when none is set. -/
  defaultDesc : List Word
deriving DecidableEq, Repr

/-- The open parameters of R7, one record for one block. -/
structure Params where
  /-- `IN_CAP`, `OUT_CAP`, `DESC_CAP`, each 1 to 2^18 (R7; checked by `Params.wellFormed`). -/
  inCap : Nat
  outCap : Nat
  descCap : Nat
  rom : Rom
  /-- `TRIM_SET` (R124). -/
  trimSet : List Word
deriving DecidableEq, Repr

/-- The default TRIM_SET of R124: 25 code points. PRESUMED (K3, I9), log entry 14. -/
def Params.defaultTrimSet : List Word :=
  [0x0009#32, 0x000A#32, 0x000B#32, 0x000C#32, 0x000D#32, 0x0020#32, 0x00A0#32, 0x1680#32,
   0x2000#32, 0x2001#32, 0x2002#32, 0x2003#32, 0x2004#32, 0x2005#32, 0x2006#32, 0x2007#32,
   0x2008#32, 0x2009#32, 0x200A#32, 0x2028#32, 0x2029#32, 0x202F#32, 0x205F#32, 0x3000#32, 0xFEFF#32]

/-- The test ROM of D27. It is not the real alphabet, which no source gives (N2). -/
def Rom.reference : Rom where
  sym := ⟨((List.range 1024).map fun i => BitVec.ofNat 32 (0xF0000 + i)).toArray, by simp⟩
  pad2 := 0xE002#32
  pad4 := 0xE004#32
  pad6 := 0xE006#32
  pad8 := 0xE008#32
  mark := 0xE010#32
  begin := 0xE011#32
  fin := 0xE012#32
  defaultDesc := [0x42#32, 0x31#32, 0x4B#32]

/-- The one configuration the spec writes out (D27): the parameters of `State.reset`.
DESIGN CHOICE, log entry 5. -/
def Params.reference : Params where
  inCap := 64
  outCap := 64
  descCap := 64
  rom := Rom.reference
  trimSet := Params.defaultTrimSet

/-- The unspecified words of I1 and I2, one for each draw: a constant with no body, so no proof knows a value of it.
`State.draws` counts the draws taken. DESIGN CHOICE (the form), log entry 3. -/
opaque Config.freeWord : Nat → Word

end Sys2Proof
end

