-- ==== Sys2Proof/Syntax.lean ====
section
/-! DEFINITION. The commands of the block: one constructor per row of spec/opcode_table.json (spec/30_encoding.md R67, R70). -/

namespace Sys2Proof

/-- A command word with START = 1. `ie` is w[16], the new value of CTRL.IE; the bits R68 calls ignored carry nothing.
The operands of a command stand in registers and buffers, not in the word (R75). -/
inductive Instr where
  /-- CMD 0x0 (R151). -/
  | nop (ie : Bool)
  /-- CMD 0x1 (R90). -/
  | transpose (ie : Bool)
  /-- CMD 0x2 (R103). -/
  | encode (ie : Bool)
  /-- CMD 0x3 (R136). -/
  | decode (ie : Bool)
  /-- CMD 0x4 (R121). -/
  | wrap (ie : Bool)
  /-- CMD 0x5 (R122). -/
  | armor (ie : Bool)
  /-- CMD 0x6 (R123). -/
  | dearmor (ie : Bool)
  /-- The reserved code 0x7 (R71, R140). -/
  | illegal7 (ie : Bool)
  /-- The reserved codes 0x8 to 0xF (R71, R140). -/
  | illegalHigh (code : BitVec 4) (ie : Bool)
deriving DecidableEq, Repr

end Sys2Proof
end

