-- ==== Sys2Proof/WellFormed.lean ====
section
/-! DEFINITION. Which terms stand for something the hardware has: a command's code lies in its row
(spec/30_encoding.md R70), and a block's parameters meet spec/00_scope.md R7 and WF_ROM (spec/10_state.md R40). -/

namespace Sys2Proof

/-- A row of 0x8 to 0xF holds a code with bit 3 set (R70). -/
def Instr.wellFormed : Instr → Bool
  | .nop _ => true
  | .transpose _ => true
  | .encode _ => true
  | .decode _ => true
  | .wrap _ => true
  | .armor _ => true
  | .dearmor _ => true
  | .illegal7 _ => true
  | .illegalHigh code _ => decide (8 ≤ code.toNat)

/-- No value stands twice in a list. -/
def distinctWords : List Word → Bool
  | [] => true
  | w :: ws => !ws.contains w && distinctWords ws

/-- The four values of PADSET (R39). -/
def Rom.padSet (r : Rom) : List Word := [r.pad2, r.pad4, r.pad6, r.pad8]

/-- The three armor markers. -/
def Rom.armorMarks (r : Rom) : List Word := [r.mark, r.begin, r.fin]

/-- Every symbol the ROM gives a meaning. -/
def Rom.allSymbols (r : Rom) : List Word := r.sym.toList ++ r.padSet ++ r.armorMarks

/-- WF_ROM (a): SYM is injective. -/
def Rom.symDistinct (r : Rom) : Bool := distinctWords r.sym.toList

/-- WF_ROM (b): the padding markers are distinct and none is in SYM. -/
def Rom.padsDistinct (r : Rom) : Bool :=
  distinctWords r.padSet && r.padSet.all fun p => !r.sym.toList.contains p

/-- WF_ROM (c): M, BEGIN and END are distinct and none is in SYM. -/
def Rom.marksDistinct (r : Rom) : Bool :=
  distinctWords r.armorMarks && r.armorMarks.all fun m => !r.sym.toList.contains m

/-- WF_ROM (d): M, BEGIN and END are not in PADSET. -/
def Rom.marksNotPads (r : Rom) : Bool := r.armorMarks.all fun m => !r.padSet.contains m

/-- WF_ROM (e): no symbol is LF or lies in TRIM_SET. -/
def Rom.symbolsKept (r : Rom) (trimSet : List Word) : Bool :=
  r.allSymbols.all fun c => c != lf && !trimSet.contains c

/-- WF_ROM (f): DEFAULT_DESC holds no LF and no value of SYM. -/
def Rom.descPlain (r : Rom) : Bool :=
  r.defaultDesc.all fun c => c != lf && !r.sym.toList.contains c

/-- WF_ROM (R40), all six parts. -/
def Rom.wellFormed (r : Rom) (trimSet : List Word) : Bool :=
  r.symDistinct && r.padsDistinct && r.marksDistinct && r.marksNotPads && r.symbolsKept trimSet && r.descPlain

/-- A buffer capacity is 1 to 2^18 (R7). -/
def capacityOk (c : Nat) : Bool := decide (1 ≤ c) && decide (c ≤ 262144)

/-- The three capacities are legal (R7). -/
def Params.capacitiesOk (p : Params) : Bool := capacityOk p.inCap && capacityOk p.outCap && capacityOk p.descCap

/-- The parameters name a block the spec describes (R7, R40). The block itself does not check this (R40): it is a
premise of the statements that need it. DESIGN CHOICE, log entry 6. -/
def Params.wellFormed (p : Params) : Bool := p.capacitiesOk && p.rom.wellFormed p.trimSet

end Sys2Proof
end

