-- ==== Sys2Proof/Decode.lean ====
section
/-! DEFINITION. The command word (spec/30_encoding.md R67 to R74): decoding, the opcode map, and the encoder. -/

namespace Sys2Proof

/-- Why a word written to CTRL is no command (R69): it has START = 0. -/
inductive DecodeReject where
  /-- w[9] = 1: the word clears DONE or ERROR (R25). -/
  | clearWord
  /-- w[8] = w[9] = 0: the word only stores CMD and IE (R73). -/
  | setOnlyWord
deriving DecidableEq, Repr

/-- The fields of R68. -/
def wordCmd (w : Word) : BitVec 4 := w.extractLsb' 0 4
def wordStart (w : Word) : Bool := w.getLsbD 8
def wordClr (w : Word) : Bool := w.getLsbD 9
def wordIe (w : Word) : Bool := w.getLsbD 16

/-- The command of a code (R70), with the IE bit it was written with. -/
def Instr.ofCode (code : BitVec 4) (ie : Bool) : Instr :=
  match code.toNat with
  | 0 => .nop ie
  | 1 => .transpose ie
  | 2 => .encode ie
  | 3 => .decode ie
  | 4 => .wrap ie
  | 5 => .armor ie
  | 6 => .dearmor ie
  | 7 => .illegal7 ie
  | _ => .illegalHigh code ie

/-- DecodeCmd (R69), total on all 2^32 words: a command, or the name of what the word does instead. -/
def decode (w : Word) : Except DecodeReject Instr :=
  if wordStart w then .ok (.ofCode (wordCmd w) (wordIe w))
  else if wordClr w then .error .clearWord
  else .error .setOnlyWord

/-- The CMD code of a command (R70). -/
def Instr.code : Instr → BitVec 4
  | .nop _ => 0x0#4
  | .transpose _ => 0x1#4
  | .encode _ => 0x2#4
  | .decode _ => 0x3#4
  | .wrap _ => 0x4#4
  | .armor _ => 0x5#4
  | .dearmor _ => 0x6#4
  | .illegal7 _ => 0x7#4
  | .illegalHigh code _ => code

/-- The IE operand of a command word (R68). -/
def Instr.ie : Instr → Bool
  | .nop ie => ie
  | .transpose ie => ie
  | .encode ie => ie
  | .decode ie => ie
  | .wrap ie => ie
  | .armor ie => ie
  | .dearmor ie => ie
  | .illegal7 ie => ie
  | .illegalHigh _ ie => ie

/-- The one word a command is written with: START, CMD and IE (R68, R79's `START`), every ignored bit 0. -/
def encode (i : Instr) : Word :=
  0x100#32 ||| i.code.zeroExtend 32 ||| (if i.ie then 0x10000#32 else 0#32)

/-- The bits of a command word that R68 does not call ignored when START = 1: CMD, START and IE. -/
def significantBits : Word := 0x1010F#32

/-- A row of the opcode table: a word w is the row's command when `w &&& mask = pattern` (R70). -/
structure OpcodeRow where
  mask : Word
  pattern : Word
deriving DecidableEq, Repr

/-- The row of spec/opcode_table.json each constructor stands for. -/
def Instr.row : Instr → OpcodeRow
  | .nop _ => ⟨0x10F#32, 0x100#32⟩
  | .transpose _ => ⟨0x10F#32, 0x101#32⟩
  | .encode _ => ⟨0x10F#32, 0x102#32⟩
  | .decode _ => ⟨0x10F#32, 0x103#32⟩
  | .wrap _ => ⟨0x10F#32, 0x104#32⟩
  | .armor _ => ⟨0x10F#32, 0x105#32⟩
  | .dearmor _ => ⟨0x10F#32, 0x106#32⟩
  | .illegal7 _ => ⟨0x10F#32, 0x107#32⟩
  | .illegalHigh _ _ => ⟨0x108#32, 0x108#32⟩

/-- The word lies in the row. -/
def OpcodeRow.covers (r : OpcodeRow) (w : Word) : Bool := w &&& r.mask == r.pattern

/-- The command word of `nbits` low bits of `w`, every bit above them 0. -/
def tableWord (nbits w : Nat) : Word := BitVec.ofNat 32 (w % 2 ^ nbits)

/-- The command the decoder reads from a word numbered as the opcode table numbers it (R74: every command word is
exactly 32 bits, one bus word, so no byte order arises, R56). -/
def decodeTableWord (nbits w : Nat) : Option Instr :=
  match decode (tableWord nbits w) with
  | .ok i => some i
  | .error _ => none

end Sys2Proof
end

