-- ==== Sys2Proof/Machine/State.lean ====
section
/-! DEFINITION. The state of one block and of what drives it (spec/10_state.md R17 to R46, spec/00_scope.md R5),
and the state right after reset (R45). Every field is plain data. -/

namespace Sys2Proof.Machine

/-- No step of this machine faults: the block has no traps, every error is a completion with STATE = ERROR, which is a
next state (R137, R150), and no bus access faults (R57, R155). The type has no constructor (log entry 16: safe). -/
inductive Fault where
deriving DecidableEq, Repr

/-- Why a step gives no meaning. -/
inductive Refusal where
  /-- Raised by `exec` alone, for a command with no meaning yet (safe: it stops). No command is in that case. -/
  | notModelled (mnemonic : String)
deriving DecidableEq, Repr

/-- STATUS.STATE (R27). -/
inductive EngineState where
  | idle
  | busy
  | done
  | error
deriving DecidableEq, Repr

/-- The error codes 1 to 7 (R137). Codes 8 to 15 are never produced and have no constructor (I5); code 0 is the
absence of an error. -/
inductive ErrorCode where
  | invalidSymbol
  | invalidFormat
  | illegalCmd
  | badWidth
  | valueRange
  | length
  | outOverflow
deriving DecidableEq, Repr

/-- CTRL: the fields that are stored (R22). START and CLR are actions and read 0. -/
structure Ctrl where
  cmd : BitVec 4
  ie : Bool
deriving DecidableEq, Repr

/-- STATUS (R27 to R29). -/
structure Status where
  state : EngineState
  err : Option ErrorCode
  armorMatch : Bool
deriving DecidableEq, Repr

/-- CONFIG (R30): its seven fields. The reserved bits hold nothing. -/
structure ConfigReg where
  armor : Bool
  descPresent : Bool
  ignoreGarbage : Bool
  fmt : BitVec 2
  trM : BitVec 5
  trN : BitVec 5
deriving DecidableEq, Repr

/-- The buffers' words by word address, addresses strictly rising; an address that is not listed holds an unspecified
value (R42, R45, R164, R168). The unit is the 32-bit word: there is no byte addressing (R47, R52; log entry 10). -/
abbrev Memory := List (Nat × Word)

/-- Who takes the next step (R5): the host, the engine, or the reset input (R163). -/
inductive Agent where
  | host
  | engine
  | rst
deriving DecidableEq, Repr

/-- One operation of a host program (R77, R79). -/
inductive HostOp where
  /-- `WR`: BusWrite. -/
  | write (a : Addr) (v : Word)
  /-- `RD`: BusRead. -/
  | read (a : Addr)
  /-- `WAIT`: read STATUS until STATE is DONE or ERROR. -/
  | wait
deriving DecidableEq, Repr

/-- One bus transaction as R78 writes it: the data written, or the value returned. -/
inductive Txn where
  | wrote (a : Addr) (v : Word)
  | gave (a : Addr) (v : Word)
deriving DecidableEq, Repr

/-- The whole machine: the block (R17), then the host and the schedule of the two agents. -/
structure State where
  /-- What was fixed when the block was built (R7, R38). No step changes it. -/
  params : Params
  /-- CTRL at offset 0x0 (R22). -/
  ctrl : Ctrl
  /-- STATUS at offset 0x1 (R27 to R29). -/
  status : Status
  /-- CONFIG at offset 0x2 (R30). -/
  config : ConfigReg
  /-- WRAP at offset 0x3, bits [15:0] (R34). -/
  wrap : BitVec 16
  /-- IN_LEN at offset 0x4, bits [18:0] (R35). -/
  inLen : BitVec 19
  /-- DESC_LEN at offset 0x5, bits [18:0] (R35). -/
  descLen : BitVec 19
  /-- OUT_LEN at offset 0x6, bits [18:0] (R36). -/
  outLen : BitVec 19
  /-- TR_REM at offset 0x7, bits [30:0] (R36). -/
  trRem : BitVec 31
  /-- TR_BITS at offset 0x8, bits [4:0] (R36). -/
  trBits : BitVec 5
  /-- DEC_PAD at offset 0x9, bits [3:0] (R36). -/
  decPad : BitVec 4
  /-- ERR_INFO at offset 0xA (R37). -/
  errInfo : BitVec 32
  /-- ERR_INDEX at offset 0xB, bits [18:0] (R37). -/
  errIndex : BitVec 19
  /-- IN_BUF, OUT_BUF and DESC_BUF (R42), by bus address (R48). -/
  mem : Memory
  /-- The model's own: how many unspecified values have been drawn (`Config.freeWord`). -/
  draws : Nat
  /-- The host's remaining bus operations, in issue order (R58). -/
  program : List HostOp
  /-- Who moves next, while the schedule lasts (I3). -/
  sched : List Agent
  /-- The bus transactions so far, the latest first (R78): what the host has seen. -/
  trace : List Txn
deriving DecidableEq, Repr

/-- CONFIG after reset: 0x000A0800 (R30, R45). -/
def ConfigReg.reset : ConfigReg where
  armor := false
  descPresent := false
  ignoreGarbage := false
  fmt := 0#2
  trM := 8#5
  trN := 10#5

/-- A block of the given parameters right after reset (R45), its host with nothing to do: `draws`, `program`, `sched` and
`trace` are the model's own fields (DESIGN CHOICE, log entry 13). -/
def State.resetOf (p : Params) : State where
  params := p
  ctrl := ⟨0x0#4, false⟩
  status := ⟨.idle, none, false⟩
  config := .reset
  wrap := 32#16
  inLen := 0#19
  descLen := 0#19
  outLen := 0#19
  trRem := 0#31
  trBits := 0#5
  decPad := 0#4
  errInfo := 0#32
  errIndex := 0#19
  mem := []
  draws := 0
  program := []
  sched := []
  trace := []

/-- The machine right after reset (R45), as a block of the spec's reference configuration (D27; DESIGN CHOICE, log
entry 5). -/
def State.reset : State := .resetOf .reference

end Sys2Proof.Machine
end

