-- ==== Sys2Proof/Machine/Flags.lean ====
section
/-! DEFINITION. The status, the flags and the words the registers read as (spec/10_state.md R18 to R37, R44, R46). -/

namespace Sys2Proof.Machine

/-- The encoding of STATUS.STATE (R27). -/
def EngineState.code : EngineState → BitVec 2
  | .idle => 0#2
  | .busy => 1#2
  | .done => 2#2
  | .error => 3#2

/-- The error codes (R137). -/
def ErrorCode.code : ErrorCode → BitVec 4
  | .invalidSymbol => 1#4
  | .invalidFormat => 2#4
  | .illegalCmd => 3#4
  | .badWidth => 4#4
  | .valueRange => 5#4
  | .length => 6#4
  | .outOverflow => 7#4

/-- STATUS.ERR: 0 is NONE (R28, R137). -/
def Status.errField (t : Status) : BitVec 4 :=
  match t.err with
  | none => 0#4
  | some e => e.code

/-- The word CTRL reads as: `zext_32(IE << 16 | CMD)` (R23); START and CLR read 0 (R19). -/
def Ctrl.word (c : Ctrl) : Word :=
  0#15 ++ BitVec.ofBool c.ie ++ 0#12 ++ c.cmd

/-- The word STATUS reads as (R27 to R29). -/
def Status.word (t : Status) : Word :=
  0#23 ++ BitVec.ofBool t.armorMatch ++ t.errField ++ 0#2 ++ t.state.code

/-- The word CONFIG reads as (R30). -/
def ConfigReg.word (c : ConfigReg) : Word :=
  0#11 ++ c.trN ++ 0#3 ++ c.trM ++ 0#2 ++ c.fmt ++ 0#1 ++
    BitVec.ofBool c.ignoreGarbage ++ BitVec.ofBool c.descPresent ++ BitVec.ofBool c.armor

/-- What a write of a word stores in CONFIG: its fields, the reserved bits dropped (R19, R30, R55). -/
def ConfigReg.ofWord (v : Word) : ConfigReg where
  armor := v.getLsbD 0
  descPresent := v.getLsbD 1
  ignoreGarbage := v.getLsbD 2
  fmt := v.extractLsb' 4 2
  trM := v.extractLsb' 8 5
  trN := v.extractLsb' 16 5

/-- The engine is running a command. -/
def State.isBusy (s : State) : Bool := decide (s.status.state = .busy)

/-- `STATE ∈ {DONE, ERROR}`: what WAIT polls for (R79) and the interrupt reports (R44). -/
def State.isComplete (s : State) : Bool :=
  match s.status.state with
  | .done => true
  | .error => true
  | .idle => false
  | .busy => false

/-- The output signal `irq` (R44). -/
def State.irq (s : State) : Bool := s.ctrl.ie && s.isComplete

/-- The word a register offset reads as (R18, R49): a reserved offset reads 0. -/
def State.register (s : State) (offset : Nat) : Word :=
  match offset with
  | 0x0 => s.ctrl.word
  | 0x1 => s.status.word
  | 0x2 => s.config.word
  | 0x3 => s.wrap.zeroExtend 32
  | 0x4 => s.inLen.zeroExtend 32
  | 0x5 => s.descLen.zeroExtend 32
  | 0x6 => s.outLen.zeroExtend 32
  | 0x7 => s.trRem.zeroExtend 32
  | 0x8 => s.trBits.zeroExtend 32
  | 0x9 => s.decPad.zeroExtend 32
  | 0xA => s.errInfo
  | 0xB => s.errIndex.zeroExtend 32
  | 0xC => BitVec.ofNat 32 s.params.inCap
  | 0xD => BitVec.ofNat 32 s.params.outCap
  | 0xE => BitVec.ofNat 32 s.params.descCap
  | _ => 0#32

end Sys2Proof.Machine
end

