-- ==== Sys2Proof/Machine/Memory.lean ====
section
/-! DEFINITION. The buffer memory: its canonical form, its reads and its writes, by word address (spec/20_memory.md R47
to R55, spec/00_scope.md R13). -/

namespace Sys2Proof.Machine

/-- Strictly rising addresses, each above `lo` (which `none` leaves open). -/
def Memory.risesFrom : Option Nat → Memory → Bool
  | _, [] => true
  | none, (a, _) :: m => Memory.risesFrom (some a) m
  | some lo, (a, _) :: m => decide (lo < a) && Memory.risesFrom (some a) m

/-- The canonical form: addresses strictly rising. An unlisted address has no value, so no entry can equal what it
reads as. -/
def Memory.wf (m : Memory) : Bool := Memory.risesFrom none m

/-- The word at an address, or none where nothing has given it one since reset (R164). -/
def Memory.get? : Memory → Nat → Option Word
  | [], _ => none
  | (b, v) :: m, a => if a = b then some v else Memory.get? m a

/-- Store one word. -/
def Memory.set : Memory → Nat → Word → Memory
  | [], a, v => [(a, v)]
  | (b, u) :: m, a, v =>
    if a < b then (a, v) :: (b, u) :: m
    else if a = b then (a, v) :: m
    else (b, u) :: Memory.set m a v

/-- Store a list of words at consecutive addresses (MemWrite, R13). -/
def Memory.setList : Memory → Nat → List Word → Memory
  | m, _, [] => m
  | m, a, v :: vs => Memory.setList (Memory.set m a v) (a + 1) vs

/-- Make the words from `lo` up to, not including, `hi` unspecified. -/
def Memory.forget (m : Memory) (lo hi : Nat) : Memory := m.filter fun c => !(decide (lo ≤ c.1) && decide (c.1 < hi))

/-- IN_BASE, OUT_BASE and DESC_BASE (R48). -/
def inBase : Nat := 0x40000
def outBase : Nat := 0x80000
def descBase : Nat := 0xC0000

end Sys2Proof.Machine
end

