-- ==== Sys2Proof/Machine/Operands.lean ====
section
/-! DEFINITION. The operands of the commands (spec/30_encoding.md R75, R76): the buffers' elements, the lengths and
their checks, the descriptor, the widths. -/

namespace Sys2Proof.Machine

/-- `raise E(info, index)` of a command's rule (R14). -/
structure Raise where
  error : ErrorCode
  info : Nat
  index : Nat
deriving DecidableEq, Repr

/-- The element of a buffer the engine reads: the stored word, or a free value where nothing has written it since reset
(R169, D39; DESIGN CHOICE, log entry 4). `d` is the draw set aside for it. -/
def elementAt (m : Memory) (a d : Nat) : Word :=
  match m.get? a with
  | some v => v
  | none => Config.freeWord d

/-- MemRead(a, n) (R13), its unspecified elements drawn from `d` on. -/
def memRead (m : Memory) (a : Nat) : Nat → Nat → List Word
  | _, 0 => []
  | d, n + 1 => elementAt m a d :: memRead m (a + 1) (d + 1) n

/-- IN_BUF[0..IN_LEN). -/
def State.input (s : State) : List Word := memRead s.mem inBase s.draws s.inLen.toNat

/-- DESC_BUF[0..DESC_LEN). -/
def State.descriptor (s : State) : List Word :=
  memRead s.mem descBase (s.draws + s.inLen.toNat) s.descLen.toNat

/-- SelectDesc (R108). -/
def State.selectDesc (s : State) : List Word :=
  if s.config.descPresent then s.descriptor else s.params.rom.defaultDesc

/-- `if IN_LEN > IN_CAP: raise LENGTH(info = IN_LEN, index = 0)` (R143). -/
def State.inLenRaise (s : State) : Option Raise :=
  if s.params.inCap < s.inLen.toNat then some ⟨.length, s.inLen.toNat, 0⟩ else none

/-- `if DESC_PRESENT = 1 and DESC_LEN > DESC_CAP: raise LENGTH(info = DESC_LEN, index = 1)` (R143). -/
def State.descLenRaise (s : State) : Option Raise :=
  if s.config.descPresent ∧ s.params.descCap < s.descLen.toNat then some ⟨.length, s.descLen.toNat, 1⟩ else none

/-- `if m = 0 or n = 0: raise BAD_WIDTH(info = m | (n << 8), index = 0)` (R90, R141). -/
def State.widthRaise (s : State) : Option Raise :=
  if s.config.trM.toNat = 0 ∨ s.config.trN.toNat = 0 then
    some ⟨.badWidth, s.config.trM.toNat ||| (s.config.trN.toNat <<< 8), 0⟩
  else none

/-- The first element at or above `bound`, with its index, counted from `i` (R91, R104). -/
def rangeRaise (bound : Nat) : Nat → List Word → Option Raise
  | _, [] => none
  | i, v :: vs => if bound ≤ v.toNat then some ⟨.valueRange, v.toNat, i⟩ else rangeRaise bound (i + 1) vs

end Sys2Proof.Machine
end

