-- ==== Sys2Proof/Machine/Ops.lean ====
section
/-! DEFINITION. The shared operations over the registers: starting a command (spec/60_exceptions.md R147), completing it
with DONE (R149) or with ERROR, the block's trap entry (R150), clearing (spec/10_state.md R25), and reset
(spec/70_reset_and_hazards.md R163). -/

namespace Sys2Proof.Machine

/-- START (R147): from any STATE but BUSY, CTRL takes the new CMD and IE, STATE becomes BUSY, and every result and error
register becomes 0. -/
def State.started (s : State) (i : Instr) : State :=
  { s with
    ctrl := ⟨i.code, i.ie⟩
    status := ⟨.busy, none, false⟩
    outLen := 0#19
    trRem := 0#31
    trBits := 0#5
    decPad := 0#4
    errInfo := 0#32
    errIndex := 0#19 }

/-- What a command's rule returns when it does not raise: the output elements and the side values. A side value a rule
does not name is 0 (R36). -/
structure Result where
  out : List Word
  trRem : Nat := 0
  trBits : Nat := 0
  decPad : Nat := 0
  armorMatch : Bool := false
deriving DecidableEq, Repr

/-- The draws a command may have used, so that none is used twice (log entry 3). -/
def State.drawn (s : State) : State := { s with draws := s.draws + s.inLen.toNat + s.descLen.toNat }

/-- OUT_BUF after a completion: the given words, every other word unspecified (R149, R150, R168). -/
def State.setOutput (s : State) (out : List Word) : State :=
  { s with mem := (s.mem.forget outBase (outBase + s.params.outCap)).setList outBase out }

/-- DONE completion (R149): OUT_BUF, OUT_LEN and the side values are written and STATE becomes DONE, all at once. -/
def State.completeDone (s : State) (r : Result) : State :=
  { s.drawn.setOutput r.out with
    status := { s.status with state := .done, armorMatch := r.armorMatch }
    outLen := BitVec.ofNat 19 r.out.length
    trRem := BitVec.ofNat 31 r.trRem
    trBits := BitVec.ofNat 5 r.trBits
    decPad := BitVec.ofNat 4 r.decPad }

/-- ERROR completion (R150), the block's trap entry: STATE, ERR, ERR_INFO and ERR_INDEX are written, and OUT_BUF is
unspecified. -/
def State.completeError (s : State) (e : Raise) : State :=
  { s.drawn.setOutput [] with
    status := { s.status with state := .error, err := some e.error }
    errInfo := BitVec.ofNat 32 e.info
    errIndex := BitVec.ofNat 19 e.index }

/-- Leaving DONE or ERROR (R25, R153): CLR sets STATE to IDLE and ERR to 0 and nothing else. -/
def State.cleared (s : State) : State := { s with status := { s.status with state := .idle, err := none } }

/-- Every command's last check (R144): a result longer than OUT_CAP raises OUT_OVERFLOW. -/
def State.fitting (s : State) (r : Result) : Except Raise Result :=
  if s.params.outCap < r.out.length then .error ⟨.outOverflow, r.out.length, 0⟩ else .ok r

/-- The completion (R148): DONE if the rule returned a result, ERROR if it raised. -/
def State.complete (s : State) (r : Except Raise Result) : State :=
  match r with
  | .ok r => s.completeDone r
  | .error e => s.completeError e

/-- A check of a command's rule: raise, or go on. -/
def check (c : Option Raise) (next : Except Raise Result) : Except Raise Result :=
  match c with
  | some e => .error e
  | none => next

/-- One command as a whole, with no bus access between START (R147) and completion (R148): `rule` is the command's rule,
evaluated on the operands as they stand at START (R59). On a state that START has just made, `started` changes nothing
(`started_of_startedBy`), so this is also the completion of a BUSY engine (log entry 1). -/
def State.runCommand (s : State) (i : Instr) (rule : State → Except Raise Result) :
    Host.Outcome State Fault Refusal :=
  .next ((s.started i).complete (rule (s.started i)))

/-- The registers a reset puts back (R45, R163) and the buffers it leaves unspecified (R164). The parameters stay, and so
do the host and the schedule, which are not the block's. -/
def State.afterReset (s : State) : State :=
  { State.resetOf s.params with draws := s.draws, program := s.program, sched := s.sched, trace := s.trace }

end Sys2Proof.Machine
end

