-- ==== Sys2Proof/Machine/Framer.lean ====
section
/-! DEFINITION. The armor framer: Wrapper, Armorer, Trim, Dearmorer, and WRAP, ARMOR and DEARMOR (spec/42_framer.md; Trim
is spec/43_decoder.md R125). -/

namespace Sys2Proof.Machine

/-- The loop of R105 from index `i` on. -/
def wrapFrom (w : Nat) : Nat → List Word → List Word
  | _, [] => []
  | i, c :: cs => if i > 0 ∧ i % w = 0 then lf :: c :: wrapFrom w (i + 1) cs else c :: wrapFrom w (i + 1) cs

/-- Wrap(s, W) (R105). -/
def wrapLines (s : List Word) (w : Nat) : List Word := if w = 0 then s else wrapFrom w 0 s

/-- The bound t of R109. -/
def descBound (w : Nat) : Nat := ((w : Int) / 2 - 2).toNat

/-- Line(c, W) of R111; Int division rounds down, so `(g + 1) / 2` is the ceiling of `g / 2`. -/
def centred (mark : Word) (c : List Word) (w : Nat) : List Word :=
  let g : Int := (w : Int) - c.length
  List.replicate (g / 2).toNat mark ++ c ++ List.replicate ((g + 1) / 2).toNat mark

/-- Armor(flat, D0, W) (R109 to R112). -/
def armorText (r : Rom) (flat desc : List Word) (w : Nat) : List Word :=
  let d := desc.take (descBound w)
  centred r.mark (d ++ [r.begin]) w ++ [lf] ++ wrapLines flat w ++ [lf] ++ centred r.mark (d ++ [r.fin]) w

/-- Trim(raw) (R125): the number of leading TRIM_SET characters, and the end of the rest. -/
def trimBounds (trimSet raw : List Word) : Nat × Nat :=
  let s := (raw.takeWhile trimSet.contains).length
  (s, s + ((raw.drop s).reverse.dropWhile trimSet.contains).length)

/-- xs[a..b) (R10). -/
def slice (xs : List Word) (a b : Nat) : List Word := (xs.take b).drop a

/-- trail(X) of R116. -/
def trailRun (mark : Word) (xs : List Word) : Nat := (xs.reverse.takeWhile (· == mark)).length

/-- The test of R116 on the header line H and the footer line F, in its computable form: one candidate L for each
element of {b-1, b} that is not negative. -/
def envelopeLines (r : Rom) (h f : List Word) : Bool :=
  let b := trailRun r.mark h
  let c := trailRun r.mark f
  decide (b < h.length) && h[h.length - b - 1]? == some r.begin &&
  decide (c < f.length) && f[f.length - c - 1]? == some r.fin &&
  (if b = 0 then [0] else [b - 1, b]).any fun l =>
    (decide (l = c) || decide (l + 1 = c)) &&
    (h.take l).all (· == r.mark) && (f.take l).all (· == r.mark) &&
    slice h l (h.length - b - 1) == slice f l (f.length - c - 1)

/-- The result of Dearmor: the body is T[lo..hi) (R115). -/
structure Region where
  lo : Nat
  hi : Nat
  matched : Bool
deriving DecidableEq, Repr

/-- Dearmor(T) (R115 to R118): split at the first and the last LF, then the test of R116. -/
def dearmor (r : Rom) (t : List Word) : Region :=
  let p1 := t.findIdx (· == lf)
  let p2 := t.length - 1 - t.reverse.findIdx (· == lf)
  if 2 ≤ t.count lf ∧ envelopeLines r (t.take p1) (t.drop (p2 + 1)) then ⟨p1 + 1, p2, true⟩
  else ⟨0, t.length, false⟩

/-- The trimmed input raw[s..e). -/
def trimmed (trimSet raw : List Word) : List Word :=
  slice raw (trimBounds trimSet raw).1 (trimBounds trimSet raw).2

/-- The flat body: the region without its line breaks (R117, R118). -/
def flatBody (t : List Word) (g : Region) : List Word := (slice t g.lo g.hi).filter (· != lf)

/-- The rule of WRAP (R121). -/
def wrapRule (s : State) : Except Raise Result :=
  check s.inLenRaise <| s.fitting { out := wrapLines s.input s.wrap.toNat }

/-- The rule of ARMOR (R122). -/
def armorRule (s : State) : Except Raise Result :=
  check s.inLenRaise <| check s.descLenRaise <|
    s.fitting { out := armorText s.params.rom s.input s.selectDesc s.wrap.toNat }

/-- The rule of DEARMOR (R123). -/
def dearmorRule (s : State) : Except Raise Result :=
  check s.inLenRaise <|
    let t := trimmed s.params.trimSet s.input
    let g := dearmor s.params.rom t
    s.fitting { out := flatBody t g, armorMatch := g.matched }

/-- WRAP (R121). -/
def execWrap (ie : Bool) (s : State) : Host.Outcome State Fault Refusal := s.runCommand (.wrap ie) wrapRule

/-- ARMOR (R122). -/
def execArmor (ie : Bool) (s : State) : Host.Outcome State Fault Refusal := s.runCommand (.armor ie) armorRule

/-- DEARMOR (R123). -/
def execDearmor (ie : Bool) (s : State) : Host.Outcome State Fault Refusal := s.runCommand (.dearmor ie) dearmorRule

end Sys2Proof.Machine
end

