-- ==== Sys2Proof/Machine/Transposer.lean ====
section
/-! DEFINITION. The bit transposer and TRANSPOSE (spec/40_transposer.md). -/

namespace Sys2Proof.Machine

/-- The bits of an m-bit value, most significant first (R9, R81). -/
def bitsOf : Nat → Nat → List Bool
  | 0, _ => []
  | m + 1, x => x.testBit m :: bitsOf m x

/-- The loop state of R85: the output so far, and the bit-accounting state (acc, filled), which is the engine's hidden
state of R43 (log entry 11). -/
structure TrLoop where
  out : List Nat
  acc : Nat
  filled : Nat
deriving DecidableEq, Repr

/-- One bit of R85's loop. -/
def TrLoop.push (n : Nat) (t : TrLoop) (b : Bool) : TrLoop :=
  if t.filled + 1 = n then ⟨t.out ++ [2 * t.acc + b.toNat], 0, 0⟩
  else ⟨t.out, 2 * t.acc + b.toNat, t.filled + 1⟩

/-- The triple `(transposed, remainder, bitsRemaining)` of R80. -/
structure Transposed where
  groups : List Nat
  remainder : Nat
  bitsRemaining : Nat
deriving DecidableEq, Repr

/-- Transpose(m, n, xs) in the loop form of R85. -/
def transpose (m n : Nat) (xs : List Nat) : Transposed :=
  let t := xs.foldl (fun t x => (bitsOf m x).foldl (TrLoop.push n) t) ⟨[], 0, 0⟩
  if t.filled > 0 then ⟨t.out, t.acc <<< (n - t.filled), t.filled⟩ else ⟨t.out, 0, 0⟩

/-- The input bit stream S of R81. -/
def bitStream (m : Nat) (xs : List Nat) : List Bool := xs.flatMap (bitsOf m)

/-- value(bs) of R82: the first bit is the most significant. -/
def bitsValue : List Bool → Nat
  | [] => 0
  | b :: bs => b.toNat * 2 ^ bs.length + bitsValue bs

/-- Transpose by R81 to R83, by slices of the stream; R85 says that the loop computes exactly this. -/
def transposeBySlices (m n : Nat) (xs : List Nat) : Transposed :=
  let s := bitStream m xs
  let q := s.length / n
  let r := s.length % n
  ⟨(List.range q).map fun j => bitsValue ((s.drop (j * n)).take n),
    if r > 0 then bitsValue (s.drop (q * n)) <<< (n - r) else 0, r⟩

/-- The rule of TRANSPOSE (R90, R91). -/
def transposeRule (s : State) : Except Raise Result :=
  check s.inLenRaise <|
  check s.widthRaise <|
  check (rangeRaise (2 ^ s.config.trM.toNat) 0 s.input) <|
    let t := transpose s.config.trM.toNat s.config.trN.toNat (s.input.map BitVec.toNat)
    s.fitting { out := t.groups.map (BitVec.ofNat 32), trRem := t.remainder, trBits := t.bitsRemaining }

/-- TRANSPOSE (R90). -/
def execTranspose (ie : Bool) (s : State) : Host.Outcome State Fault Refusal :=
  s.runCommand (.transpose ie) transposeRule

end Sys2Proof.Machine
end

