-- ==== Sys2Proof/Machine/Encoder.lean ====
section
/-! DEFINITION. The base-1024 encoder and ENCODE (spec/41_encoder.md). -/

namespace Sys2Proof.Machine

/-- SYM[c] (R95). A code is below 1024 (R94), so the 0 is never taken (log entry 15). -/
def symAt (r : Rom) (c : Nat) : Word := r.sym[c]?.getD 0#32

/-- PAD[k] for k in {2, 4, 6, 8} (R38, R96); no other index is ever asked for (log entry 15). -/
def padAt (r : Rom) (k : Nat) : Word :=
  match k with
  | 2 => r.pad2
  | 4 => r.pad4
  | 6 => r.pad6
  | _ => r.pad8

/-- The codes of R94, from the 8 to 10 transposition. -/
def codesOf (t : Transposed) : List Nat := if t.bitsRemaining > 0 then t.groups ++ [t.remainder] else t.groups

/-- The flat string of R95 and R96. -/
def flatString (r : Rom) (t : Transposed) : List Word :=
  let syms := (codesOf t).map (symAt r)
  if t.bitsRemaining > 0 then syms ++ [padAt r (10 - t.bitsRemaining)] else syms

/-- The presentation of R97: armor is tested before wrap. -/
def present (r : Rom) (flat : List Word) (armor : Bool) (desc : List Word) (w : Nat) : List Word :=
  if armor then armorText r flat desc w else if w > 0 then wrapLines flat w else flat

/-- Encode(bs, armor, D0, W) (R92 to R97). -/
def encodeBytes (r : Rom) (bs : List Nat) (armor : Bool) (desc : List Word) (w : Nat) : Result :=
  match bs with
  | [] => { out := [] }
  | _ :: _ =>
    let t := transpose 8 10 bs
    { out := present r (flatString r t) armor desc w, trRem := t.remainder, trBits := t.bitsRemaining }

/-- The rule of ENCODE (R103, R104). -/
def encodeRule (s : State) : Except Raise Result :=
  check s.inLenRaise <|
  check (if s.config.armor then s.descLenRaise else none) <|
  check (rangeRaise 256 0 s.input) <|
    s.fitting (encodeBytes s.params.rom (s.input.map BitVec.toNat) s.config.armor
      (if s.config.armor then s.selectDesc else []) s.wrap.toNat)

/-- ENCODE (R103). -/
def execEncode (ie : Bool) (s : State) : Host.Outcome State Fault Refusal := s.runCommand (.encode ie) encodeRule

end Sys2Proof.Machine
end

