-- ==== Sys2Proof/Machine/Decoder.lean ====
section
/-! DEFINITION. The base-1024 decoder and DECODE (spec/43_decoder.md). -/

namespace Sys2Proof.Machine

/-- IDX(c) (R39): the index of a data symbol. -/
def symIdx? (r : Rom) (c : Word) : Option Nat := r.sym.toList.findIdx? (· == c)

/-- PADIDX(c) (R39): the index of a padding marker. -/
def padIdx? (r : Rom) (c : Word) : Option Nat :=
  if c = r.pad2 then some 2
  else if c = r.pad4 then some 4
  else if c = r.pad6 then some 6
  else if c = r.pad8 then some 8
  else none

/-- A character of the flat sequence with its position in IN_BUF: R126 works on positions, and reads the character at
each. -/
structure Placed where
  pos : Nat
  char : Word
deriving DecidableEq, Repr

/-- The characters of a list with their positions, counted from `i`. -/
def placeFrom : Nat → List Word → List Placed
  | _, [] => []
  | i, c :: cs => ⟨i, c⟩ :: placeFrom (i + 1) cs

/-- Steps 1 and 2 (R127): the list P, and whether the envelope matched. -/
def flatPlaced (p : Params) (raw : List Word) : List Placed × Bool :=
  let t := trimmed p.trimSet raw
  let g := dearmor p.rom t
  ((placeFrom ((trimBounds p.trimSet raw).1 + g.lo) (slice t g.lo g.hi)).filter (·.char != lf), g.matched)

/-- Step 3 (R128): the padding index of the last character, and the sequence without its marker. -/
def depad (r : Rom) (ps : List Placed) : Nat × List Placed :=
  match ps.getLast? with
  | none => (0, ps)
  | some l =>
    match padIdx? r l.char with
    | some k => (k, ps.dropLast)
    | none => (0, ps)

/-- Step 4 (R129). -/
def dropGarbage (r : Rom) (ignore : Bool) (ps : List Placed) : List Placed :=
  if ignore then ps.filter fun p => (symIdx? r p.char).isSome else ps

/-- Step 5 (R130): the codes, or INVALID_SYMBOL at the first character that has none. -/
def mapCodes (r : Rom) : List Placed → Except Raise (List Nat)
  | [] => .ok []
  | p :: ps =>
    match symIdx? r p.char with
    | none => .error ⟨.invalidSymbol, p.char.toNat, p.pos⟩
    | some c =>
      match mapCodes r ps with
      | .error e => .error e
      | .ok cs => .ok (c :: cs)

/-- Step 7 (R132): padding index 8 drops the artifact byte, if there is a byte. -/
def dropArtifact (pad : Nat) (bytes : List Nat) : List Nat := if pad ≥ 8 then bytes.dropLast else bytes

/-- Decode(raw, fmt, ig) (R126 to R134), the bytes as output words (R133: the same for 'string' and 'binary'). -/
def decodeText (p : Params) (raw : List Word) (fmt : Nat) (ignore : Bool) : Except Raise Result :=
  let f := flatPlaced p raw
  let d := depad p.rom f.1
  match mapCodes p.rom (dropGarbage p.rom ignore d.2) with
  | .error e => .error e
  | .ok codes =>
    let t := transpose 10 8 codes
    if fmt = 0 ∨ fmt = 1 then
      .ok { out := (dropArtifact d.1 t.groups).map (BitVec.ofNat 32), trRem := t.remainder,
            trBits := t.bitsRemaining, decPad := d.1, armorMatch := f.2 }
    else .error ⟨.invalidFormat, fmt, 0⟩

/-- The rule of DECODE (R136). -/
def decodeRule (s : State) : Except Raise Result :=
  check s.inLenRaise <|
    match decodeText s.params s.input s.config.fmt.toNat s.config.ignoreGarbage with
    | .error e => .error e
    | .ok r => s.fitting r

/-- DECODE (R136). -/
def execDecode (ie : Bool) (s : State) : Host.Outcome State Fault Refusal := s.runCommand (.decode ie) decodeRule

end Sys2Proof.Machine
end

