-- ==== Sys2Proof/Machine/System.lean ====
section
/-! DEFINITION. NOP and the reserved codes (spec/60_exceptions.md R140, R151, spec/30_encoding.md R71). -/

namespace Sys2Proof.Machine

/-- NOP (R151): an empty result with no check. -/
def execNop (ie : Bool) (s : State) : Host.Outcome State Fault Refusal :=
  s.runCommand (.nop ie) fun _ => .ok { out := [] }

/-- The rule of a reserved code (R140): ILLEGAL_CMD with the code as its value, before any other check. -/
def illegalRule (code : BitVec 4) (_ : State) : Except Raise Result := .error ⟨.illegalCmd, code.toNat, 0⟩

/-- The reserved code 0x7 (R140). -/
def execIllegal7 (ie : Bool) (s : State) : Host.Outcome State Fault Refusal :=
  s.runCommand (.illegal7 ie) (illegalRule 0x7#4)

/-- The reserved codes 0x8 to 0xF (R140). -/
def execIllegalHigh (code : BitVec 4) (ie : Bool) (s : State) : Host.Outcome State Fault Refusal :=
  s.runCommand (.illegalHigh code ie) (illegalRule code)

end Sys2Proof.Machine
end

