-- ==== Sys2Proof/Machine/Dispatch.lean ====
section
/-! DEFINITION. One arm per command of spec/opcode_table.json (spec/30_encoding.md R70). -/

namespace Sys2Proof.Machine

def exec (i : Instr) (s : State) : Host.Outcome State Fault Refusal :=
  match i with
  | .nop ie => Sys2Proof.Machine.execNop ie s
  | .transpose ie => Sys2Proof.Machine.execTranspose ie s
  | .encode ie => Sys2Proof.Machine.execEncode ie s
  | .decode ie => Sys2Proof.Machine.execDecode ie s
  | .wrap ie => Sys2Proof.Machine.execWrap ie s
  | .armor ie => Sys2Proof.Machine.execArmor ie s
  | .dearmor ie => Sys2Proof.Machine.execDearmor ie s
  | .illegal7 ie => Sys2Proof.Machine.execIllegal7 ie s
  | .illegalHigh code ie => Sys2Proof.Machine.execIllegalHigh code ie s

end Sys2Proof.Machine
end

