-- ==== Sys2Proof/Machine/Bus.lean ====
section
/-! DEFINITION. The host bus (spec/20_memory.md R47 to R58): the address map, BusRead and BusWrite, and the CTRL write
(spec/10_state.md R23 to R25). -/

namespace Sys2Proof.Machine

/-- What an address names (R48 to R50). -/
inductive Place where
  /-- A register offset, reserved ones included (R49). -/
  | register (offset : Nat)
  /-- IN_BUF[i], OUT_BUF[i], DESC_BUF[i], i below the capacity. -/
  | inBuf (i : Nat)
  | outBuf (i : Nat)
  | descBuf (i : Nat)
  /-- A buffer address at or above the capacity: no storage (R50). -/
  | unbacked
deriving DecidableEq, Repr

/-- The address map (R48): A[19:18] selects the window, A[17:0] is the offset. -/
def placeOf (p : Params) (a : Addr) : Place :=
  let o := (a.extractLsb' 0 18).toNat
  match (a.extractLsb' 18 2).toNat with
  | 0 => .register o
  | 1 => if o < p.inCap then .inBuf o else .unbacked
  | 2 => if o < p.outCap then .outBuf o else .unbacked
  | _ => if o < p.descCap then .descBuf o else .unbacked

/-- A buffer word as a host read gives it: the stored word, or a free value where it is unspecified (I1, I2), one draw
for each such read. -/
def State.readWord (s : State) (stored : Option Word) : Word × State :=
  match stored with
  | some v => (v, s)
  | none => (Config.freeWord s.draws, { s with draws := s.draws + 1 })

/-- BusRead(a) (R54). It changes nothing of the block; `draws` is the model's own. -/
def State.busRead (s : State) (a : Addr) : Word × State :=
  match placeOf s.params a with
  | .register o => (s.register o, s)
  | .inBuf i => s.readWord (s.mem.get? (inBase + i))
  | .outBuf i => s.readWord (if s.isBusy then none else s.mem.get? (outBase + i))
  | .descBuf i => s.readWord (s.mem.get? (descBase + i))
  | .unbacked => (0#32, s)

/-- A CTRL write accepted while STATE is not BUSY (R23 to R25, R69, R73): a command starts (R147); or CMD and IE are
stored, and CLR clears. -/
def State.writeCtrl (s : State) (v : Word) : State :=
  match decode v with
  | .ok i => s.started i
  | .error .clearWord => { s with ctrl := ⟨wordCmd v, wordIe v⟩ }.cleared
  | .error .setOnlyWord => { s with ctrl := ⟨wordCmd v, wordIe v⟩ }

/-- A write to a register offset (R18, R55): the read-only and the reserved ones change nothing. -/
def State.writeRegister (s : State) (offset : Nat) (v : Word) : State :=
  match offset with
  | 0x0 => s.writeCtrl v
  | 0x2 => { s with config := .ofWord v }
  | 0x3 => { s with wrap := v.extractLsb' 0 16 }
  | 0x4 => { s with inLen := v.extractLsb' 0 19 }
  | 0x5 => { s with descLen := v.extractLsb' 0 19 }
  | _ => s

/-- BusWrite(a, v) (R55): dropped while BUSY (R166). -/
def State.busWrite (s : State) (a : Addr) (v : Word) : State :=
  if s.isBusy then s
  else
    match placeOf s.params a with
    | .register o => s.writeRegister o v
    | .inBuf i => { s with mem := s.mem.set (inBase + i) v }
    | .descBuf i => { s with mem := s.mem.set (descBase + i) v }
    | .outBuf _ => s
    | .unbacked => s

end Sys2Proof.Machine
end

