-- ==== Sys2Proof/Machine/HostProgram.lean ====
section
/-! DEFINITION. The host agent (spec/00_scope.md R5): one operation of its program on the bus, and the notation of
spec/30_encoding.md R77 to R79. -/

namespace Sys2Proof.Machine

/-- Write a transaction into the host's record (R78). -/
def State.logged (s : State) (t : Txn) : State := { s with trace := t :: s.trace }

/-- The address of a register (R18, R77). -/
def ctrlAddr : Addr := 0x0#20
def statusAddr : Addr := 0x1#20
def configAddr : Addr := 0x2#20
def wrapAddr : Addr := 0x3#20
def inLenAddr : Addr := 0x4#20
def descLenAddr : Addr := 0x5#20

/-- `IN[i]`, `OUT[i]` and `DESC[i]` (R77): IN_BASE + i, OUT_BASE + i, DESC_BASE + i. An i of 2^18 or more, of which the
spec says nothing, leaves the window, and the sum is taken modulo 2^20. DESIGN CHOICE, log entry 18. -/
def inAddr (i : Nat) : Addr := BitVec.ofNat 20 (inBase + i)
def outAddr (i : Nat) : Addr := BitVec.ofNat 20 (outBase + i)
def descAddr (i : Nat) : Addr := BitVec.ofNat 20 (descBase + i)

/-- The host performs the first operation of its program; WAIT stays until the STATUS it reads says DONE or ERROR
(R79, R178; log entry 12). A host with no operation left does nothing. -/
def State.hostMove (s : State) : State :=
  match s.program with
  | [] => s
  | .write a v :: rest => ({ s with program := rest }.busWrite a v).logged (.wrote a v)
  | .read a :: rest => ({ s with program := rest }.busRead a).2.logged (.gave a ({ s with program := rest }.busRead a).1)
  | .wait :: rest =>
    { s with program := if s.isComplete then rest else s.program }.logged (.gave statusAddr s.status.word)

/-- `START <mnemonic>[, ie]` (R79). -/
def startOps (i : Instr) : List HostOp := [.write ctrlAddr (encode i)]

/-- `CLEAR[, ie]` (R79). -/
def clearOps (ie : Bool) : List HostOp := [.write ctrlAddr (0x200#32 ||| (if ie then 0x10000#32 else 0#32))]

/-- Writes of a list at consecutive addresses from index `i` on. -/
def loadFrom (addr : Nat → Addr) : Nat → List Word → List HostOp
  | _, [] => []
  | i, v :: vs => .write (addr i) v :: loadFrom addr (i + 1) vs

/-- `LOADIN [v0, …]` (R79); a list longer than 2^18 is log entry 18. -/
def loadInOps (vs : List Word) : List HostOp :=
  loadFrom inAddr 0 vs ++ [.write inLenAddr (BitVec.ofNat 32 vs.length)]

/-- `LOADDESC [d0, …]` (R79); a list longer than 2^18 is log entry 18. -/
def loadDescOps (ds : List Word) : List HostOp :=
  loadFrom descAddr 0 ds ++ [.write descLenAddr (BitVec.ofNat 32 ds.length)]

/-- `CFG …` (R79): a record of fields, an omitted one at its reset value. -/
def cfgOps (c : ConfigReg) : List HostOp := [.write configAddr c.word]

/-- `DUMP k` (R79); a k above 2^18 is log entry 18. -/
def dumpOps (k : Nat) : List HostOp := (List.range k).map fun i => .read (outAddr i)

end Sys2Proof.Machine
end

