-- ==== Sys2Proof/Machine/Schedule.lean ====
section
/-! DEFINITION. Who moves and what a move is (spec/00_scope.md R5, spec/60_exceptions.md R148, spec/20_memory.md R58). -/

namespace Sys2Proof.Machine

/-- The command a BUSY engine has pending: CTRL.CMD, which cannot change while BUSY (R59, R148). -/
def State.pending (s : State) : Instr := .ofCode s.ctrl.cmd s.ctrl.ie

/-- The agent that moves. When the schedule is used up a BUSY engine completes, so that a completion is never pending for
ever (R148); otherwise the host goes on. DESIGN CHOICE, log entry 2. -/
def State.mover (s : State) : Agent :=
  match s.sched with
  | a :: _ => a
  | [] => if s.isBusy then .engine else .host

/-- The move just taken is struck off the schedule. -/
def State.ticked (s : State) : State := { s with sched := s.sched.tail }

/-- The engine's move: the pending completion (R148), or nothing (R160). -/
def engineMove (s : State) : Host.Outcome State Fault Refusal :=
  if s.isBusy then exec s.pending s else .next s

/-- The move of each agent; the reset input's is R163. -/
def agentMove (a : Agent) (s : State) : Host.Outcome State Fault Refusal :=
  match a with
  | .engine => engineMove s
  | .host => .next s.hostMove
  | .rst => .next s.afterReset

/-- The machine with a command word accepted by CTRL and the engine next. A BUSY engine is first made idle, since CTRL
would drop the word (R166). DESIGN CHOICE, log entry 9. -/
def State.commanded (s : State) (w : Word) : State :=
  { (if s.isBusy then s.cleared else s).writeCtrl w with
    sched := if s.sched = [] then [] else .engine :: s.sched }

end Sys2Proof.Machine
end

