-- ==== Sys2Proof/Machine/Step.lean ====
section
/-! DEFINITION. One step of the machine: the schedule names the agent, and that agent takes its one atomic move
(spec/60_exceptions.md R148, spec/20_memory.md R58). -/

namespace Sys2Proof.Machine

/-- One step. -/
def step (s : State) : Host.Outcome State Fault Refusal := agentMove s.mover s.ticked

/-- The machine about to run the command of a table word: the very next step runs it (log entry 9). -/
def State.withFetchWord (s : State) (nbits w : Nat) : State := s.commanded (tableWord nbits w)

end Sys2Proof.Machine
end

