-- ==== Sys2Proof/Safety.lean ====
section
/-! DEFINITION. What counts as a safe run, in the terms the statements use: what a completion leaves, what it leaves alone,
and the invariant every step keeps (spec/60_exceptions.md R146 to R150, spec/10_state.md R28, R36). -/

namespace Sys2Proof.Machine

/-- The address lies in OUT_BUF (R48). -/
def State.inOutBuf (s : State) (a : Nat) : Prop := outBase ≤ a ∧ a < outBase + s.params.outCap

/-- What no command writes (R146): the parameters, CONFIG, WRAP, IN_LEN, DESC_LEN, the host and the schedule, and every
word outside OUT_BUF. -/
def SameOperands (s t : State) : Prop :=
  t.params = s.params ∧ t.config = s.config ∧ t.wrap = s.wrap ∧ t.inLen = s.inLen ∧ t.descLen = s.descLen ∧
  t.program = s.program ∧ t.sched = s.sched ∧ t.trace = s.trace ∧
  ∀ a, ¬ s.inOutBuf a → t.mem.get? a = s.mem.get? a

/-- The command i took s to t and ended in DONE with the given output and side values (R147, R149): OUT_BUF holds the
output, every other word of it is unspecified (R168), and nothing else changed but what START writes. -/
def CompletesDone (i : Instr) (s t : State) (r : Result) : Prop :=
  t.ctrl = ⟨i.code, i.ie⟩ ∧ t.status = ⟨.done, none, r.armorMatch⟩ ∧
  t.outLen.toNat = r.out.length ∧ t.trRem.toNat = r.trRem ∧ t.trBits.toNat = r.trBits ∧
  t.decPad.toNat = r.decPad ∧ t.errInfo = 0#32 ∧ t.errIndex = 0#19 ∧
  (∀ k, k < s.params.outCap → t.mem.get? (outBase + k) = r.out[k]?) ∧ SameOperands s t

/-- The command i took s to t and ended in ERROR (R147, R150): the error registers say which error, the result registers
are 0, every word of OUT_BUF is unspecified, and nothing else changed but what START writes. -/
def CompletesError (i : Instr) (s t : State) (e : Raise) : Prop :=
  t.ctrl = ⟨i.code, i.ie⟩ ∧ t.status = ⟨.error, some e.error, false⟩ ∧
  t.outLen = 0#19 ∧ t.trRem = 0#31 ∧ t.trBits = 0#5 ∧ t.decPad = 0#4 ∧
  t.errInfo.toNat = e.info ∧ t.errIndex.toNat = e.index ∧
  (∀ k, k < s.params.outCap → t.mem.get? (outBase + k) = none) ∧ SameOperands s t

/-- The registers as START leaves them (R147), but for CTRL. -/
def State.FreshlyStarted (s : State) : Prop :=
  s.status = ⟨.busy, none, false⟩ ∧ s.outLen = 0#19 ∧ s.trRem = 0#31 ∧ s.trBits = 0#5 ∧ s.decPad = 0#4 ∧
  s.errInfo = 0#32 ∧ s.errIndex = 0#19

/-- The address names storage (R48, R50). -/
def State.backed (s : State) (a : Nat) : Prop :=
  (inBase ≤ a ∧ a < inBase + s.params.inCap) ∨ s.inOutBuf a ∨ (descBase ≤ a ∧ a < descBase + s.params.descCap)

/-- DESC_LEN is within DESC_CAP, where a set descriptor is looked at (R143). -/
def State.descFits (s : State) : Prop := s.config.descPresent = true → s.descLen.toNat ≤ s.params.descCap

/-- The command gets as far as reading IN_BUF[0..IN_LEN): it has passed the checks its pseudocode makes before MemRead
(R90, R103, R121 to R123, R136). -/
def State.readsInput (s : State) : Instr → Prop
  | .nop _ => False
  | .transpose _ => s.inLen.toNat ≤ s.params.inCap ∧ s.config.trM ≠ 0#5 ∧ s.config.trN ≠ 0#5
  | .encode _ => s.inLen.toNat ≤ s.params.inCap ∧ (s.config.armor = true → s.descFits)
  | .decode _ => s.inLen.toNat ≤ s.params.inCap
  | .wrap _ => s.inLen.toNat ≤ s.params.inCap
  | .armor _ => s.inLen.toNat ≤ s.params.inCap ∧ s.descFits
  | .dearmor _ => s.inLen.toNat ≤ s.params.inCap
  | .illegal7 _ => False
  | .illegalHigh _ _ => False

/-- The command gets as far as reading DESC_BUF[0..DESC_LEN): ENCODE with ARMOR = 1 and no element out of range, and ARMOR,
each with a set descriptor (R103, R108, R122). -/
def State.readsDescriptor (s : State) : Instr → Prop
  | .nop _ => False
  | .transpose _ => False
  | .encode i => s.readsInput (.encode i) ∧ s.config.armor = true ∧ s.config.descPresent = true ∧ ∀ v ∈ s.input, v.toNat < 256
  | .decode _ => False
  | .wrap _ => False
  | .armor i => s.readsInput (.armor i) ∧ s.config.descPresent = true
  | .dearmor _ => False
  | .illegal7 _ => False
  | .illegalHigh _ _ => False

/-- Every element the command reads has been written since reset (R169). -/
def State.operandsWritten (s : State) (i : Instr) : Prop :=
  (s.readsInput i → ∀ k, k < s.inLen.toNat → (s.mem.get? (inBase + k)).isSome = true) ∧
    (s.readsDescriptor i → ∀ k, k < s.descLen.toNat → (s.mem.get? (descBase + k)).isSome = true)

/-- The list T has the form of R116, with body B. -/
def IsEnvelope (r : Rom) (t body : List Word) : Prop :=
  ∃ (l xh xf : Nat) (d : List Word), xh ≤ 1 ∧ xf ≤ 1 ∧ lf ∉ d ∧
    t = List.replicate l r.mark ++ d ++ [r.begin] ++ List.replicate (l + xh) r.mark ++ [lf] ++ body ++ [lf] ++
      List.replicate l r.mark ++ d ++ [r.fin] ++ List.replicate (l + xf) r.mark

/-- The invariant of the machine. -/
structure State.Inv (s : State) : Prop where
  /-- The capacities are legal (R7). -/
  capacities : s.params.capacitiesOk = true
  /-- The memory is in its canonical form. -/
  memory : s.mem.wf = true
  /-- Only backed addresses hold a word (R50). -/
  stored : ∀ a, (s.mem.get? a).isSome = true → s.backed a
  /-- ERR ≠ 0 exactly when STATE = ERROR (R28). -/
  errIffError : s.status.err.isSome = true ↔ s.status.state = .error
  /-- While BUSY every result and error register reads 0 (R147, R167). -/
  busy : s.status.state = .busy → s.FreshlyStarted
  /-- After ERROR the result registers read 0 (R146, R150). -/
  error : s.status.state = .error →
    s.outLen = 0#19 ∧ s.trRem = 0#31 ∧ s.trBits = 0#5 ∧ s.decPad = 0#4 ∧ s.status.armorMatch = false
  /-- OUT_LEN never exceeds OUT_CAP (R144, R149). -/
  outLen : s.outLen.toNat ≤ s.params.outCap
  /-- Unless BUSY, exactly the words OUT_BUF[0..OUT_LEN) are specified (R164, R168). -/
  output : s.status.state ≠ .busy →
    ∀ k, k < s.params.outCap → ((s.mem.get? (outBase + k)).isSome = true ↔ k < s.outLen.toNat)
  /-- DEC_PAD is 0, 2, 4, 6 or 8 (R36). -/
  decPad : s.decPad.toNat ∈ [0, 2, 4, 6, 8]

end Sys2Proof.Machine
end

