-- ==== Sys2Proof/Certificates/Slice0/Obligations.lean ====
section
/-! DEFINITION. The statements about the base-emoji codec core, each a proposition about the model. -/

open Sys2Proof Sys2Proof.Machine

/-! ## The command word (spec/30_encoding.md) -/

/-- Decoding and encoding agree in both directions: a well-formed command is read back from its word, and a word that is
a command is, in its significant bits, the word that command is written with. -/
def Obligations.DecodeAndEncodeAgree : Prop :=
  (∀ i : Instr, i.wellFormed = true → decode (encode i) = .ok i) ∧
  ∀ (w : Word) (i : Instr), decode w = .ok i → i.wellFormed = true ∧ encode i = w &&& significantBits

/-- The rows of R70 do not overlap and are what decoding goes by: a command's word lies in its row and in no other, and a
word in a row is a command of that row. -/
def Obligations.OneOpcodeRowPerCommand : Prop :=
  (∀ (w : Word) (i : Instr), decode w = .ok i → ∀ j : Instr, j.row.covers w = true ↔ j.row = i.row) ∧
  ∀ (w : Word) (j : Instr), j.row.covers w = true → ∃ i, decode w = .ok i ∧ i.row = j.row

/-- Words written out from the field table of R68 and the codes of R70, one for each command, with ignored bits, CLR and
IE set in some. -/
def Obligations.WrittenOutWordsDecode : Prop :=
  decode 0x00000100#32 = .ok (.nop false) ∧ decode 0x00010101#32 = .ok (.transpose true) ∧
  decode 0x00000302#32 = .ok (.encode false) ∧ decode 0xFFFFFFF3#32 = .ok (.decode true) ∧
  decode 0x00000104#32 = .ok (.wrap false) ∧ decode 0x00010105#32 = .ok (.armor true) ∧
  decode 0xFFFEFDF6#32 = .ok (.dearmor false) ∧ decode 0x00000107#32 = .ok (.illegal7 false) ∧
  decode 0x0001010F#32 = .ok (.illegalHigh 0xF#4 true) ∧ decode 0x00000200#32 = .error .clearWord ∧
  decode 0x00010006#32 = .error .setOnlyWord

/-- The bits R68 calls ignored never change what a word written to CTRL does (R72): a word acts as it does with those
bits 0. -/
def Obligations.IgnoredBitsDoNothing : Prop :=
  ∀ (s : State) (w : Word), s.busWrite ctrlAddr w = s.busWrite ctrlAddr (w &&& 0x1030F#32)

/-! ## The bus (spec/20_memory.md) and CTRL (spec/10_state.md) -/

/-- START (R147): accepted from every STATE but BUSY, whatever CLR is (R24), it stores CMD and IE, makes STATE BUSY and
every result and error register 0, and leaves everything else; while BUSY the word is dropped. -/
def Obligations.StartAction : Prop :=
  ∀ (s : State) (w : Word), w.getLsbD 8 = true →
    (s.status.state ≠ .busy →
      ∃ t, s.busWrite ctrlAddr w = t ∧ t.FreshlyStarted ∧ t.ctrl.cmd = w.extractLsb' 0 4 ∧ t.ctrl.ie = w.getLsbD 16 ∧
        SameOperands s t ∧ t.mem = s.mem ∧ t.draws = s.draws) ∧
    (s.status.state = .busy → s.busWrite ctrlAddr w = s)

/-- CLR (R25): STATE becomes IDLE and ERR 0, CMD and IE are stored (R23), and nothing else changes. From IDLE, where ERR is
0 (R28), STATUS is as it was. -/
def Obligations.ClearAction : Prop :=
  ∀ (s : State) (v : Word), s.status.state ≠ .busy → v.getLsbD 8 = false → v.getLsbD 9 = true →
    s.busWrite ctrlAddr v =
        { s with
          ctrl := ⟨v.extractLsb' 0 4, v.getLsbD 16⟩
          status := ⟨.idle, none, s.status.armorMatch⟩ } ∧
      (s.status.state = .idle → s.status.err = none → (s.busWrite ctrlAddr v).status = s.status)

/-- A command word with START = 0 and CLR = 0 stores CMD and IE and starts nothing (R73). -/
def Obligations.SetOnlyAction : Prop :=
  ∀ (s : State) (v : Word), s.status.state ≠ .busy → v.getLsbD 8 = false → v.getLsbD 9 = false →
    s.busWrite ctrlAddr v = { s with ctrl := ⟨v.extractLsb' 0 4, v.getLsbD 16⟩ }

/-- A host write while BUSY is dropped, whatever its address (R166): the step takes it off the host's program and changes
nothing of the block. -/
def Obligations.WritesWhileBusyAreDropped : Prop :=
  ∀ (s : State) (a : Addr) (v : Word) (rest : List HostOp), s.status.state = .busy → s.mover = .host →
    s.program = .write a v :: rest →
      step s = .next { s with program := rest, sched := s.sched.tail, trace := .wrote a v :: s.trace }

/-- The register window (R18, R49): each offset reads as its register, in the bits its field table gives, STATE by the
numbers of R27 and ERR by the codes of R137; a reserved offset reads 0 and ignores a write, and no read changes
anything. -/
def Obligations.RegisterWindow : Prop :=
  ∀ s : State, s.params.capacitiesOk = true →
    (∀ o, o < 0x40000 → ((s.busRead (BitVec.ofNat 20 o)).2 = s ∧
      (s.busRead (BitVec.ofNat 20 o)).1.toNat =
        match o with
        | 0x0 => s.ctrl.cmd.toNat + 65536 * s.ctrl.ie.toNat
        | 0x1 =>
            (match s.status.state with
              | .idle => 0
              | .busy => 1
              | .done => 2
              | .error => 3) +
            16 * (match s.status.err with
              | none => 0
              | some .invalidSymbol => 1
              | some .invalidFormat => 2
              | some .illegalCmd => 3
              | some .badWidth => 4
              | some .valueRange => 5
              | some .length => 6
              | some .outOverflow => 7) +
            256 * s.status.armorMatch.toNat
        | 0x2 => s.config.armor.toNat + 2 * s.config.descPresent.toNat + 4 * s.config.ignoreGarbage.toNat +
            16 * s.config.fmt.toNat + 256 * s.config.trM.toNat + 65536 * s.config.trN.toNat
        | 0x3 => s.wrap.toNat
        | 0x4 => s.inLen.toNat
        | 0x5 => s.descLen.toNat
        | 0x6 => s.outLen.toNat
        | 0x7 => s.trRem.toNat
        | 0x8 => s.trBits.toNat
        | 0x9 => s.decPad.toNat
        | 0xA => s.errInfo.toNat
        | 0xB => s.errIndex.toNat
        | 0xC => s.params.inCap
        | 0xD => s.params.outCap
        | 0xE => s.params.descCap
        | _ => 0)) ∧
    ∀ o v, 0xF ≤ o → o < 0x40000 → s.busWrite (BitVec.ofNat 20 o) v = s

/-- A writable register reads back what was written, its reserved bits 0 (R19, R23, R30, R34, R35, R55), and an accepted
write to CONFIG, WRAP, IN_LEN or DESC_LEN changes that register and nothing else (R12): no other register, no word of
memory, neither `irq` nor the host. -/
def Obligations.WrittenRegistersReadBack : Prop :=
  ∀ (s : State) (v : Word), s.status.state ≠ .busy →
    ((s.busWrite ctrlAddr v).busRead ctrlAddr).1 = v &&& 0x1000F#32 ∧
    (((s.busWrite configAddr v).busRead configAddr).1 = v &&& 0x1F1F37#32 ∧
      s.busWrite configAddr v = { s with config := (s.busWrite configAddr v).config } ∧
      (s.busWrite configAddr v).irq = s.irq) ∧
    (((s.busWrite wrapAddr v).busRead wrapAddr).1 = v &&& 0xFFFF#32 ∧
      s.busWrite wrapAddr v = { s with wrap := (s.busWrite wrapAddr v).wrap } ∧ (s.busWrite wrapAddr v).irq = s.irq) ∧
    (((s.busWrite inLenAddr v).busRead inLenAddr).1 = v &&& 0x7FFFF#32 ∧
      s.busWrite inLenAddr v = { s with inLen := (s.busWrite inLenAddr v).inLen } ∧
      (s.busWrite inLenAddr v).irq = s.irq) ∧
    ((s.busWrite descLenAddr v).busRead descLenAddr).1 = v &&& 0x7FFFF#32 ∧
      s.busWrite descLenAddr v = { s with descLen := (s.busWrite descLenAddr v).descLen } ∧
      (s.busWrite descLenAddr v).irq = s.irq

/-- Read-only places ignore writes (R19, R37, R55): STATUS, the result and error registers, the capacities, and every word
of the OUT_BUF window. -/
def Obligations.ReadOnlyPlacesIgnoreWrites : Prop :=
  ∀ (s : State) (v : Word),
    s.busWrite statusAddr v = s ∧
    (∀ o, 0x6 ≤ o → o ≤ 0xE → s.busWrite (BitVec.ofNat 20 o) v = s) ∧
    ∀ i, i < 2 ^ 18 → s.busWrite (outAddr i) v = s

/-- A buffer window (R50): index i below the capacity names BUF[i], which reads as its word where it has one (OUT_BUF while
not BUSY, R54); an index at or above it names no storage, reads 0 and ignores a write. An unspecified word (OUT_BUF while
BUSY, R167; a word nothing has written, R164, R168) reads as a free value, one draw for each read (the model's own form,
log entry 3): the stored OUT_BUF word is not shown while BUSY. -/
def Obligations.BufferWindows : Prop :=
  ∀ s : State, s.params.capacitiesOk = true →
    (∀ i v, i < s.params.inCap → s.mem.get? (inBase + i) = some v → s.busRead (inAddr i) = (v, s)) ∧
    (∀ i v, i < s.params.descCap → s.mem.get? (descBase + i) = some v → s.busRead (descAddr i) = (v, s)) ∧
    (∀ i v, i < s.params.outCap → s.status.state ≠ .busy → s.mem.get? (outBase + i) = some v →
      s.busRead (outAddr i) = (v, s)) ∧
    (∀ i, i < s.params.outCap → s.status.state = .busy →
      s.busRead (outAddr i) = (Config.freeWord s.draws, { s with draws := s.draws + 1 })) ∧
    (∀ i, i < s.params.inCap → s.mem.get? (inBase + i) = none →
      s.busRead (inAddr i) = (Config.freeWord s.draws, { s with draws := s.draws + 1 })) ∧
    (∀ i, i < s.params.descCap → s.mem.get? (descBase + i) = none →
      s.busRead (descAddr i) = (Config.freeWord s.draws, { s with draws := s.draws + 1 })) ∧
    (∀ i, i < s.params.outCap → s.mem.get? (outBase + i) = none →
      s.busRead (outAddr i) = (Config.freeWord s.draws, { s with draws := s.draws + 1 })) ∧
    (∀ i v, i < 2 ^ 18 → s.params.inCap ≤ i → s.busRead (inAddr i) = (0#32, s) ∧ s.busWrite (inAddr i) v = s) ∧
    (∀ i v, i < 2 ^ 18 → s.params.outCap ≤ i → s.busRead (outAddr i) = (0#32, s) ∧ s.busWrite (outAddr i) v = s) ∧
    ∀ i v, i < 2 ^ 18 → s.params.descCap ≤ i → s.busRead (descAddr i) = (0#32, s) ∧ s.busWrite (descAddr i) v = s

/-- A host write to IN_BUF[i] or DESC_BUF[i] stores all 32 bits: that address reads as the word, every other address of
the whole bus space reads as before, and every register keeps its value (R55). -/
def Obligations.BufferWritesStore : Prop :=
  ∀ (s : State) (v : Word), s.params.capacitiesOk = true → s.status.state ≠ .busy →
    (∀ i, i < s.params.inCap →
      ((s.busWrite (inAddr i) v).busRead (inAddr i)).1 = v ∧
      (∀ b, b ≠ inAddr i → ((s.busWrite (inAddr i) v).busRead b).1 = (s.busRead b).1) ∧
      s.busWrite (inAddr i) v = { s with mem := (s.busWrite (inAddr i) v).mem }) ∧
    ∀ i, i < s.params.descCap →
      ((s.busWrite (descAddr i) v).busRead (descAddr i)).1 = v ∧
      (∀ b, b ≠ descAddr i → ((s.busWrite (descAddr i) v).busRead b).1 = (s.busRead b).1) ∧
      s.busWrite (descAddr i) v = { s with mem := (s.busWrite (descAddr i) v).mem }

/-- A bus read changes nothing of the block (R54), and a read of a word that has a value gives the same when repeated.
(`draws` is the model's own count of unspecified values, log entry 3.) -/
def Obligations.ReadsHaveNoSideEffect : Prop :=
  ∀ (s : State) (a : Addr),
    (∃ d, (s.busRead a).2 = { s with draws := d }) ∧
    ((s.busRead a).2.draws = s.draws → (s.busRead a).2.busRead a = s.busRead a)

/-! ## The interrupt output, reset and the two agents -/

/-- The level `irq` (R44, R152): it is 1 exactly when IE = 1 and STATE is DONE or ERROR. So after a completion it is the IE
the command was started with, after an accepted START or CLR it is 0, and after any other accepted CTRL write it is 1
exactly when that write has IE = 1 and STATE is DONE or ERROR. -/
def Obligations.IrqFollowsCompletion : Prop :=
  (∀ s : State, s.irq = true ↔ s.ctrl.ie = true ∧ (s.status.state = .done ∨ s.status.state = .error)) ∧
  (∀ (i : Instr) (s t : State), exec i s = .next t → t.irq = i.ie) ∧
  ∀ (s : State) (v : Word), s.status.state ≠ .busy →
    (v.getLsbD 8 = true ∨ v.getLsbD 9 = true → (s.busWrite ctrlAddr v).irq = false) ∧
    (v.getLsbD 8 = false → v.getLsbD 9 = false →
      ((s.busWrite ctrlAddr v).irq = true ↔
        v.getLsbD 16 = true ∧ (s.status.state = .done ∨ s.status.state = .error)))

/-- Reset (R45, R163): one step that puts every register at the value of R18's table, makes `irq` 0 and every buffer word
unspecified, keeps the parameters, and abandons a BUSY command. -/
def Obligations.ResetPutsEveryRegisterBack : Prop :=
  ∀ s : State, s.params.capacitiesOk = true → s.mover = .rst →
    ∃ t, step s = .next t ∧ t.params = s.params ∧ t.irq = false ∧ (∀ a, t.mem.get? a = none) ∧
      ((List.range 15).map fun o => ((t.busRead (BitVec.ofNat 20 o)).1.toNat)) =
        [0, 0, 0x000A0800, 0x20, 0, 0, 0, 0, 0, 0, 0, 0, s.params.inCap, s.params.outCap, s.params.descCap]

/-- STATE changes only by reset, by the completion of a BUSY engine, and by an accepted CTRL write with START or CLR
(R27). -/
def Obligations.OnlyFourEventsChangeState : Prop :=
  ∀ s t : State, step s = .next t → t.status.state ≠ s.status.state →
    s.mover = .rst ∨
    (s.mover = .engine ∧ s.status.state = .busy ∧ (t.status.state = .done ∨ t.status.state = .error)) ∨
    (s.mover = .host ∧ s.status.state ≠ .busy ∧ ∃ v rest, s.program = .write ctrlAddr v :: rest ∧
      ((v.getLsbD 8 = true ∧ t.status.state = .busy) ∨
        (v.getLsbD 8 = false ∧ v.getLsbD 9 = true ∧ t.status.state = .idle)))

/-- The ROM is never modified, so every lookup answers the same at every step (R64); nor is any other parameter. -/
def Obligations.RomIsNeverModified : Prop :=
  ∀ s t : State, step s = .next t →
    t.params = s.params ∧ (∀ c, symIdx? t.params.rom c = symIdx? s.params.rom c) ∧
      ∀ c, padIdx? t.params.rom c = padIdx? s.params.rom c

/-- A step of the host performs the next operation of its program (R58, R79), strikes the operation and the turn off, and
records the transaction. A write is BusWrite and nothing more, whatever its address; where it writes a command word to CTRL
and the engine is not BUSY, that is the START of the command (R147). A read records the value of BusRead and changes
nothing of the block (R54; `draws` is the model's own count, log entry 3). -/
def Obligations.StepStartsTheWrittenCommand : Prop :=
  ∀ (s : State) (rest : List HostOp), s.mover = .host →
    (∀ (a : Addr) (v : Word), s.program = .write a v :: rest →
      step s = .next { s.busWrite a v with program := rest, sched := s.sched.tail, trace := .wrote a v :: s.trace }) ∧
    (∀ (w : Word) (i : Instr), s.program = .write ctrlAddr w :: rest → s.status.state ≠ .busy → decode w = .ok i →
      step s = .next (({ s with program := rest, sched := s.sched.tail }.started i).logged (.wrote ctrlAddr w))) ∧
    ∀ a : Addr, s.program = .read a :: rest →
      ∃ d, step s =
        .next { s with
          draws := d
          program := rest
          sched := s.sched.tail
          trace := .gave a (s.busRead a).1 :: s.trace }

/-- A step runs the decoded command: when a BUSY engine moves, and its command register with START set decodes to i, the
step is `exec i` after the turn is struck off the schedule (R148). That a completion is `exec` of the pending command with
its START included, on a BUSY state that no START made too, is the model's own choice (log entry 1). -/
def Obligations.StepRunsThePendingCommand : Prop :=
  ∀ (s : State) (i : Instr), s.status.state = .busy → s.mover = .engine → decode (0x100#32 ||| s.ctrl.word) = .ok i →
    step s = exec i { s with sched := s.sched.tail }

/-- A command word placed with `withFetchWord` is what the very next step runs (the model's own loading, log entry 9). -/
def Obligations.FetchedWordRunsNext : Prop :=
  ∀ (s : State) (w : Word) (i : Instr), decode w = .ok i →
    step (s.withFetchWord 32 w.toNat) = exec i (s.withFetchWord 32 w.toNat).ticked

/-- `exec i` is the command from START to completion: running it on a state that has accepted the command's word is
running it on the state before (log entry 1: R147 then R148 with no bus access between). -/
def Obligations.ExecIsStartThenCompletion : Prop :=
  ∀ (s : State) (w : Word) (i : Instr), s.status.state ≠ .busy → decode w = .ok i →
    exec i (s.busWrite ctrlAddr w) = exec i s

/-- No step stops. That nothing of the machine faults or is refused is the model's reading (log entry 16), deduced from
the rules by which no bus access faults (R57, R155) and every error is a completion with STATE = ERROR (R137, R150,
R160). -/
def Obligations.NoStepStops : Prop :=
  ∀ s : State, ∃ t, step s = .next t

/-- One turn of WAIT: it reads STATUS, records the read, and goes on exactly when the value says DONE or ERROR; otherwise
the operation stays in place. The loop until the value & 3 is 2 or 3 is R79's; that WAIT is one operation of the host's
program, one read a turn, is the model's own shape (log entry 12). -/
def Obligations.WaitPollsStatus : Prop :=
  ∀ (s : State) (rest : List HostOp), s.mover = .host → s.program = .wait :: rest →
    ∃ t, step s = .next t ∧ t.trace = .gave statusAddr (s.busRead statusAddr).1 :: s.trace ∧
      t.program = (if (s.busRead statusAddr).1.toNat % 4 = 2 ∨ (s.busRead statusAddr).1.toNat % 4 = 3 then rest
        else .wait :: rest) ∧ t.status = s.status ∧ t.mem = s.mem

/-- Polling terminates (R178): a WAIT that a BUSY engine finds the host at is over after finitely many steps, however the
schedule interleaves the agents, as long as it holds no reset. That a BUSY engine completes once the schedule is used up,
and with it the bound on the steps, is the model's own choice (log entry 2), and so is the shape of WAIT, one read of STATUS
a turn (log entry 12). -/
def Obligations.PollingTerminates : Prop :=
  ∀ (s : State) (rest : List HostOp), s.status.state = .busy → s.program = .wait :: rest → .rst ∉ s.sched →
    ∃ n t, n ≤ s.sched.length + 2 ∧ Host.Core.run Sys2Proof.core n s = .next t ∧ t.program = rest ∧
      (t.status.state = .done ∨ t.status.state = .error)

/-- The inputs of a running command are stable (R59): however many host operations come between START and the completion,
the command that completes is the same, and so is all it leaves but the host's own program and record and the count of
draws. The elements the command reads are taken as written since reset: an unwritten word is a free value at each read (log
entry 4). -/
def Obligations.OperandsAreStableWhileBusy : Prop :=
  ∀ (s : State) (n : Nat), s.status.state = .busy → s.operandsWritten s.pending →
    (State.hostMove^[n] s).pending = s.pending ∧
    ∃ t d p h, exec s.pending s = .next t ∧
      exec s.pending (State.hostMove^[n] s) = .next { t with draws := d, program := p, trace := h }

/-! ## Completion in general (spec/60_exceptions.md) -/

/-- Every command completes, with DONE or with ERROR (R148 to R150). It never changes CONFIG, WRAP, IN_LEN, DESC_LEN, a
word outside OUT_BUF, or the parameters; after ERROR the result registers are 0 and no word of OUT_BUF is specified, and
after DONE the error registers are 0 (R146). -/
def Obligations.EveryCommandCompletes : Prop :=
  ∀ (i : Instr) (s : State), s.params.capacitiesOk = true →
    ∃ t, exec i s = .next t ∧ SameOperands s t ∧ t.ctrl = ⟨i.code, i.ie⟩ ∧
      ((t.status.state = .done ∧ t.status.err = none ∧ t.errInfo = 0#32 ∧ t.errIndex = 0#19 ∧
          t.outLen.toNat ≤ s.params.outCap ∧
          ∀ k, k < s.params.outCap → ((t.mem.get? (outBase + k)).isSome = true ↔ k < t.outLen.toNat)) ∨
        (t.status.state = .error ∧ t.status.err ≠ none ∧ t.status.armorMatch = false ∧ t.outLen = 0#19 ∧
          t.trRem = 0#31 ∧ t.trBits = 0#5 ∧ t.decPad = 0#4 ∧
          ∀ k, k < s.params.outCap → t.mem.get? (outBase + k) = none))

/-- Re-issuing a command with the same operands gives the same error (R146). The elements the command reads are taken as
written since reset (log entry 4). -/
def Obligations.RetryGivesTheSameError : Prop :=
  ∀ (i : Instr) (s t : State), s.params.capacitiesOk = true → s.operandsWritten i → exec i s = .next t →
    t.status.state = .error →
      ∃ u, exec i t = .next u ∧ u.status = t.status ∧ u.errInfo = t.errInfo ∧ u.errIndex = t.errIndex

/-- A register field a command ignores has no effect on it (R76): with other values of CONFIG, WRAP and DESC_LEN that agree
on the fields the table of R76 marks as read, the command leaves the same state but for those registers themselves (and
the model's count of draws, log entry 3). -/
def Obligations.IgnoredFieldsHaveNoEffect : Prop :=
  ∀ (i : Instr) (s : State) (c : ConfigReg) (w : BitVec 16) (d : BitVec 19),
    (match i with
      | .nop _ => True
      | .transpose _ => c.trM = s.config.trM ∧ c.trN = s.config.trN
      | .encode _ => c.armor = s.config.armor ∧ w = s.wrap ∧
          (s.config.armor = true → c.descPresent = s.config.descPresent ∧ d = s.descLen)
      | .decode _ => c.ignoreGarbage = s.config.ignoreGarbage ∧ c.fmt = s.config.fmt
      | .wrap _ => w = s.wrap
      | .armor _ => c.descPresent = s.config.descPresent ∧ d = s.descLen ∧ w = s.wrap
      | .dearmor _ => True
      | .illegal7 _ => True
      | .illegalHigh _ _ => True) →
      ∃ t k, exec i s = .next t ∧
        exec i { s with config := c, wrap := w, descLen := d } =
          .next { t with config := c, wrap := w, descLen := d, draws := k }

/-- NOP (R151): DONE with an empty result and no check, whatever IN_LEN and DESC_LEN are; STATUS then reads 2. -/
def Obligations.NopCompletes : Prop :=
  ∀ (s : State) (ie : Bool), s.params.capacitiesOk = true →
    ∃ t, exec (.nop ie) s = .next t ∧ CompletesDone (.nop ie) s t { out := [] } ∧ (t.busRead statusAddr).1 = 2#32

/-- The reserved codes (R71, R140): ERROR with ILLEGAL_CMD and ERR_INFO = the code, before any other check. -/
def Obligations.ReservedCodesFail : Prop :=
  (∀ (s : State) (ie : Bool),
    ∃ t, exec (.illegal7 ie) s = .next t ∧ CompletesError (.illegal7 ie) s t ⟨.illegalCmd, 7, 0⟩) ∧
  ∀ (s : State) (code : BitVec 4) (ie : Bool),
    ∃ t, exec (.illegalHigh code ie) s = .next t ∧
      CompletesError (.illegalHigh code ie) s t ⟨.illegalCmd, code.toNat, 0⟩

/-- LENGTH (R143): IN_LEN above IN_CAP fails every command that reads IN_BUF, first; then DESC_LEN above DESC_CAP with
DESC_PRESENT = 1 fails ARMOR, and ENCODE with ARMOR = 1. -/
def Obligations.LengthErrors : Prop :=
  ∀ (s : State) (ie : Bool), s.params.capacitiesOk = true →
    (s.params.inCap < s.inLen.toNat →
      ∀ i, i = .transpose ie ∨ i = .encode ie ∨ i = .decode ie ∨ i = .wrap ie ∨ i = .armor ie ∨ i = .dearmor ie →
        ∃ t, exec i s = .next t ∧ CompletesError i s t ⟨.length, s.inLen.toNat, 0⟩) ∧
    (s.inLen.toNat ≤ s.params.inCap → s.config.descPresent = true → s.params.descCap < s.descLen.toNat →
      ∀ i, i = .armor ie ∨ (i = .encode ie ∧ s.config.armor = true) →
        ∃ t, exec i s = .next t ∧ CompletesError i s t ⟨.length, s.descLen.toNat, 1⟩)

/-! ## The transposer (spec/40_transposer.md) -/

/-- The loop of R85 computes exactly the function of R82 and R83, for every pair of widths. -/
def Obligations.LoopIsTheSlices : Prop :=
  ∀ (m n : Nat) (xs : List Nat), 1 ≤ m → 1 ≤ n → (∀ x ∈ xs, x < 2 ^ m) →
    transpose m n xs = transposeBySlices m n xs

/-- No bit is invented or dropped (R84): the groups' bits and the real bits of the remainder are the input stream, and the
filler bits are 0. -/
def Obligations.TransposeKeepsEveryBit : Prop :=
  ∀ (m n : Nat) (xs : List Nat), 1 ≤ m → 1 ≤ n → (∀ x ∈ xs, x < 2 ^ m) →
    bitStream n (transpose m n xs).groups ++
        (bitsOf n (transpose m n xs).remainder).take (transpose m n xs).bitsRemaining = bitStream m xs ∧
      (transpose m n xs).remainder % 2 ^ (n - (transpose m n xs).bitsRemaining) = 0 ∧
      (transpose m n xs).groups.length * n + (transpose m n xs).bitsRemaining = m * xs.length

/-- The counts and the bounds of a transposition (R86): how many groups and how many bits are left, and that every
output fits its width. -/
def Obligations.TransposeCounts : Prop :=
  ∀ (m n : Nat) (xs : List Nat), 1 ≤ m → 1 ≤ n → (∀ x ∈ xs, x < 2 ^ m) →
    (transpose m n xs).groups.length = m * xs.length / n ∧
      (transpose m n xs).bitsRemaining = m * xs.length % n ∧
      (∀ g ∈ (transpose m n xs).groups, g < 2 ^ n) ∧ (transpose m n xs).remainder < 2 ^ n

/-- Equal widths copy the input, and an empty input gives nothing (R89 (a), (b)). -/
def Obligations.TransposeCorners : Prop :=
  (∀ m n, 1 ≤ m → 1 ≤ n → transpose m n [] = ⟨[], 0, 0⟩) ∧
  ∀ (m : Nat) (xs : List Nat), 1 ≤ m → (∀ x ∈ xs, x < 2 ^ m) → transpose m m xs = ⟨xs, 0, 0⟩

/-- TRANSPOSE completes (R90): with its length and widths legal, every element in range and the groups fitting OUT_CAP, it
ends in DONE with the groups in OUT_BUF and the part group in TR_REM and TR_BITS. -/
def Obligations.TransposeCompletes : Prop :=
  ∀ (s : State) (ie : Bool), s.params.capacitiesOk = true → s.inLen.toNat ≤ s.params.inCap →
    1 ≤ s.config.trM.toNat → 1 ≤ s.config.trN.toNat → (∀ v ∈ s.input, v.toNat < 2 ^ s.config.trM.toNat) →
    s.config.trM.toNat * s.inLen.toNat / s.config.trN.toNat ≤ s.params.outCap →
      ∃ t, exec (.transpose ie) s = .next t ∧
        CompletesDone (.transpose ie) s t
          { out := ((transposeBySlices s.config.trM.toNat s.config.trN.toNat
                (s.input.map BitVec.toNat)).groups).map (BitVec.ofNat 32)
            trRem := (transposeBySlices s.config.trM.toNat s.config.trN.toNat (s.input.map BitVec.toNat)).remainder
            trBits := s.config.trM.toNat * s.inLen.toNat % s.config.trN.toNat }

/-- TRANSPOSE fails (R90, R91, R141, R142, R144), in the order of R145 after LENGTH: a width of 0; the first element that
has more than m bits; more groups than OUT_CAP. -/
def Obligations.TransposeFails : Prop :=
  ∀ (s : State) (ie : Bool), s.params.capacitiesOk = true → s.inLen.toNat ≤ s.params.inCap →
    (s.config.trM.toNat = 0 ∨ s.config.trN.toNat = 0 →
      ∃ t, exec (.transpose ie) s = .next t ∧
        CompletesError (.transpose ie) s t ⟨.badWidth, s.config.trM.toNat + 256 * s.config.trN.toNat, 0⟩) ∧
    (1 ≤ s.config.trM.toNat → 1 ≤ s.config.trN.toNat →
      (∀ k v, s.input[k]? = some v → 2 ^ s.config.trM.toNat ≤ v.toNat →
        (∀ j u, j < k → s.input[j]? = some u → u.toNat < 2 ^ s.config.trM.toNat) →
          ∃ t, exec (.transpose ie) s = .next t ∧ CompletesError (.transpose ie) s t ⟨.valueRange, v.toNat, k⟩) ∧
      ((∀ v ∈ s.input, v.toNat < 2 ^ s.config.trM.toNat) →
        s.params.outCap < s.config.trM.toNat * s.inLen.toNat / s.config.trN.toNat →
          ∃ t, exec (.transpose ie) s = .next t ∧
            CompletesError (.transpose ie) s t
              ⟨.outOverflow, s.config.trM.toNat * s.inLen.toNat / s.config.trN.toNat, 0⟩))

/-! ## The framer (spec/42_framer.md) -/

/-- The wrap laws (R106): ceil(N/W) lines joined by LF, each of exactly W characters but the last, no LF at either end, and
the length. -/
def Obligations.WrapLaws : Prop :=
  (∀ w, wrapLines [] w = []) ∧
  ∀ (s : List Word) (w : Nat), 0 < w → s ≠ [] → lf ∉ s →
    ∃ lines : List (List Word),
      lines.length = (s.length + w - 1) / w ∧ wrapLines s w = [lf].intercalate lines ∧ lines.flatten = s ∧
      (∀ l ∈ lines.dropLast, l.length = w) ∧
      (∀ l, lines.getLast? = some l → l.length = s.length - w * ((s.length + w - 1) / w - 1)) ∧
      (wrapLines s w).head? ≠ some lf ∧ (wrapLines s w).getLast? ≠ some lf ∧
      (wrapLines s w).length = s.length + (s.length + w - 1) / w - 1

/-- WRAP completes (R121): element j of the output is LF where j + 1 is a multiple of W + 1, and the input element
`j - j / (W + 1)` elsewhere; W = 0 copies the input. Any word is a character, an LF in the input included (R107 (b)). -/
def Obligations.WrapCompletes : Prop :=
  ∀ (s : State) (ie : Bool) (len : Nat), s.params.capacitiesOk = true → s.inLen.toNat ≤ s.params.inCap →
    len = (if s.wrap.toNat = 0 ∨ s.inLen.toNat = 0 then s.inLen.toNat
      else s.inLen.toNat + (s.inLen.toNat + s.wrap.toNat - 1) / s.wrap.toNat - 1) →
    (len ≤ s.params.outCap →
      ∃ t out, exec (.wrap ie) s = .next t ∧ CompletesDone (.wrap ie) s t { out := out } ∧ out.length = len ∧
        ∀ j, j < len → out[j]? =
          if s.wrap.toNat = 0 then s.input[j]?
          else if (j + 1) % (s.wrap.toNat + 1) = 0 then some lf else s.input[j - j / (s.wrap.toNat + 1)]?) ∧
    (s.params.outCap < len →
      ∃ t, exec (.wrap ie) s = .next t ∧ CompletesError (.wrap ie) s t ⟨.outOverflow, len, 0⟩)

/-- The armor laws (R113): from W = 1 on, header and footer are exactly W wide with the same margins; from W = 6 on the
left margin is at least 2, below it the descriptor is empty; at W = 0 the lines are one marker each. -/
def Obligations.ArmorLaws : Prop :=
  ∀ (r : Rom) (desc : List Word) (w : Nat),
    let d := desc.take (descBound w)
    let l := (w - d.length - 1) / 2
    let rp := l + (w - d.length - 1) % 2
    (1 ≤ w → centred r.mark (d ++ [r.begin]) w = List.replicate l r.mark ++ d ++ [r.begin] ++ List.replicate rp r.mark ∧
      centred r.mark (d ++ [r.fin]) w = List.replicate l r.mark ++ d ++ [r.fin] ++ List.replicate rp r.mark ∧
      l + d.length + 1 + rp = w) ∧
    (6 ≤ w → 2 ≤ l) ∧ (w ≤ 5 → d = []) ∧
    (w = 0 → centred r.mark (d ++ [r.begin]) w = [r.begin] ∧ centred r.mark (d ++ [r.fin]) w = [r.fin])

/-- ARMOR completes (R108 to R112, R114, R122): header line, LF, wrapped body, LF, footer line, with the first
`max(0, floor(W/2) - 2)` characters of the chosen descriptor, each line centred; or it raises OUT_OVERFLOW. -/
def Obligations.ArmorCompletes : Prop :=
  ∀ (s : State) (ie : Bool) (d header footer out : List Word), s.params.capacitiesOk = true →
    s.inLen.toNat ≤ s.params.inCap → (s.config.descPresent = true → s.descLen.toNat ≤ s.params.descCap) →
    d = (if s.config.descPresent then s.descriptor else s.params.rom.defaultDesc).take (s.wrap.toNat / 2 - 2) →
    header = List.replicate ((s.wrap.toNat - d.length - 1) / 2) s.params.rom.mark ++ d ++ [s.params.rom.begin] ++
      List.replicate ((s.wrap.toNat - d.length) / 2) s.params.rom.mark →
    footer = List.replicate ((s.wrap.toNat - d.length - 1) / 2) s.params.rom.mark ++ d ++ [s.params.rom.fin] ++
      List.replicate ((s.wrap.toNat - d.length) / 2) s.params.rom.mark →
    out = header ++ [lf] ++ wrapLines s.input s.wrap.toNat ++ [lf] ++ footer →
    (out.length ≤ s.params.outCap →
      ∃ t, exec (.armor ie) s = .next t ∧ CompletesDone (.armor ie) s t { out := out }) ∧
    (s.params.outCap < out.length →
      ∃ t, exec (.armor ie) s = .next t ∧ CompletesError (.armor ie) s t ⟨.outOverflow, out.length, 0⟩)

/-- The computable test of R116 is the pattern: the dearmorer matches exactly the lists of that form, and its region is
then the body (R115, R117); otherwise it is the whole list (R118). -/
def Obligations.DearmorMatchesThePattern : Prop :=
  ∀ (r : Rom) (trim t : List Word), r.wellFormed trim = true →
    ((dearmor r t).matched = true ↔ ∃ body, IsEnvelope r t body) ∧
    (∀ body, IsEnvelope r t body → slice t (dearmor r t).lo (dearmor r t).hi = body) ∧
    ((dearmor r t).matched = false → slice t (dearmor r t).lo (dearmor r t).hi = t)

/-- Trim (R125): it removes exactly the leading and the trailing TRIM_SET characters. -/
def Obligations.TrimLaws : Prop :=
  ∀ trim raw : List Word,
    ∃ pre post, raw = pre ++ trimmed trim raw ++ post ∧ pre.length = (trimBounds trim raw).1 ∧
      (trimmed trim raw).length = (trimBounds trim raw).2 - (trimBounds trim raw).1 ∧
      (∀ c ∈ pre, c ∈ trim) ∧ (∀ c ∈ post, c ∈ trim) ∧
      (∀ c, (trimmed trim raw).head? = some c → c ∉ trim) ∧ ∀ c, (trimmed trim raw).getLast? = some c → c ∉ trim

/-- DEARMOR completes (R123): on a trimmed input of the form of R116 the output is its body without LF and ARMOR_MATCH is
1; on any other it is the whole trimmed input without LF and ARMOR_MATCH is 0; or it raises OUT_OVERFLOW. -/
def Obligations.DearmorCompletes : Prop :=
  ∀ (s : State) (ie : Bool) (body : List Word) (seen : Bool), s.params.wellFormed = true →
    s.inLen.toNat ≤ s.params.inCap →
    (seen = true ∧ IsEnvelope s.params.rom (trimmed s.params.trimSet s.input) body) ∨
      (seen = false ∧ body = trimmed s.params.trimSet s.input ∧
        ¬ ∃ b, IsEnvelope s.params.rom (trimmed s.params.trimSet s.input) b) →
    ((body.filter (· != lf)).length ≤ s.params.outCap →
      ∃ t, exec (.dearmor ie) s = .next t ∧
        CompletesDone (.dearmor ie) s t { out := body.filter (· != lf), armorMatch := seen }) ∧
    (s.params.outCap < (body.filter (· != lf)).length →
      ∃ t, exec (.dearmor ie) s = .next t ∧
        CompletesError (.dearmor ie) s t ⟨.outOverflow, (body.filter (· != lf)).length, 0⟩)

/-- Dearmoring undoes armoring (R119): for a flat string and a descriptor with no LF and any W, the envelope matches and
its flat body is the string; and trimming leaves the envelope as it is. -/
def Obligations.DearmorInvertsArmor : Prop :=
  ∀ (r : Rom) (trim flat desc : List Word) (w : Nat), r.wellFormed trim = true → lf ∉ flat → lf ∉ desc →
    (dearmor r (armorText r flat desc w)).matched = true ∧
      flatBody (armorText r flat desc w) (dearmor r (armorText r flat desc w)) = flat ∧
      trimmed trim (armorText r flat desc w) = armorText r flat desc w

/-! ## The encoder (spec/41_encoder.md) -/

/-- The padding marker by the length (R99): none after a multiple of 5 bytes, PAD[2], PAD[4], PAD[6], PAD[8] after 1, 2, 3, 4
more. -/
def Obligations.PaddingSelection : Prop :=
  ∀ (r : Rom) (bs : List Nat), (∀ b ∈ bs, b < 256) →
    (bs.length % 5 = 0 → flatString r (transpose 8 10 bs) = (transpose 8 10 bs).groups.map (symAt r)) ∧
    (bs.length % 5 = 1 → (flatString r (transpose 8 10 bs)).getLast? = some r.pad2) ∧
    (bs.length % 5 = 2 → (flatString r (transpose 8 10 bs)).getLast? = some r.pad4) ∧
    (bs.length % 5 = 3 → (flatString r (transpose 8 10 bs)).getLast? = some r.pad6) ∧
    (bs.length % 5 = 4 → (flatString r (transpose 8 10 bs)).getLast? = some r.pad8)

/-- The length laws of the encoder (R98). -/
def Obligations.EncodeLengths : Prop :=
  ∀ (r : Rom) (bs : List Nat) (desc : List Word) (w n : Nat), bs ≠ [] → (∀ b ∈ bs, b < 256) →
    n = 4 * bs.length / 5 + (if 8 * bs.length % 10 > 0 then 2 else 0) →
    (codesOf (transpose 8 10 bs)).length = (8 * bs.length + 9) / 10 ∧
      (flatString r (transpose 8 10 bs)).length = n ∧
      (encodeBytes r bs false desc 0).out.length = n ∧
      (0 < w → (encodeBytes r bs false desc w).out.length = n + (n + w - 1) / w - 1) ∧
      (encodeBytes r bs true desc w).out.length =
        (if w = 0 then 1 else w) + 1 + (wrapLines (flatString r (transpose 8 10 bs)) w).length + 1 +
          (if w = 0 then 1 else w)

/-- ENCODE completes (R92 to R97, R103): an empty input gives an empty output under every option; otherwise the 10-bit
groups of the bytes become symbols, the part group one more with its padding marker, and the flat string is armored if
ARMOR = 1, else wrapped; or it raises OUT_OVERFLOW. -/
def Obligations.EncodeCompletes : Prop :=
  ∀ (s : State) (ie : Bool) (flat out : List Word) (t8 : Transposed), s.params.capacitiesOk = true →
    s.inLen.toNat ≤ s.params.inCap →
    (s.config.armor = true → s.config.descPresent = true → s.descLen.toNat ≤ s.params.descCap) →
    (∀ v ∈ s.input, v.toNat < 256) →
    t8 = transposeBySlices 8 10 (s.input.map BitVec.toNat) →
    flat = t8.groups.map (symAt s.params.rom) ++
      (if t8.bitsRemaining > 0 then [symAt s.params.rom t8.remainder, padAt s.params.rom (10 - t8.bitsRemaining)]
        else []) →
    out = (if s.inLen.toNat = 0 then []
      else if s.config.armor then armorText s.params.rom flat s.selectDesc s.wrap.toNat
      else wrapLines flat s.wrap.toNat) →
    (out.length ≤ s.params.outCap →
      ∃ t, exec (.encode ie) s = .next t ∧
        CompletesDone (.encode ie) s t { out := out, trRem := t8.remainder, trBits := t8.bitsRemaining }) ∧
    (s.params.outCap < out.length →
      ∃ t, exec (.encode ie) s = .next t ∧ CompletesError (.encode ie) s t ⟨.outOverflow, out.length, 0⟩)

/-- ENCODE refuses the first element that is not a byte, with its value and its index (R104). -/
def Obligations.EncodeRefusesNonBytes : Prop :=
  ∀ (s : State) (ie : Bool) (k : Nat) (v : Word), s.params.capacitiesOk = true → s.inLen.toNat ≤ s.params.inCap →
    (s.config.armor = true → s.config.descPresent = true → s.descLen.toNat ≤ s.params.descCap) →
    s.input[k]? = some v → 256 ≤ v.toNat → (∀ j u, j < k → s.input[j]? = some u → u.toNat < 256) →
      ∃ t, exec (.encode ie) s = .next t ∧ CompletesError (.encode ie) s t ⟨.valueRange, v.toNat, k⟩

/-! ## The decoder (spec/43_decoder.md) -/

/-- P is the flat body with each character's position (R127): the positions are those of the body region, from s + lo up to,
not including, s + hi, whose character in the raw input is not LF, in order; each character is the one that stands in the
raw input at its position; and the characters are the flat body of R117 and R118. -/
def Obligations.FlatSequenceIsPlaced : Prop :=
  ∀ (p : Params) (raw t : List Word) (g : Region) (lo : Nat), t = trimmed p.trimSet raw → g = dearmor p.rom t →
    lo = (trimBounds p.trimSet raw).1 + g.lo →
      (flatPlaced p raw).1.map Placed.pos =
          (List.range' lo (g.hi - g.lo)).filter (fun i => decide (raw[i]? ≠ some lf)) ∧
        (∀ q ∈ (flatPlaced p raw).1, lo ≤ q.pos ∧ q.pos < (trimBounds p.trimSet raw).1 + g.hi) ∧
        (∀ q ∈ (flatPlaced p raw).1, raw[q.pos]? = some q.char) ∧
        (flatPlaced p raw).1.map Placed.char = flatBody t g ∧
        (flatPlaced p raw).2 = g.matched ∧
        (flatPlaced p raw).1.Pairwise fun a b => a.pos < b.pos

/-- DECODE completes (R126 to R133, R136). Step 3 looks at the last flat character only (R128): a padding marker gives its
index and is removed, otherwise the padding index is 0 and nothing is removed, so that garbage after a marker keeps the
marker (R170). With a valid FMT, and every character left after step 3 in the alphabet or IGNORE_GARBAGE = 1, the command
ends in DONE with the 8-bit groups of the codes, less the artifact byte when the padding index is 8. -/
def Obligations.DecodeCompletes : Prop :=
  ∀ (s : State) (ie : Bool) (ps : List Placed) (pad : Nat) (codes bytes : List Nat) (t10 : Transposed),
    s.params.capacitiesOk = true → s.inLen.toNat ≤ s.params.inCap → s.config.fmt.toNat ≤ 1 →
    ((∃ l, (flatPlaced s.params s.input).1 = ps ++ [l] ∧ padIdx? s.params.rom l.char = some pad) ∨
      (pad = 0 ∧ ps = (flatPlaced s.params s.input).1 ∧
        ∀ l, (flatPlaced s.params s.input).1.getLast? = some l → l.char ∉ s.params.rom.padSet)) →
    (s.config.ignoreGarbage = true ∨ ∀ q ∈ ps, q.char ∈ s.params.rom.sym.toList) →
    codes = ps.filterMap (fun q => symIdx? s.params.rom q.char) →
    t10 = transposeBySlices 10 8 codes →
    bytes = (if pad = 8 then t10.groups.dropLast else t10.groups) →
    (bytes.length ≤ s.params.outCap →
      ∃ t, exec (.decode ie) s = .next t ∧
        CompletesDone (.decode ie) s t
          { out := bytes.map (BitVec.ofNat 32), trRem := t10.remainder, trBits := t10.bitsRemaining, decPad := pad,
            armorMatch := (flatPlaced s.params s.input).2 }) ∧
    (s.params.outCap < bytes.length →
      ∃ t, exec (.decode ie) s = .next t ∧ CompletesError (.decode ie) s t ⟨.outOverflow, bytes.length, 0⟩)

/-- DECODE of a plain alphabet string (R128, R131 to R133, R170, R174): codes below 1024 as symbols, then at most one
padding marker. As they stand they decode without error whatever IGNORE_GARBAGE is, no envelope is seen, and the leftover
bits are dropped. With IGNORE_GARBAGE = 1 and garbage after them (no LF in it, its last character neither a padding marker
nor in TRIM_SET), the marker is dropped as garbage too: DEC_PAD is 0 and no byte is taken off. -/
def Obligations.DecodeOfAlphabetString : Prop :=
  ∀ (s : State) (ie : Bool) (codes : List Nat) (k : Nat) (text : List Word), s.params.wellFormed = true →
    s.inLen.toNat ≤ s.params.inCap → s.config.fmt.toNat ≤ 1 → (∀ c ∈ codes, c < 1024) → k ∈ [0, 2, 4, 6, 8] →
    text = codes.map (symAt s.params.rom) ++ (if k = 0 then [] else [padAt s.params.rom k]) →
    (s.input = text → 5 * codes.length / 4 - (if k = 8 then 1 else 0) ≤ s.params.outCap →
      ∃ t, exec (.decode ie) s = .next t ∧
        CompletesDone (.decode ie) s t
          { out := (if k = 8 then (transposeBySlices 10 8 codes).groups.dropLast
              else (transposeBySlices 10 8 codes).groups).map (BitVec.ofNat 32)
            trRem := (transposeBySlices 10 8 codes).remainder
            trBits := 10 * codes.length % 8
            decPad := k
            armorMatch := false }) ∧
    ∀ (junk : List Word) (x : Word), s.config.ignoreGarbage = true → s.input = text ++ junk ++ [x] →
      (∀ c ∈ junk ++ [x], c ≠ lf ∧ c ∉ s.params.rom.sym.toList) → x ∉ s.params.rom.padSet → x ∉ s.params.trimSet →
      5 * codes.length / 4 ≤ s.params.outCap →
        ∃ t, exec (.decode ie) s = .next t ∧
          CompletesDone (.decode ie) s t
            { out := (transposeBySlices 10 8 codes).groups.map (BitVec.ofNat 32)
              trRem := (transposeBySlices 10 8 codes).remainder
              trBits := 10 * codes.length % 8
              decPad := 0
              armorMatch := false }

/-- INVALID_SYMBOL (R130, R138): with IGNORE_GARBAGE = 0 the first character left after step 3 that is not in SYM fails the
command, whatever FMT is (R145), with its value and its position in IN_BUF. Step 3 takes off the last flat character if it
is a padding marker, and nothing otherwise (R128). -/
def Obligations.DecodeRefusesInvalidSymbols : Prop :=
  ∀ (s : State) (ie : Bool) (pre post : List Placed) (q : Placed), s.params.capacitiesOk = true →
    s.inLen.toNat ≤ s.params.inCap → s.config.ignoreGarbage = false →
    ((∃ l, (flatPlaced s.params s.input).1 = pre ++ q :: post ++ [l] ∧ l.char ∈ s.params.rom.padSet) ∨
      ((flatPlaced s.params s.input).1 = pre ++ q :: post ∧
        ∀ l, (q :: post).getLast? = some l → l.char ∉ s.params.rom.padSet)) →
    (∀ x ∈ pre, x.char ∈ s.params.rom.sym.toList) → q.char ∉ s.params.rom.sym.toList →
      ∃ t, exec (.decode ie) s = .next t ∧
        CompletesError (.decode ie) s t ⟨.invalidSymbol, q.char.toNat, q.pos⟩ ∧ s.input[q.pos]? = some q.char

/-- INVALID_FORMAT (R133, R134, R139): with FMT 2 or 3 and no invalid symbol, an empty input included, DECODE fails. No
symbol is invalid when IGNORE_GARBAGE = 1 or every flat character is in SYM, a padding marker in the last place apart
(R128, R130). -/
def Obligations.DecodeRefusesInvalidFormats : Prop :=
  ∀ (s : State) (ie : Bool), s.params.capacitiesOk = true → s.inLen.toNat ≤ s.params.inCap →
    2 ≤ s.config.fmt.toNat →
    (s.config.ignoreGarbage = true ∨
      (∀ q ∈ (flatPlaced s.params s.input).1, q.char ∈ s.params.rom.sym.toList) ∨
      ∃ ps l, (flatPlaced s.params s.input).1 = ps ++ [l] ∧ l.char ∈ s.params.rom.padSet ∧
        ∀ q ∈ ps, q.char ∈ s.params.rom.sym.toList) →
      ∃ t, exec (.decode ie) s = .next t ∧ CompletesError (.decode ie) s t ⟨.invalidFormat, s.config.fmt.toNat, 0⟩

/-- 'string' and 'binary' give the same words (R133, R173): DECODE with FMT 0 and with FMT 1 leave the same state but for
FMT itself. -/
def Obligations.StringAndBinaryAgree : Prop :=
  ∀ (s : State) (ie : Bool) (t : State), exec (.decode ie) { s with config := { s.config with fmt := 0#2 } } = .next t →
    exec (.decode ie) { s with config := { s.config with fmt := 1#2 } } =
      .next { t with config := { t.config with fmt := 1#2 } }

/-- The round trip (R101): what ENCODE leaves in OUT_BUF, put into IN_BUF of the same block, DECODE with FMT 0 or 1 and
IGNORE_GARBAGE = 0 turns back into the bytes, wrapped or not, armored or not, when the descriptor holds no LF and the
capacities suffice; ARMOR_MATCH then tells whether an envelope was there. -/
def Obligations.DecodeInvertsEncode : Prop :=
  ∀ (s t s' : State) (ie ie' : Bool), s.params.wellFormed = true →
    (s.config.armor = true → lf ∉ s.selectDesc) →
    exec (.encode ie) s = .next t → t.status.state = .done →
    s'.params = s.params → s'.inLen = t.outLen → t.outLen.toNat ≤ s.params.inCap →
    s.inLen.toNat ≤ s.params.outCap →
    (∀ k, k < t.outLen.toNat → s'.mem.get? (inBase + k) = t.mem.get? (outBase + k)) →
    s'.config.fmt.toNat ≤ 1 → s'.config.ignoreGarbage = false →
      ∃ t', exec (.decode ie') s' = .next t' ∧ t'.status = ⟨.done, none, s.config.armor && decide (s.inLen ≠ 0#19)⟩ ∧
        t'.outLen = s.inLen ∧ ∀ k, k < s.inLen.toNat → t'.mem.get? (outBase + k) = s.input[k]?

/-! ## The invariant -/

/-- The invariant holds right after reset, for every block of legal capacities. -/
def Obligations.InvariantHoldsAtReset : Prop :=
  State.reset.Inv ∧ ∀ p : Params, p.capacitiesOk = true → (State.resetOf p).Inv

/-- Every step keeps the invariant: the memory stays canonical and inside the backed addresses (R50), ERR is set exactly in
ERROR (R28), the result registers read 0 while BUSY and after ERROR (R36, R150), OUT_LEN never exceeds OUT_CAP and, unless
BUSY, names exactly the specified words of OUT_BUF (R164, R168), and DEC_PAD is a padding index (R36). -/
def Obligations.EveryStepKeepsTheInvariant : Prop :=
  ∀ s t : State, s.Inv → step s = .next t → t.Inv

/-! ## The lookups (spec/10_state.md) -/

/-- The lookups (R39): under WF_ROM, IDX(c) is the unique i in 0..1023 with SYM[i] = c, PADIDX(c) the unique k in 2, 4, 6, 8
with PAD[k] = c; and each is absent exactly for a word outside SYM, and outside PADSET. -/
def Obligations.LookupsInvertTheTables : Prop :=
  ∀ (r : Rom) (trim : List Word) (c : Word), r.wellFormed trim = true →
    (∀ i, symIdx? r c = some i ↔ i < 1024 ∧ r.sym[i]? = some c) ∧
    (symIdx? r c = none ↔ ∀ i : Fin 1024, r.sym[i] ≠ c) ∧
    (∀ k, padIdx? r c = some k ↔
      (k = 2 ∧ c = r.pad2) ∨ (k = 4 ∧ c = r.pad4) ∨ (k = 6 ∧ c = r.pad6) ∨ (k = 8 ∧ c = r.pad8)) ∧
    (padIdx? r c = none ↔ c ≠ r.pad2 ∧ c ≠ r.pad4 ∧ c ≠ r.pad6 ∧ c ≠ r.pad8) ∧
    r.padSet = [r.pad2, r.pad4, r.pad6, r.pad8]
end

