-- ==== Sys2Proof/Laws/State.lean ====
section
/-! SUPPORT. What each update of the state writes and what it leaves, field by field. -/

namespace Sys2Proof.Machine

variable (s : State)

@[simp] theorem State.started_params (i : Instr) : (s.started i).params = s.params := rfl
@[simp] theorem State.started_ctrl (i : Instr) : (s.started i).ctrl = ⟨i.code, i.ie⟩ := rfl
@[simp] theorem State.started_status (i : Instr) : (s.started i).status = ⟨.busy, none, false⟩ := rfl
@[simp] theorem State.started_config (i : Instr) : (s.started i).config = s.config := rfl
@[simp] theorem State.started_wrap (i : Instr) : (s.started i).wrap = s.wrap := rfl
@[simp] theorem State.started_inLen (i : Instr) : (s.started i).inLen = s.inLen := rfl
@[simp] theorem State.started_descLen (i : Instr) : (s.started i).descLen = s.descLen := rfl
@[simp] theorem State.started_outLen (i : Instr) : (s.started i).outLen = 0#19 := rfl
@[simp] theorem State.started_trRem (i : Instr) : (s.started i).trRem = 0#31 := rfl
@[simp] theorem State.started_trBits (i : Instr) : (s.started i).trBits = 0#5 := rfl
@[simp] theorem State.started_decPad (i : Instr) : (s.started i).decPad = 0#4 := rfl
@[simp] theorem State.started_errInfo (i : Instr) : (s.started i).errInfo = 0#32 := rfl
@[simp] theorem State.started_errIndex (i : Instr) : (s.started i).errIndex = 0#19 := rfl
@[simp] theorem State.started_mem (i : Instr) : (s.started i).mem = s.mem := rfl
@[simp] theorem State.started_draws (i : Instr) : (s.started i).draws = s.draws := rfl
@[simp] theorem State.started_program (i : Instr) : (s.started i).program = s.program := rfl
@[simp] theorem State.started_sched (i : Instr) : (s.started i).sched = s.sched := rfl
@[simp] theorem State.started_trace (i : Instr) : (s.started i).trace = s.trace := rfl

@[simp] theorem State.drawn_params : (s.drawn).params = s.params := rfl
@[simp] theorem State.drawn_ctrl : (s.drawn).ctrl = s.ctrl := rfl
@[simp] theorem State.drawn_status : (s.drawn).status = s.status := rfl
@[simp] theorem State.drawn_config : (s.drawn).config = s.config := rfl
@[simp] theorem State.drawn_wrap : (s.drawn).wrap = s.wrap := rfl
@[simp] theorem State.drawn_inLen : (s.drawn).inLen = s.inLen := rfl
@[simp] theorem State.drawn_descLen : (s.drawn).descLen = s.descLen := rfl
@[simp] theorem State.drawn_outLen : (s.drawn).outLen = s.outLen := rfl
@[simp] theorem State.drawn_trRem : (s.drawn).trRem = s.trRem := rfl
@[simp] theorem State.drawn_trBits : (s.drawn).trBits = s.trBits := rfl
@[simp] theorem State.drawn_decPad : (s.drawn).decPad = s.decPad := rfl
@[simp] theorem State.drawn_errInfo : (s.drawn).errInfo = s.errInfo := rfl
@[simp] theorem State.drawn_errIndex : (s.drawn).errIndex = s.errIndex := rfl
@[simp] theorem State.drawn_mem : (s.drawn).mem = s.mem := rfl
@[simp] theorem State.drawn_draws : (s.drawn).draws = s.draws + s.inLen.toNat + s.descLen.toNat := rfl
@[simp] theorem State.drawn_program : (s.drawn).program = s.program := rfl
@[simp] theorem State.drawn_sched : (s.drawn).sched = s.sched := rfl
@[simp] theorem State.drawn_trace : (s.drawn).trace = s.trace := rfl

@[simp] theorem State.setOutput_params (out : List Word) : (s.setOutput out).params = s.params := rfl
@[simp] theorem State.setOutput_ctrl (out : List Word) : (s.setOutput out).ctrl = s.ctrl := rfl
@[simp] theorem State.setOutput_status (out : List Word) : (s.setOutput out).status = s.status := rfl
@[simp] theorem State.setOutput_config (out : List Word) : (s.setOutput out).config = s.config := rfl
@[simp] theorem State.setOutput_wrap (out : List Word) : (s.setOutput out).wrap = s.wrap := rfl
@[simp] theorem State.setOutput_inLen (out : List Word) : (s.setOutput out).inLen = s.inLen := rfl
@[simp] theorem State.setOutput_descLen (out : List Word) : (s.setOutput out).descLen = s.descLen := rfl
@[simp] theorem State.setOutput_outLen (out : List Word) : (s.setOutput out).outLen = s.outLen := rfl
@[simp] theorem State.setOutput_trRem (out : List Word) : (s.setOutput out).trRem = s.trRem := rfl
@[simp] theorem State.setOutput_trBits (out : List Word) : (s.setOutput out).trBits = s.trBits := rfl
@[simp] theorem State.setOutput_decPad (out : List Word) : (s.setOutput out).decPad = s.decPad := rfl
@[simp] theorem State.setOutput_errInfo (out : List Word) : (s.setOutput out).errInfo = s.errInfo := rfl
@[simp] theorem State.setOutput_errIndex (out : List Word) : (s.setOutput out).errIndex = s.errIndex := rfl
@[simp] theorem State.setOutput_mem (out : List Word) : (s.setOutput out).mem = (s.mem.forget outBase (outBase + s.params.outCap)).setList outBase out := rfl
@[simp] theorem State.setOutput_draws (out : List Word) : (s.setOutput out).draws = s.draws := rfl
@[simp] theorem State.setOutput_program (out : List Word) : (s.setOutput out).program = s.program := rfl
@[simp] theorem State.setOutput_sched (out : List Word) : (s.setOutput out).sched = s.sched := rfl
@[simp] theorem State.setOutput_trace (out : List Word) : (s.setOutput out).trace = s.trace := rfl

@[simp] theorem State.completeDone_params (r : Result) : (s.completeDone r).params = s.params := rfl
@[simp] theorem State.completeDone_ctrl (r : Result) : (s.completeDone r).ctrl = s.ctrl := rfl
@[simp] theorem State.completeDone_status (r : Result) : (s.completeDone r).status = ⟨.done, s.status.err, r.armorMatch⟩ := rfl
@[simp] theorem State.completeDone_config (r : Result) : (s.completeDone r).config = s.config := rfl
@[simp] theorem State.completeDone_wrap (r : Result) : (s.completeDone r).wrap = s.wrap := rfl
@[simp] theorem State.completeDone_inLen (r : Result) : (s.completeDone r).inLen = s.inLen := rfl
@[simp] theorem State.completeDone_descLen (r : Result) : (s.completeDone r).descLen = s.descLen := rfl
@[simp] theorem State.completeDone_outLen (r : Result) : (s.completeDone r).outLen = BitVec.ofNat 19 r.out.length := rfl
@[simp] theorem State.completeDone_trRem (r : Result) : (s.completeDone r).trRem = BitVec.ofNat 31 r.trRem := rfl
@[simp] theorem State.completeDone_trBits (r : Result) : (s.completeDone r).trBits = BitVec.ofNat 5 r.trBits := rfl
@[simp] theorem State.completeDone_decPad (r : Result) : (s.completeDone r).decPad = BitVec.ofNat 4 r.decPad := rfl
@[simp] theorem State.completeDone_errInfo (r : Result) : (s.completeDone r).errInfo = s.errInfo := rfl
@[simp] theorem State.completeDone_errIndex (r : Result) : (s.completeDone r).errIndex = s.errIndex := rfl
@[simp] theorem State.completeDone_mem (r : Result) : (s.completeDone r).mem = (s.setOutput r.out).mem := rfl
@[simp] theorem State.completeDone_draws (r : Result) : (s.completeDone r).draws = s.drawn.draws := rfl
@[simp] theorem State.completeDone_program (r : Result) : (s.completeDone r).program = s.program := rfl
@[simp] theorem State.completeDone_sched (r : Result) : (s.completeDone r).sched = s.sched := rfl
@[simp] theorem State.completeDone_trace (r : Result) : (s.completeDone r).trace = s.trace := rfl

@[simp] theorem State.completeError_params (e : Raise) : (s.completeError e).params = s.params := rfl
@[simp] theorem State.completeError_ctrl (e : Raise) : (s.completeError e).ctrl = s.ctrl := rfl
@[simp] theorem State.completeError_status (e : Raise) : (s.completeError e).status = ⟨.error, some e.error, s.status.armorMatch⟩ := rfl
@[simp] theorem State.completeError_config (e : Raise) : (s.completeError e).config = s.config := rfl
@[simp] theorem State.completeError_wrap (e : Raise) : (s.completeError e).wrap = s.wrap := rfl
@[simp] theorem State.completeError_inLen (e : Raise) : (s.completeError e).inLen = s.inLen := rfl
@[simp] theorem State.completeError_descLen (e : Raise) : (s.completeError e).descLen = s.descLen := rfl
@[simp] theorem State.completeError_outLen (e : Raise) : (s.completeError e).outLen = s.outLen := rfl
@[simp] theorem State.completeError_trRem (e : Raise) : (s.completeError e).trRem = s.trRem := rfl
@[simp] theorem State.completeError_trBits (e : Raise) : (s.completeError e).trBits = s.trBits := rfl
@[simp] theorem State.completeError_decPad (e : Raise) : (s.completeError e).decPad = s.decPad := rfl
@[simp] theorem State.completeError_errInfo (e : Raise) : (s.completeError e).errInfo = BitVec.ofNat 32 e.info := rfl
@[simp] theorem State.completeError_errIndex (e : Raise) : (s.completeError e).errIndex = BitVec.ofNat 19 e.index := rfl
@[simp] theorem State.completeError_mem (e : Raise) : (s.completeError e).mem = (s.setOutput []).mem := rfl
@[simp] theorem State.completeError_draws (e : Raise) : (s.completeError e).draws = s.drawn.draws := rfl
@[simp] theorem State.completeError_program (e : Raise) : (s.completeError e).program = s.program := rfl
@[simp] theorem State.completeError_sched (e : Raise) : (s.completeError e).sched = s.sched := rfl
@[simp] theorem State.completeError_trace (e : Raise) : (s.completeError e).trace = s.trace := rfl

@[simp] theorem State.cleared_params : (s.cleared).params = s.params := rfl
@[simp] theorem State.cleared_ctrl : (s.cleared).ctrl = s.ctrl := rfl
@[simp] theorem State.cleared_status : (s.cleared).status = ⟨.idle, none, s.status.armorMatch⟩ := rfl
@[simp] theorem State.cleared_config : (s.cleared).config = s.config := rfl
@[simp] theorem State.cleared_wrap : (s.cleared).wrap = s.wrap := rfl
@[simp] theorem State.cleared_inLen : (s.cleared).inLen = s.inLen := rfl
@[simp] theorem State.cleared_descLen : (s.cleared).descLen = s.descLen := rfl
@[simp] theorem State.cleared_outLen : (s.cleared).outLen = s.outLen := rfl
@[simp] theorem State.cleared_trRem : (s.cleared).trRem = s.trRem := rfl
@[simp] theorem State.cleared_trBits : (s.cleared).trBits = s.trBits := rfl
@[simp] theorem State.cleared_decPad : (s.cleared).decPad = s.decPad := rfl
@[simp] theorem State.cleared_errInfo : (s.cleared).errInfo = s.errInfo := rfl
@[simp] theorem State.cleared_errIndex : (s.cleared).errIndex = s.errIndex := rfl
@[simp] theorem State.cleared_mem : (s.cleared).mem = s.mem := rfl
@[simp] theorem State.cleared_draws : (s.cleared).draws = s.draws := rfl
@[simp] theorem State.cleared_program : (s.cleared).program = s.program := rfl
@[simp] theorem State.cleared_sched : (s.cleared).sched = s.sched := rfl
@[simp] theorem State.cleared_trace : (s.cleared).trace = s.trace := rfl

@[simp] theorem State.ticked_params : (s.ticked).params = s.params := rfl
@[simp] theorem State.ticked_ctrl : (s.ticked).ctrl = s.ctrl := rfl
@[simp] theorem State.ticked_status : (s.ticked).status = s.status := rfl
@[simp] theorem State.ticked_config : (s.ticked).config = s.config := rfl
@[simp] theorem State.ticked_wrap : (s.ticked).wrap = s.wrap := rfl
@[simp] theorem State.ticked_inLen : (s.ticked).inLen = s.inLen := rfl
@[simp] theorem State.ticked_descLen : (s.ticked).descLen = s.descLen := rfl
@[simp] theorem State.ticked_outLen : (s.ticked).outLen = s.outLen := rfl
@[simp] theorem State.ticked_trRem : (s.ticked).trRem = s.trRem := rfl
@[simp] theorem State.ticked_trBits : (s.ticked).trBits = s.trBits := rfl
@[simp] theorem State.ticked_decPad : (s.ticked).decPad = s.decPad := rfl
@[simp] theorem State.ticked_errInfo : (s.ticked).errInfo = s.errInfo := rfl
@[simp] theorem State.ticked_errIndex : (s.ticked).errIndex = s.errIndex := rfl
@[simp] theorem State.ticked_mem : (s.ticked).mem = s.mem := rfl
@[simp] theorem State.ticked_draws : (s.ticked).draws = s.draws := rfl
@[simp] theorem State.ticked_program : (s.ticked).program = s.program := rfl
@[simp] theorem State.ticked_sched : (s.ticked).sched = s.sched.tail := rfl
@[simp] theorem State.ticked_trace : (s.ticked).trace = s.trace := rfl

@[simp] theorem State.logged_params (x : Txn) : (s.logged x).params = s.params := rfl
@[simp] theorem State.logged_ctrl (x : Txn) : (s.logged x).ctrl = s.ctrl := rfl
@[simp] theorem State.logged_status (x : Txn) : (s.logged x).status = s.status := rfl
@[simp] theorem State.logged_config (x : Txn) : (s.logged x).config = s.config := rfl
@[simp] theorem State.logged_wrap (x : Txn) : (s.logged x).wrap = s.wrap := rfl
@[simp] theorem State.logged_inLen (x : Txn) : (s.logged x).inLen = s.inLen := rfl
@[simp] theorem State.logged_descLen (x : Txn) : (s.logged x).descLen = s.descLen := rfl
@[simp] theorem State.logged_outLen (x : Txn) : (s.logged x).outLen = s.outLen := rfl
@[simp] theorem State.logged_trRem (x : Txn) : (s.logged x).trRem = s.trRem := rfl
@[simp] theorem State.logged_trBits (x : Txn) : (s.logged x).trBits = s.trBits := rfl
@[simp] theorem State.logged_decPad (x : Txn) : (s.logged x).decPad = s.decPad := rfl
@[simp] theorem State.logged_errInfo (x : Txn) : (s.logged x).errInfo = s.errInfo := rfl
@[simp] theorem State.logged_errIndex (x : Txn) : (s.logged x).errIndex = s.errIndex := rfl
@[simp] theorem State.logged_mem (x : Txn) : (s.logged x).mem = s.mem := rfl
@[simp] theorem State.logged_draws (x : Txn) : (s.logged x).draws = s.draws := rfl
@[simp] theorem State.logged_program (x : Txn) : (s.logged x).program = s.program := rfl
@[simp] theorem State.logged_sched (x : Txn) : (s.logged x).sched = s.sched := rfl
@[simp] theorem State.logged_trace (x : Txn) : (s.logged x).trace = x :: s.trace := rfl

@[simp] theorem State.afterReset_params : (s.afterReset).params = s.params := rfl
@[simp] theorem State.afterReset_ctrl : (s.afterReset).ctrl = ⟨0#4, false⟩ := rfl
@[simp] theorem State.afterReset_status : (s.afterReset).status = ⟨.idle, none, false⟩ := rfl
@[simp] theorem State.afterReset_config : (s.afterReset).config = .reset := rfl
@[simp] theorem State.afterReset_wrap : (s.afterReset).wrap = 32#16 := rfl
@[simp] theorem State.afterReset_inLen : (s.afterReset).inLen = 0#19 := rfl
@[simp] theorem State.afterReset_descLen : (s.afterReset).descLen = 0#19 := rfl
@[simp] theorem State.afterReset_outLen : (s.afterReset).outLen = 0#19 := rfl
@[simp] theorem State.afterReset_trRem : (s.afterReset).trRem = 0#31 := rfl
@[simp] theorem State.afterReset_trBits : (s.afterReset).trBits = 0#5 := rfl
@[simp] theorem State.afterReset_decPad : (s.afterReset).decPad = 0#4 := rfl
@[simp] theorem State.afterReset_errInfo : (s.afterReset).errInfo = 0#32 := rfl
@[simp] theorem State.afterReset_errIndex : (s.afterReset).errIndex = 0#19 := rfl
@[simp] theorem State.afterReset_mem : (s.afterReset).mem = [] := rfl
@[simp] theorem State.afterReset_draws : (s.afterReset).draws = s.draws := rfl
@[simp] theorem State.afterReset_program : (s.afterReset).program = s.program := rfl
@[simp] theorem State.afterReset_sched : (s.afterReset).sched = s.sched := rfl
@[simp] theorem State.afterReset_trace : (s.afterReset).trace = s.trace := rfl

end Sys2Proof.Machine
end

