-- ==== Sys2Proof/Laws/Memory.lean ====
section
/-! SUPPORT. The memory: read after write, everything else unchanged, and the canonical form is kept. -/

namespace Sys2Proof.Machine

theorem Memory.get?_set_same (m : Memory) (a : Nat) (v : Word) : (m.set a v).get? a = some v := by
  induction m with
  | nil => simp [Memory.set, Memory.get?]
  | cons c m ih =>
    obtain ⟨b, u⟩ := c
    by_cases h1 : a < b
    · simp [Memory.set, Memory.get?, h1]
    · by_cases h2 : a = b <;> simp [Memory.set, Memory.get?, h1, h2, ih]

theorem Memory.get?_set_other (m : Memory) {a x : Nat} (v : Word) (hx : x ≠ a) :
    (m.set a v).get? x = m.get? x := by
  induction m with
  | nil => simp [Memory.set, Memory.get?, hx]
  | cons c m ih =>
    obtain ⟨b, u⟩ := c
    by_cases h1 : a < b
    · simp [Memory.set, Memory.get?, h1, hx]
    · by_cases h2 : a = b
      · subst h2; simp [Memory.set, Memory.get?, hx]
      · simp [Memory.set, Memory.get?, h1, h2, ih]

theorem Memory.get?_set (m : Memory) (a x : Nat) (v : Word) :
    (m.set a v).get? x = if x = a then some v else m.get? x := by
  split
  · next h => subst h; exact get?_set_same ..
  · next h => exact get?_set_other _ _ h

/-- A list store gives its words to its addresses and leaves every other one. -/
theorem Memory.get?_setList (vs : List Word) (m : Memory) (a x : Nat) :
    (m.setList a vs).get? x = if a ≤ x ∧ x < a + vs.length then vs[x - a]? else m.get? x := by
  induction vs generalizing m a with
  | nil => rw [if_neg (by simp only [List.length_nil]; omega), Memory.setList]
  | cons v vs ih =>
    rw [Memory.setList, ih, Memory.get?_set]
    by_cases h : x = a
    · subst h
      rw [if_neg (by omega), if_pos rfl, if_pos (by simp), Nat.sub_self, List.getElem?_cons_zero]
    · by_cases h2 : a + 1 ≤ x ∧ x < a + 1 + vs.length
      · have : x - a = (x - (a + 1)) + 1 := by omega
        have h3 : a ≤ x ∧ x < a + (v :: vs).length := by simp; omega
        rw [if_pos h2, if_pos h3, this, List.getElem?_cons_succ]
      · have h3 : ¬ (a ≤ x ∧ x < a + (v :: vs).length) := by simp; omega
        rw [if_neg h2, if_neg h3, if_neg h]

theorem Memory.forget_cons (b : Nat) (u : Word) (m : Memory) (lo hi : Nat) :
    Memory.forget ((b, u) :: m) lo hi = if lo ≤ b ∧ b < hi then m.forget lo hi else (b, u) :: m.forget lo hi := by
  unfold Memory.forget
  by_cases h : lo ≤ b ∧ b < hi
  · rw [if_pos h, List.filter_cons_of_neg (by simp [h])]
  · rw [if_neg h, List.filter_cons_of_pos (by simp; omega)]

theorem Memory.get?_forget (m : Memory) (lo hi x : Nat) :
    (m.forget lo hi).get? x = if lo ≤ x ∧ x < hi then none else m.get? x := by
  induction m with
  | nil => simp [Memory.forget, Memory.get?]
  | cons c m ih =>
    obtain ⟨b, u⟩ := c
    rw [Memory.forget_cons]
    by_cases hx : x = b
    · subst hx
      by_cases hb : lo ≤ x ∧ x < hi
      · rw [if_pos hb, if_pos hb, ih, if_pos hb]
      · rw [if_neg hb, if_neg hb]; simp [Memory.get?]
    · by_cases hb : lo ≤ b ∧ b < hi
      · rw [if_pos hb, ih]; simp [Memory.get?, hx]
      · rw [if_neg hb]; simp [Memory.get?, hx, ih]

/-- An address above `lo`, where `none` is below every address. -/
def Memory.above (lo : Option Nat) (a : Nat) : Prop := ∀ b, lo = some b → b < a

theorem Memory.risesFrom_cons (lo : Option Nat) (b : Nat) (u : Word) (m : Memory) :
    Memory.risesFrom lo ((b, u) :: m) = true ↔ Memory.above lo b ∧ Memory.risesFrom (some b) m = true := by
  cases lo <;> simp [Memory.risesFrom, Memory.above]

theorem Memory.risesFrom_weaken {lo : Option Nat} {b : Nat} {m : Memory} (h : Memory.risesFrom (some b) m = true)
    (hb : Memory.above lo b) : Memory.risesFrom lo m = true := by
  cases m with
  | nil => cases lo <;> rfl
  | cons c m =>
    obtain ⟨d, u⟩ := c
    rw [Memory.risesFrom_cons] at h ⊢
    refine ⟨fun x hx => ?_, h.2⟩
    have := hb x hx
    have := h.1 b rfl
    omega

theorem Memory.risesFrom_set {m : Memory} {lo : Option Nat} {a : Nat} (v : Word)
    (h : Memory.risesFrom lo m = true) (ha : Memory.above lo a) : Memory.risesFrom lo (m.set a v) = true := by
  induction m generalizing lo with
  | nil => rw [Memory.set, Memory.risesFrom_cons]; exact ⟨ha, rfl⟩
  | cons c m ih =>
    obtain ⟨b, u⟩ := c
    rw [Memory.risesFrom_cons] at h
    rw [Memory.set]
    split
    · next hab =>
      rw [Memory.risesFrom_cons, Memory.risesFrom_cons]
      exact ⟨ha, fun x hx => by cases hx; exact hab, h.2⟩
    · split
      · next hab => subst hab; rw [Memory.risesFrom_cons]; exact h
      · rw [Memory.risesFrom_cons]
        exact ⟨h.1, ih h.2 (fun x hx => by cases hx; omega)⟩

theorem Memory.risesFrom_forget {m : Memory} {lo : Option Nat} (a b : Nat)
    (h : Memory.risesFrom lo m = true) : Memory.risesFrom lo (m.forget a b) = true := by
  induction m generalizing lo with
  | nil => exact h
  | cons c m ih =>
    obtain ⟨d, u⟩ := c
    rw [Memory.risesFrom_cons] at h
    rw [Memory.forget_cons]
    split
    · exact ih (Memory.risesFrom_weaken h.2 h.1)
    · rw [Memory.risesFrom_cons]; exact ⟨h.1, ih h.2⟩

theorem Memory.wf_set {m : Memory} (a : Nat) (v : Word) (h : m.wf = true) : (m.set a v).wf = true :=
  Memory.risesFrom_set v h (fun _ hx => nomatch hx)

theorem Memory.wf_forget {m : Memory} (a b : Nat) (h : m.wf = true) : (m.forget a b).wf = true :=
  Memory.risesFrom_forget a b h

theorem Memory.wf_setList {m : Memory} (a : Nat) (vs : List Word) (h : m.wf = true) : (m.setList a vs).wf = true := by
  induction vs generalizing m a with
  | nil => exact h
  | cons v vs ih => exact ih _ (Memory.wf_set a v h)

/-- The memory operations a step uses keep the canonical form. -/
theorem State.wf_setOutput {s : State} (out : List Word) (h : s.mem.wf = true) : (s.setOutput out).mem.wf = true :=
  Memory.wf_setList _ _ (Memory.wf_forget _ _ h)

theorem State.wf_reset (p : Params) : (State.resetOf p).mem.wf = true := rfl

/-- OUT_BUF after a completion, word by word, and the rest of the memory. -/
theorem State.get?_setOutput (s : State) (out : List Word) (a : Nat) :
    (s.setOutput out).mem.get? a =
      if outBase ≤ a ∧ a < outBase + out.length then out[a - outBase]?
      else if outBase ≤ a ∧ a < outBase + s.params.outCap then none else s.mem.get? a := by
  rw [State.setOutput_mem, Memory.get?_setList, Memory.get?_forget]

end Sys2Proof.Machine
end

