-- ==== Sys2Proof/Laws/Completion.lean ====
section
/-! SUPPORT. Starting and completing a command, once for all commands: what a completion leaves and what it keeps. -/

namespace Sys2Proof.Machine

/-- START changes no operand (R59). -/
@[simp] theorem State.input_started (s : State) (i : Instr) : (s.started i).input = s.input := rfl
@[simp] theorem State.descriptor_started (s : State) (i : Instr) : (s.started i).descriptor = s.descriptor := rfl
@[simp] theorem State.selectDesc_started (s : State) (i : Instr) : (s.started i).selectDesc = s.selectDesc := rfl
@[simp] theorem State.inLenRaise_started (s : State) (i : Instr) : (s.started i).inLenRaise = s.inLenRaise := rfl
@[simp] theorem State.descLenRaise_started (s : State) (i : Instr) : (s.started i).descLenRaise = s.descLenRaise := rfl
@[simp] theorem State.widthRaise_started (s : State) (i : Instr) : (s.started i).widthRaise = s.widthRaise := rfl
@[simp] theorem State.fitting_started (s : State) (i : Instr) : (s.started i).fitting = s.fitting := rfl

@[simp] theorem Instr.code_ofCode (c : BitVec 4) (ie : Bool) : (Instr.ofCode c ie).code = c := by
  revert c; cases ie <;> decide

@[simp] theorem Instr.ie_ofCode (c : BitVec 4) (ie : Bool) : (Instr.ofCode c ie).ie = ie := by
  revert c; cases ie <;> decide

/-- On a state that START has just made for a command, START changes nothing: the completion of a BUSY engine is
`runCommand` (log entry 1). -/
theorem State.started_of_startedBy {s : State} {i : Instr} (h : s.FreshlyStarted) (hc : s.ctrl = ⟨i.code, i.ie⟩) :
    s.started i = s := by
  obtain ⟨h1, h2, h3, h4, h5, h6, h7⟩ := h
  cases s
  simp only [State.started] at *
  simp_all

/-- The rule of each command (R70), as `exec` calls it. -/
def ruleOf : Instr → State → Except Raise Result
  | .nop _ => fun _ => .ok { out := [] }
  | .transpose _ => transposeRule
  | .encode _ => encodeRule
  | .decode _ => decodeRule
  | .wrap _ => wrapRule
  | .armor _ => armorRule
  | .dearmor _ => dearmorRule
  | .illegal7 _ => illegalRule 0x7#4
  | .illegalHigh code _ => illegalRule code

/-- Every command runs its rule from START to completion. -/
theorem exec_eq (i : Instr) (s : State) : exec i s = .next ((s.started i).complete (ruleOf i (s.started i))) := by
  cases i <;> rfl

theorem check_ok {c : Option Raise} {x : Except Raise Result} {r : Result} (h : check c x = .ok r) :
    c = none ∧ x = .ok r := by
  cases c with
  | none => exact ⟨rfl, h⟩
  | some e => cases h

theorem State.fitting_ok {s : State} {r r' : Result} (h : s.fitting r = .ok r') :
    r' = r ∧ r.out.length ≤ s.params.outCap := by
  unfold State.fitting at h
  split at h
  · cases h
  · cases h; exact ⟨rfl, by omega⟩

theorem capacity_bounds {p : Params} (h : p.capacitiesOk = true) :
    1 ≤ p.inCap ∧ p.inCap ≤ 262144 ∧ 1 ≤ p.outCap ∧ p.outCap ≤ 262144 ∧ 1 ≤ p.descCap ∧ p.descCap ≤ 262144 := by
  simp only [Params.capacitiesOk, capacityOk, Bool.and_eq_true, decide_eq_true_eq] at h
  omega

/-- A DONE completion does everything R149 says and nothing else. -/
theorem completesDone_complete {s : State} {i : Instr} {r : Result} (hcap : s.params.outCap < 2 ^ 19)
    (hlen : r.out.length ≤ s.params.outCap) (hrem : r.trRem < 2 ^ 31) (hbits : r.trBits < 2 ^ 5)
    (hpad : r.decPad < 2 ^ 4) : CompletesDone i s ((s.started i).completeDone r) r := by
  refine ⟨rfl, rfl, ?_, ?_, ?_, ?_, rfl, rfl, fun k hk => ?_, rfl, rfl, rfl, rfl, rfl, rfl, rfl, rfl, fun a ha => ?_⟩
  · exact Nat.mod_eq_of_lt (by omega)
  · exact Nat.mod_eq_of_lt hrem
  · exact Nat.mod_eq_of_lt hbits
  · exact Nat.mod_eq_of_lt hpad
  · rw [State.completeDone_mem, State.get?_setOutput, Nat.add_sub_cancel_left]
    split
    · rfl
    · rw [if_pos (by simp; omega), List.getElem?_eq_none (by omega)]
  · simp only [State.inOutBuf] at ha
    rw [State.completeDone_mem, State.get?_setOutput, if_neg (by omega), if_neg (by simp; omega)]
    rfl

/-- An ERROR completion does everything R150 says and nothing else. -/
theorem completesError_complete {s : State} {i : Instr} {e : Raise} (hinfo : e.info < 2 ^ 32)
    (hindex : e.index < 2 ^ 19) : CompletesError i s ((s.started i).completeError e) e := by
  refine ⟨rfl, rfl, rfl, rfl, rfl, rfl, ?_, ?_, fun k hk => ?_, rfl, rfl, rfl, rfl, rfl, rfl, rfl, rfl, fun a ha => ?_⟩
  · exact Nat.mod_eq_of_lt hinfo
  · exact Nat.mod_eq_of_lt hindex
  · rw [State.completeError_mem, State.get?_setOutput, if_neg (by simp), if_pos (by simp; omega)]
  · simp only [State.inOutBuf] at ha
    rw [State.completeError_mem, State.get?_setOutput, if_neg (by simp), if_neg (by simp; omega)]
    rfl

end Sys2Proof.Machine
end

