-- ==== Sys2Proof/Laws/Encoding.lean ====
section
/-! SUPPORT. The command word: what decodes, the fields of a word with its ignored bits 0, and the opcode rows. -/

namespace Sys2Proof

theorem decode_ok {w : Word} {i : Instr} (h : decode w = .ok i) :
    w.getLsbD 8 = true ∧ i = .ofCode (wordCmd w) (wordIe w) := by
  unfold decode at h
  split at h
  · next hs => cases h; exact ⟨hs, rfl⟩
  · split at h <;> cases h

theorem decode_start {w : Word} (h : w.getLsbD 8 = true) : decode w = .ok (.ofCode (wordCmd w) (wordIe w)) := by
  unfold decode wordStart; rw [h]; rfl

theorem ofCode_wf (c : BitVec 4) (ie : Bool) : (Instr.ofCode c ie).wellFormed = true := by
  revert c; cases ie <;> decide

theorem startRow_iff {w : Word} : (w &&& 0x10F#32 = 0x100#32 ||| (wordCmd w).zeroExtend 32 ↔ w.getLsbD 8 = true) := by
  constructor
  · intro h
    have := congrArg (BitVec.getLsbD · 8) h
    simpa [wordCmd] using this
  · intro h
    unfold wordCmd
    apply BitVec.eq_of_getLsbD_eq
    intro k hk
    interval_cases k <;> simp_all

theorem covers_iff (w : Word) (j : Instr) :
    j.row.covers w = true ↔ w.getLsbD 8 = true ∧ (Instr.ofCode (wordCmd w) (wordIe w)).row = j.row := by
  have h1 : ∀ c : BitVec 4, (w &&& 0x10F#32 == 0x100#32 ||| c.zeroExtend 32) = true ↔
      (w.getLsbD 8 = true ∧ wordCmd w = c) := by
    intro c
    rw [beq_iff_eq]
    constructor
    · intro h
      have e : wordCmd w = c := by
        have := congrArg (BitVec.extractLsb' 0 4) h
        apply BitVec.eq_of_getLsbD_eq
        intro k hk
        have := congrArg (BitVec.getLsbD · k) this
        unfold wordCmd
        interval_cases k <;> simpa using this
      rw [← e, startRow_iff] at h
      exact ⟨h, e⟩
    · rintro ⟨h, rfl⟩; exact startRow_iff.mpr h
  have h2 : (w &&& 0x108#32 == 0x108#32) = true ↔ (w.getLsbD 8 = true ∧ (wordCmd w).getLsbD 3 = true) := by
    rw [beq_iff_eq]
    constructor
    · intro h
      have a := congrArg (BitVec.getLsbD · 8) h
      have b := congrArg (BitVec.getLsbD · 3) h
      simp [wordCmd] at a b ⊢; exact ⟨a, b⟩
    · rintro ⟨ha, hb⟩
      simp [wordCmd] at hb
      apply BitVec.eq_of_getLsbD_eq
      intro k hk
      interval_cases k <;> simp_all
  have h3 : ∀ (c : BitVec 4) (ie : Bool), (Instr.ofCode c ie).row = ⟨0x108#32, 0x108#32⟩ ↔ c.getLsbD 3 = true := by
    intro c ie; revert c; cases ie <;> decide
  have h4 : ∀ (c : BitVec 4) (ie : Bool) (k : Nat), k < 8 →
      ((Instr.ofCode c ie).row = ⟨0x10F#32, 0x100#32 ||| (BitVec.ofNat 4 k).zeroExtend 32⟩ ↔ c = BitVec.ofNat 4 k) := by
    intro c ie k hk; revert c; interval_cases k <;> cases ie <;> decide
  cases j with
  | illegalHigh c ie => exact h2.trans (and_congr_right fun _ => (h3 _ _).symm)
  | nop ie => exact (h1 0x0#4).trans (and_congr_right fun _ => (h4 _ _ 0 (by omega)).symm)
  | transpose ie => exact (h1 0x1#4).trans (and_congr_right fun _ => (h4 _ _ 1 (by omega)).symm)
  | encode ie => exact (h1 0x2#4).trans (and_congr_right fun _ => (h4 _ _ 2 (by omega)).symm)
  | decode ie => exact (h1 0x3#4).trans (and_congr_right fun _ => (h4 _ _ 3 (by omega)).symm)
  | wrap ie => exact (h1 0x4#4).trans (and_congr_right fun _ => (h4 _ _ 4 (by omega)).symm)
  | armor ie => exact (h1 0x5#4).trans (and_congr_right fun _ => (h4 _ _ 5 (by omega)).symm)
  | dearmor ie => exact (h1 0x6#4).trans (and_congr_right fun _ => (h4 _ _ 6 (by omega)).symm)
  | illegal7 ie => exact (h1 0x7#4).trans (and_congr_right fun _ => (h4 _ _ 7 (by omega)).symm)

theorem decode_masked (w : Word) : decode (w &&& 0x1030F#32) = decode w := by
  have a : wordStart (w &&& 0x1030F#32) = wordStart w := by simp [wordStart]
  have b : wordClr (w &&& 0x1030F#32) = wordClr w := by simp [wordClr]
  have c : wordIe (w &&& 0x1030F#32) = wordIe w := by simp [wordIe]
  have d : wordCmd (w &&& 0x1030F#32) = wordCmd w := by
    unfold wordCmd
    apply BitVec.eq_of_getLsbD_eq
    intro k hk
    interval_cases k <;> simp
  unfold decode; rw [a, b, c, d]

theorem wordbits_masked (w : Word) : wordCmd (w &&& 0x1030F#32) = wordCmd w ∧ wordIe (w &&& 0x1030F#32) = wordIe w := by
  constructor
  · unfold wordCmd
    apply BitVec.eq_of_getLsbD_eq
    intro k hk
    interval_cases k <;> simp
  · simp [wordIe]

end Sys2Proof
end

