-- ==== Sys2Proof/Laws/Bus.lean ====
section
/-! SUPPORT. The bus: the address map, what a register reads as, and what a write does. -/

namespace Sys2Proof.Machine

theorem placeOf_register (p : Params) (o : Nat) (h : o < 0x40000) : placeOf p (BitVec.ofNat 20 o) = .register o := by
  have h1 : (BitVec.extractLsb' 18 2 (BitVec.ofNat 20 o)).toNat = 0 := by
    simp [BitVec.extractLsb'_toNat, Nat.shiftRight_eq_div_pow]; omega
  have h2 : (BitVec.extractLsb' 0 18 (BitVec.ofNat 20 o)).toNat = o := by
    simp [BitVec.extractLsb'_toNat]; omega
  unfold placeOf
  simp only [h1, h2]

theorem placeOf_ctrl (p : Params) : placeOf p ctrlAddr = .register 0 := placeOf_register p 0 (by omega)

theorem busWrite_ctrl {s : State} (h : s.status.state ≠ .busy) (w : Word) : s.busWrite ctrlAddr w = s.writeCtrl w := by
  unfold State.busWrite State.isBusy
  rw [placeOf_ctrl]; simp [h, State.writeRegister]

theorem busWrite_busy {s : State} (h : s.status.state = .busy) (a : Addr) (w : Word) : s.busWrite a w = s := by
  unfold State.busWrite State.isBusy
  simp [h]

theorem writeCtrl_start {s : State} {w : Word} (h : w.getLsbD 8 = true) :
    s.writeCtrl w = s.started (.ofCode (wordCmd w) (wordIe w)) := by
  unfold State.writeCtrl; rw [decode_start h]

theorem writeCtrl_clear {s : State} {w : Word} (h : w.getLsbD 8 = false) (h2 : w.getLsbD 9 = true) :
    s.writeCtrl w = { s with ctrl := ⟨wordCmd w, wordIe w⟩ }.cleared := by
  unfold State.writeCtrl decode wordStart wordClr; rw [h, h2]; rfl

theorem writeCtrl_set {s : State} {w : Word} (h : w.getLsbD 8 = false) (h2 : w.getLsbD 9 = false) :
    s.writeCtrl w = { s with ctrl := ⟨wordCmd w, wordIe w⟩ } := by
  unfold State.writeCtrl decode wordStart wordClr; rw [h, h2]; rfl

/-- Appending puts the first word above the second. -/
theorem toNat_append_add {m n : Nat} (x : BitVec m) (y : BitVec n) : (x ++ y).toNat = x.toNat * 2 ^ n + y.toNat := by
  rw [BitVec.toNat_append, ← Nat.shiftLeft_add_eq_or_of_lt y.isLt, Nat.shiftLeft_eq]

theorem Ctrl.toNat_word (c : Ctrl) : c.word.toNat = c.cmd.toNat + 65536 * c.ie.toNat := by
  simp only [Ctrl.word, toNat_append_add, BitVec.toNat_ofBool, BitVec.toNat_ofNat]; omega

theorem Status.toNat_word (t : Status) :
    t.word.toNat = t.state.code.toNat + 16 * t.errField.toNat + 256 * t.armorMatch.toNat := by
  simp only [Status.word, toNat_append_add, BitVec.toNat_ofBool, BitVec.toNat_ofNat]; omega

theorem ConfigReg.toNat_word (c : ConfigReg) :
    c.word.toNat = c.armor.toNat + 2 * c.descPresent.toNat + 4 * c.ignoreGarbage.toNat + 16 * c.fmt.toNat +
      256 * c.trM.toNat + 65536 * c.trN.toNat := by
  simp only [ConfigReg.word, toNat_append_add, BitVec.toNat_ofBool, BitVec.toNat_ofNat]; omega

/-- The address map on the buffer windows (R48, R50). -/
theorem placeOf_inAddr (p : Params) {i : Nat} (h : i < 2 ^ 18) :
    placeOf p (inAddr i) = if i < p.inCap then .inBuf i else .unbacked := by
  have h1 : (BitVec.extractLsb' 18 2 (inAddr i)).toNat = 1 := by
    simp [inAddr, inBase, BitVec.extractLsb'_toNat, Nat.shiftRight_eq_div_pow]; omega
  have h2 : (BitVec.extractLsb' 0 18 (inAddr i)).toNat = i := by
    simp [inAddr, inBase, BitVec.extractLsb'_toNat]; omega
  unfold placeOf; simp only [h1, h2]

theorem placeOf_outAddr (p : Params) {i : Nat} (h : i < 2 ^ 18) :
    placeOf p (outAddr i) = if i < p.outCap then .outBuf i else .unbacked := by
  have h1 : (BitVec.extractLsb' 18 2 (outAddr i)).toNat = 2 := by
    simp [outAddr, outBase, BitVec.extractLsb'_toNat, Nat.shiftRight_eq_div_pow]; omega
  have h2 : (BitVec.extractLsb' 0 18 (outAddr i)).toNat = i := by
    simp [outAddr, outBase, BitVec.extractLsb'_toNat]; omega
  unfold placeOf; simp only [h1, h2]

theorem placeOf_descAddr (p : Params) {i : Nat} (h : i < 2 ^ 18) :
    placeOf p (descAddr i) = if i < p.descCap then .descBuf i else .unbacked := by
  have h1 : (BitVec.extractLsb' 18 2 (descAddr i)).toNat = 3 := by
    simp [descAddr, descBase, BitVec.extractLsb'_toNat, Nat.shiftRight_eq_div_pow]; omega
  have h2 : (BitVec.extractLsb' 0 18 (descAddr i)).toNat = i := by
    simp [descAddr, descBase, BitVec.extractLsb'_toNat]; omega
  unfold placeOf; simp only [h1, h2]

/-- Every address lies in one of the four windows. -/
theorem addr_cases (a : Addr) :
    ∃ i, i < 2 ^ 18 ∧ (a = BitVec.ofNat 20 i ∨ a = inAddr i ∨ a = outAddr i ∨ a = descAddr i) := by
  have ha := a.isLt
  have back : ∀ k, a.toNat = k → a = BitVec.ofNat 20 k := by
    intro k hk; subst hk; simp
  have h : a.toNat / 262144 = 0 ∨ a.toNat / 262144 = 1 ∨ a.toNat / 262144 = 2 ∨ a.toNat / 262144 = 3 := by omega
  refine ⟨a.toNat % 262144, by omega, ?_⟩
  unfold inAddr outAddr descAddr inBase outBase descBase
  rcases h with h | h | h | h
  · exact .inl (back _ (by omega))
  · exact .inr (.inl (back _ (by omega)))
  · exact .inr (.inr (.inl (back _ (by omega))))
  · exact .inr (.inr (.inr (back _ (by omega))))

/-- What a register offset reads and what a write to it does (R49, R54, R55). -/
theorem busRead_reg (s : State) {o : Nat} (ho : o < 0x40000) : s.busRead (BitVec.ofNat 20 o) = (s.register o, s) := by
  unfold State.busRead; rw [placeOf_register _ _ ho]

theorem busWrite_reg {s : State} (h : s.status.state ≠ .busy) {o : Nat} (ho : o < 0x40000) (v : Word) :
    s.busWrite (BitVec.ofNat 20 o) v = s.writeRegister o v := by
  unfold State.busWrite State.isBusy; rw [placeOf_register _ _ ho]; simp [h]

theorem writeRegister_ro (s : State) (o : Nat) (v : Word) (h : o = 1 ∨ 6 ≤ o) : s.writeRegister o v = s := by
  unfold State.writeRegister; split <;> first | omega | rfl

/-- A read changes nothing but the count of draws (R54). -/
theorem busRead_state (s : State) (a : Addr) : ∃ d, (s.busRead a).2 = { s with draws := d } := by
  unfold State.busRead State.readWord
  split <;> first | exact ⟨_, rfl⟩ | (split <;> exact ⟨_, rfl⟩)

/-- Everything a bus write can be. -/
theorem busWrite_cases (s : State) (a : Addr) (v : Word) :
    s.busWrite a v = s ∨ (s.status.state ≠ .busy ∧
      ((a = ctrlAddr ∧ s.busWrite a v = s.writeCtrl v) ∨ s.busWrite a v = { s with config := .ofWord v } ∨
       s.busWrite a v = { s with wrap := v.extractLsb' 0 16 } ∨ s.busWrite a v = { s with inLen := v.extractLsb' 0 19 } ∨
       s.busWrite a v = { s with descLen := v.extractLsb' 0 19 } ∨
       (∃ i, i < s.params.inCap ∧ i < 2^18 ∧ s.busWrite a v = { s with mem := s.mem.set (inBase + i) v }) ∨
       ∃ i, i < s.params.descCap ∧ i < 2^18 ∧ s.busWrite a v = { s with mem := s.mem.set (descBase + i) v })) := by
  by_cases hb : s.status.state = .busy
  · exact .inl (busWrite_busy hb a v)
  · have hn : s.isBusy = false := by simp [State.isBusy, hb]
    obtain ⟨j, hj, rfl | rfl | rfl | rfl⟩ := addr_cases a
    · rw [busWrite_reg hb hj]
      by_cases h0 : j = 0
      · subst h0; exact .inr ⟨hb, .inl ⟨rfl, rfl⟩⟩
      · unfold State.writeRegister
        split
        · exact absurd rfl h0
        · exact .inr ⟨hb, .inr (.inl rfl)⟩
        · exact .inr ⟨hb, .inr (.inr (.inl rfl))⟩
        · exact .inr ⟨hb, .inr (.inr (.inr (.inl rfl)))⟩
        · exact .inr ⟨hb, .inr (.inr (.inr (.inr (.inl rfl))))⟩
        · exact .inl rfl
    · unfold State.busWrite
      rw [placeOf_inAddr _ hj, hn]
      by_cases h : j < s.params.inCap
      · rw [if_pos h]; exact .inr ⟨hb, .inr (.inr (.inr (.inr (.inr (.inl ⟨j, h, hj, rfl⟩)))))⟩
      · rw [if_neg h]; exact .inl rfl
    · unfold State.busWrite
      rw [placeOf_outAddr _ hj, hn]
      by_cases h : j < s.params.outCap
      · rw [if_pos h]; exact .inl rfl
      · rw [if_neg h]; exact .inl rfl
    · unfold State.busWrite
      rw [placeOf_descAddr _ hj, hn]
      by_cases h : j < s.params.descCap
      · rw [if_pos h]; exact .inr ⟨hb, .inr (.inr (.inr (.inr (.inr (.inr ⟨j, h, hj, rfl⟩)))))⟩
      · rw [if_neg h]; exact .inl rfl

end Sys2Proof.Machine
end

