-- ==== Sys2Proof/Laws/Transposer.lean ====
section
/-! SUPPORT. The transposer: bits and values, the loop of R85 against the slices of R81 to R83, counts, and the bits a
transposition keeps. -/

namespace Sys2Proof.Machine

@[simp] theorem length_bitsOf (m x : Nat) : (bitsOf m x).length = m := by
  induction m with
  | zero => rfl
  | succ m ih => simp [bitsOf, ih]

@[simp] theorem length_bitStream (m : Nat) (xs : List Nat) : (bitStream m xs).length = m * xs.length := by
  induction xs with
  | nil => rfl
  | cons x xs ih =>
    have : bitStream m (x :: xs) = bitsOf m x ++ bitStream m xs := rfl
    rw [this, List.length_append, ih, length_bitsOf, List.length_cons]; ring

theorem bitStream_append (m : Nat) (xs ys : List Nat) : bitStream m (xs ++ ys) = bitStream m xs ++ bitStream m ys := by
  simp [bitStream]

theorem bitsValue_append_one (bs : List Bool) (b : Bool) : bitsValue (bs ++ [b]) = 2 * bitsValue bs + b.toNat := by
  induction bs with
  | nil => simp [bitsValue]
  | cons c bs ih => simp only [List.cons_append, bitsValue, ih, List.length_append, List.length_singleton, pow_succ]; ring

theorem bitsValue_lt (bs : List Bool) : bitsValue bs < 2 ^ bs.length := by
  induction bs with
  | nil => simp [bitsValue]
  | cons b bs ih =>
    have : b.toNat ≤ 1 := Bool.toNat_le b
    simp only [bitsValue, List.length_cons, pow_succ]
    nlinarith [Nat.mul_le_mul_right (2 ^ bs.length) this]

/-- The bits of a value below 2^m give the value back. -/
theorem bitsValue_bitsOf (m x : Nat) : bitsValue (bitsOf m x) = x % 2 ^ m := by
  induction m with
  | zero => simp [bitsOf, bitsValue, Nat.mod_one]
  | succ m ih =>
    rw [bitsOf, bitsValue, ih, length_bitsOf, Nat.toNat_testBit, pow_succ, Nat.mod_mul]
    ring

theorem testBit_add_high {k v : Nat} (b : Bool) (hv : v < 2 ^ k) : (b.toNat * 2 ^ k + v).testBit k = b := by
  cases b
  · simpa using Nat.testBit_lt_two_pow hv
  · simp only [Bool.toNat_true, one_mul]
    rw [Nat.testBit_two_pow_add_eq, Nat.testBit_lt_two_pow hv]; rfl

theorem bitsOf_mod (m x y : Nat) (h : x % 2 ^ m = y % 2 ^ m) : bitsOf m x = bitsOf m y := by
  induction m with
  | zero => rfl
  | succ m ih =>
    rw [bitsOf, bitsOf]
    congr 1
    · have hx := Nat.testBit_mod_two_pow x (m + 1) m
      have hy := Nat.testBit_mod_two_pow y (m + 1) m
      rw [h] at hx
      simp only [Nat.lt_succ_self, decide_true, Bool.true_and] at hx hy
      rw [← hx, ← hy]
    · apply ih
      have := congrArg (· % 2 ^ m) h
      simpa [Nat.mod_mod_of_dvd _ (pow_dvd_pow 2 (Nat.le_succ m))] using this

/-- The value of a list of bits has those bits. -/
theorem bitsOf_bitsValue (bs : List Bool) : bitsOf bs.length (bitsValue bs) = bs := by
  induction bs with
  | nil => rfl
  | cons b bs ih =>
    rw [List.length_cons, bitsOf, bitsValue, testBit_add_high b (bitsValue_lt bs)]
    congr 1
    rw [bitsOf_mod bs.length _ (bitsValue bs), ih]
    rw [Nat.add_comm, Nat.add_mul_mod_self_right]

/-- The loop of R85 reads the stream of R81. -/
theorem foldl_push_eq (m n : Nat) (xs : List Nat) (t : TrLoop) :
    xs.foldl (fun t x => (bitsOf m x).foldl (TrLoop.push n) t) t = (bitStream m xs).foldl (TrLoop.push n) t := by
  induction xs generalizing t with
  | nil => rfl
  | cons x xs ih =>
    have : bitStream m (x :: xs) = bitsOf m x ++ bitStream m xs := rfl
    rw [List.foldl_cons, ih, this, List.foldl_append]

theorem div_mod_succ_full {n l : Nat} (hn : 1 ≤ n) (h : l % n + 1 = n) : (l + 1) / n = l / n + 1 ∧ (l + 1) % n = 0 := by
  have e : l + 1 = n * (l / n + 1) := by
    have := Nat.div_add_mod l n
    rw [Nat.mul_add, Nat.mul_one]; omega
  constructor
  · rw [e, Nat.mul_div_cancel_left _ (by omega)]
  · rw [e, Nat.mul_mod_right]

theorem div_mod_succ_part {n l : Nat} (hn : 1 ≤ n) (h : l % n + 1 ≠ n) :
    (l + 1) / n = l / n ∧ (l + 1) % n = l % n + 1 := by
  have hlt : l % n + 1 < n := by have := Nat.mod_lt l (by omega : n > 0); omega
  have e : l + 1 = n * (l / n) + (l % n + 1) := by have := Nat.div_add_mod l n; omega
  constructor
  · rw [e, Nat.mul_add_div (by omega), Nat.div_eq_of_lt hlt, Nat.add_zero]
  · rw [e, Nat.mul_add_mod, Nat.mod_eq_of_lt hlt]

/-- The complete groups of a stream (R82). -/
def groupsOf (n : Nat) (s : List Bool) : List Nat :=
  (List.range (s.length / n)).map fun j => bitsValue ((s.drop (j * n)).take n)

theorem group_le {n l j : Nat} (hj : j < l / n) : j * n + n ≤ l := by
  have : (j + 1) * n ≤ l / n * n := Nat.mul_le_mul_right n hj
  have := Nat.div_mul_le_self l n
  nlinarith

theorem groupsOf_append_left {n : Nat} (hn : 1 ≤ n) (s u : List Bool) {q : Nat} (hq : q ≤ s.length / n) :
    ((List.range q).map fun j => bitsValue (((s ++ u).drop (j * n)).take n)) =
      (List.range q).map fun j => bitsValue ((s.drop (j * n)).take n) := by
  apply List.map_congr_left
  intro j hj
  have hj : j < s.length / n := lt_of_lt_of_le (List.mem_range.mp hj) hq
  have := group_le hj
  rw [List.drop_append_of_le_length (by omega), List.take_append_of_le_length (by rw [List.length_drop]; omega)]

/-- The loop state of R85 after a stream: its complete groups, and its trailing bits. -/
theorem foldl_push_stream {n : Nat} (hn : 1 ≤ n) (s : List Bool) :
    s.foldl (TrLoop.push n) ⟨[], 0, 0⟩ =
      ⟨groupsOf n s, bitsValue (s.drop (s.length / n * n)), s.length % n⟩ := by
  induction s using List.reverseRecOn with
  | nil => simp [groupsOf, bitsValue]
  | append_singleton s b ih =>
    have hlen : s.length / n * n ≤ s.length := Nat.div_mul_le_self ..
    rw [List.foldl_append, ih, List.foldl_cons, List.foldl_nil, TrLoop.push]
    have hrest : (s ++ [b]).drop (s.length / n * n) = s.drop (s.length / n * n) ++ [b] :=
      List.drop_append_of_le_length hlen
    by_cases h : s.length % n + 1 = n
    · obtain ⟨hd, hm⟩ := div_mod_succ_full hn h
      have hlast : (s.drop (s.length / n * n) ++ [b]).take n = s.drop (s.length / n * n) ++ [b] := by
        apply List.take_of_length_le
        have := Nat.div_add_mod s.length n
        rw [List.length_append, List.length_drop, List.length_singleton, Nat.mul_comm]; omega
      have hall : (s ++ [b]).drop ((s.length / n + 1) * n) = [] := by
        apply List.drop_of_length_le
        have := Nat.div_add_mod s.length n
        rw [List.length_append, List.length_singleton, Nat.add_mul, Nat.mul_comm]; omega
      rw [if_pos h]
      simp only [groupsOf, List.length_append, List.length_singleton, hd, hm, List.range_succ, List.map_append,
        List.map_cons, List.map_nil, hall, bitsValue]
      rw [groupsOf_append_left hn s [b] le_rfl, hrest, hlast, bitsValue_append_one]
    · obtain ⟨hd, hm⟩ := div_mod_succ_part hn h
      rw [if_neg h]
      simp only [groupsOf, List.length_append, List.length_singleton, hd, hm]
      rw [groupsOf_append_left hn s [b] le_rfl, hrest, bitsValue_append_one]

/-- What the loop of R85 returns, by the stream. -/
theorem transpose_eq {n : Nat} (m : Nat) (hn : 1 ≤ n) (xs : List Nat) :
    transpose m n xs =
      ⟨groupsOf n (bitStream m xs),
        if (bitStream m xs).length % n > 0 then
          bitsValue ((bitStream m xs).drop ((bitStream m xs).length / n * n)) <<< (n - (bitStream m xs).length % n)
        else 0,
        (bitStream m xs).length % n⟩ := by
  unfold transpose
  rw [foldl_push_eq, foldl_push_stream hn]
  dsimp only
  split
  · rfl
  · next h => rw [Nat.eq_zero_of_not_pos h]

/-- The bits a transposition keeps, padded with zeros to whole groups: the groups, and the remainder as one more group
(R84, R94). -/
theorem bitStream_codes {n : Nat} (hn : 1 ≤ n) (s : List Bool) :
    bitStream n (groupsOf n s) = s.take (s.length / n * n) := by
  have key : ∀ q, q ≤ s.length / n →
      bitStream n ((List.range q).map fun j => bitsValue ((s.drop (j * n)).take n)) = s.take (q * n) := by
    intro q
    induction q with
    | zero => intro _; simp [bitStream]
    | succ q ih =>
      intro hq
      have hle := group_le (show q < s.length / n by omega)
      rw [List.range_succ, List.map_append, bitStream_append, ih (by omega)]
      have hlen : ((s.drop (q * n)).take n).length = n := by
        rw [List.length_take, List.length_drop]; omega
      have : bitStream n ([q].map fun j => bitsValue ((s.drop (j * n)).take n)) = (s.drop (q * n)).take n := by
        have := bitsOf_bitsValue ((s.drop (q * n)).take n)
        rw [hlen] at this
        simp [bitStream, this]
      rw [this, Nat.add_mul, Nat.one_mul, List.take_add]
  exact key _ le_rfl

theorem bitsOf_shift (k : Nat) (bs : List Bool) :
    bitsOf (bs.length + k) (bitsValue bs <<< k) = bs ++ List.replicate k false := by
  have h : bitsValue (bs ++ List.replicate k false) = bitsValue bs <<< k := by
    induction k with
    | zero => simp
    | succ k ih =>
      rw [List.replicate_succ', ← List.append_assoc, bitsValue_append_one, ih]
      simp [Nat.shiftLeft_eq, pow_succ]; ring
  have := bitsOf_bitsValue (bs ++ List.replicate k false)
  rwa [h, List.length_append, List.length_replicate] at this

theorem groupsOf_length (n : Nat) (s : List Bool) : (groupsOf n s).length = s.length / n := by
  simp [groupsOf]

theorem groupsOf_lt (n : Nat) (s : List Bool) : ∀ g ∈ groupsOf n s, g < 2 ^ n := by
  intro g hg
  obtain ⟨j, hj, rfl⟩ := List.mem_map.mp hg
  refine lt_of_lt_of_le (bitsValue_lt _) (Nat.pow_le_pow_right (by omega) ?_)
  rw [List.length_take]; omega

theorem trailing_length {n : Nat} (s : List Bool) : (s.drop (s.length / n * n)).length = s.length % n := by
  rw [List.length_drop]
  have := Nat.div_add_mod s.length n
  rw [Nat.mul_comm]; omega

/-- The part group of a transposition, as a value of n bits. -/
theorem remainder_lt {n : Nat} (hn : 1 ≤ n) (s : List Bool) :
    (if s.length % n > 0 then bitsValue (s.drop (s.length / n * n)) <<< (n - s.length % n) else 0) < 2 ^ n := by
  split
  · have h1 := bitsValue_lt (s.drop (s.length / n * n))
    rw [trailing_length] at h1
    have h2 := Nat.mod_lt s.length (show n > 0 by omega)
    rw [Nat.shiftLeft_eq]
    calc _ < 2 ^ (s.length % n) * 2 ^ (n - s.length % n) := Nat.mul_lt_mul_of_pos_right h1 (by positivity)
      _ = 2 ^ n := by rw [← pow_add]; congr 1; omega
  · positivity

/-- Every bound of a transposition (R86). -/
theorem transpose_bounds {n : Nat} (m : Nat) (hn : 1 ≤ n) (xs : List Nat) :
    (transpose m n xs).groups.length = m * xs.length / n ∧ (transpose m n xs).bitsRemaining = m * xs.length % n ∧
      (∀ g ∈ (transpose m n xs).groups, g < 2 ^ n) ∧ (transpose m n xs).remainder < 2 ^ n := by
  rw [transpose_eq m hn]
  refine ⟨?_, ?_, groupsOf_lt _ _, remainder_lt hn _⟩
  · simp [groupsOf_length]
  · simp

end Sys2Proof.Machine
end

