-- ==== Sys2Proof/Laws/Rules.lean ====
section
/-! SUPPORT. The rules of the commands: what each depends on, and the bounds of what it returns. -/

namespace Sys2Proof.Machine

/-- The elements of written words depend on those words only. -/
theorem memRead_congr {m m' : Memory} (n : Nat) : ∀ (a d d' : Nat), (∀ k, k < n → (m.get? (a + k)).isSome = true) →
    (∀ k, k < n → m'.get? (a + k) = m.get? (a + k)) → memRead m' a d' n = memRead m a d n := by
  induction n with
  | zero => intros; rfl
  | succ n ih =>
    intro a d d' h g
    unfold memRead
    have h0 := h 0 (by omega)
    have g0 := g 0 (by omega)
    rw [Nat.add_zero] at h0 g0
    congr 1
    · unfold elementAt; obtain ⟨v, hv⟩ := Option.isSome_iff_exists.mp h0; rw [g0, hv]
    · exact ih _ _ _ (fun k hk => by have := h (k + 1) (by omega); rwa [Nat.add_assoc, Nat.add_comm 1 k])
        (fun k hk => by have := g (k + 1) (by omega); rwa [Nat.add_assoc, Nat.add_comm 1 k])

/-- A check is followed only when it raises nothing. -/
theorem check_congr {c : Option Raise} {a b : Except Raise Result} (h : c = none → a = b) : check c a = check c b := by
  cases c with
  | none => exact h rfl
  | some e => rfl

/-- No element is out of range (R91, R104). -/
theorem rangeRaise_none {b : Nat} (vs : List Word) : ∀ i, rangeRaise b i vs = none ↔ ∀ v ∈ vs, v.toNat < b := by
  induction vs with
  | nil => simp [rangeRaise]
  | cons v vs ih =>
    intro i
    unfold rangeRaise
    split
    · simp; omega
    · simp [ih]; omega

/-- What a rule depends on: the parameters, CONFIG, WRAP, the lengths, and the elements it gets as far as reading. -/
theorem ruleOf_congr (i : Instr) {s t : State} (hp : t.params = s.params) (hc : t.config = s.config)
    (hw : t.wrap = s.wrap) (hi : t.inLen = s.inLen) (hd : t.descLen = s.descLen)
    (h1 : s.readsInput i → t.input = s.input) (h2 : s.readsDescriptor i → t.descriptor = s.descriptor) :
    ruleOf i t = ruleOf i s := by
  have e1 : t.inLenRaise = s.inLenRaise := by unfold State.inLenRaise; rw [hp, hi]
  have e2 : t.descLenRaise = s.descLenRaise := by unfold State.descLenRaise; rw [hp, hd, hc]
  have e3 : t.widthRaise = s.widthRaise := by unfold State.widthRaise; rw [hc]
  have e5 : t.fitting = s.fitting := by funext r; unfold State.fitting; rw [hp]
  have n1 : s.inLenRaise = none → s.inLen.toNat ≤ s.params.inCap := by
    unfold State.inLenRaise; split <;> simp; omega
  have n2 : s.descLenRaise = none → s.descFits := by
    intro h hd; unfold State.descLenRaise at h; split at h
    · cases h
    · next h' => exact Nat.le_of_not_lt fun hlt => h' ⟨hd, hlt⟩
  have n3 : s.widthRaise = none → s.config.trM ≠ 0#5 ∧ s.config.trN ≠ 0#5 := by
    intro h; unfold State.widthRaise at h; split at h
    · cases h
    · next h' => exact ⟨fun e => h' (.inl (by rw [e]; rfl)), fun e => h' (.inr (by rw [e]; rfl))⟩
  have sel : (s.config.descPresent = true → t.descriptor = s.descriptor) → t.selectDesc = s.selectDesc := by
    intro h; unfold State.selectDesc; rw [hc, hp]; split
    · next hp => rw [h hp]
    · rfl
  cases i <;> simp only [ruleOf]
  · unfold transposeRule; rw [e1, e3, e5, hc]
    exact check_congr fun a => check_congr fun b => by rw [h1 ⟨n1 a, n3 b⟩]
  · unfold encodeRule; rw [e1, e2, e5, hc, hp, hw]
    refine check_congr fun a => check_congr fun b => ?_
    have hr : s.readsInput (.encode ‹_›) := ⟨n1 a, fun ha => n2 (by rwa [if_pos ha] at b)⟩
    rw [h1 hr]
    refine check_congr fun c => ?_
    by_cases ha : s.config.armor = true
    · rw [sel fun hd => h2 ⟨hr, ha, hd, (rangeRaise_none _ _).mp c⟩]
    · simp only [if_neg ha]
  · unfold decodeRule; rw [e1, e5, hc, hp]; exact check_congr fun a => by rw [h1 (n1 a)]
  · unfold wrapRule; rw [e1, e5, hw]; exact check_congr fun a => by rw [h1 (n1 a)]
  · unfold armorRule; rw [e1, e2, e5, hp, hw]
    refine check_congr fun a => check_congr fun b => ?_
    have hr : s.readsInput (.armor ‹_›) := ⟨n1 a, n2 b⟩
    rw [h1 hr, sel fun hd => h2 ⟨hr, hd⟩]
  · unfold dearmorRule; rw [e1, e5, hp]; exact check_congr fun a => by rw [h1 (n1 a)]
  · rfl
  · rfl

/-- Where the operands are written, a rule takes nothing from the draws: it gives the same on every state with the same
parameters, CONFIG, WRAP, lengths, and words of IN_BUF and DESC_BUF. -/
theorem ruleOf_operandsWritten {i : Instr} {s t : State} (h : s.operandsWritten i) (hp : t.params = s.params)
    (hc : t.config = s.config) (hw : t.wrap = s.wrap) (hi : t.inLen = s.inLen) (hd : t.descLen = s.descLen)
    (g1 : s.readsInput i → ∀ k, k < s.inLen.toNat → t.mem.get? (inBase + k) = s.mem.get? (inBase + k))
    (g2 : s.readsDescriptor i → ∀ k, k < s.descLen.toNat → t.mem.get? (descBase + k) = s.mem.get? (descBase + k)) :
    ruleOf i t = ruleOf i s :=
  ruleOf_congr i hp hc hw hi hd
    (fun hr => by unfold State.input; rw [hi]; exact memRead_congr _ _ _ _ (h.1 hr) (g1 hr))
    (fun hr => by unfold State.descriptor; rw [hd]; exact memRead_congr _ _ _ _ (h.2 hr) (g2 hr))

/-- START changes nothing a command reads. -/
theorem operandsWritten_started {s : State} {i j : Instr} : (s.started j).operandsWritten i ↔ s.operandsWritten i := by
  cases i <;> rfl

/-- Every command that reads IN_BUF checks its length first (R143). -/
theorem ruleOf_length {i : Instr} {s : State} (h : s.params.inCap < s.inLen.toNat)
    (hi : ∀ ie, i ≠ .nop ie) (hi2 : ∀ ie, i ≠ .illegal7 ie) (hi3 : ∀ c ie, i ≠ .illegalHigh c ie) :
    ruleOf i s = .error ⟨.length, s.inLen.toNat, 0⟩ := by
  have e : s.inLenRaise = some ⟨.length, s.inLen.toNat, 0⟩ := if_pos h
  cases i <;> simp only [ruleOf]
  · exact absurd rfl (hi _)
  · unfold transposeRule; rw [e]; rfl
  · unfold encodeRule; rw [e]; rfl
  · unfold decodeRule; rw [e]; rfl
  · unfold wrapRule; rw [e]; rfl
  · unfold armorRule; rw [e]; rfl
  · unfold dearmorRule; rw [e]; rfl
  · exact absurd rfl (hi2 _)
  · exact absurd rfl (hi3 _ _)

/-- No rule returns more than OUT_CAP elements (R144). -/
theorem ruleOf_fits {i : Instr} {s : State} {r : Result} (h : ruleOf i s = .ok r) : r.out.length ≤ s.params.outCap := by
  cases i <;> simp only [ruleOf] at h
  · cases h; simp
  · unfold transposeRule at h
    obtain ⟨e, h'⟩ := State.fitting_ok (check_ok (check_ok (check_ok h).2).2).2; rw [e]; exact h'
  · unfold encodeRule at h
    obtain ⟨e, h'⟩ := State.fitting_ok (check_ok (check_ok (check_ok h).2).2).2; rw [e]; exact h'
  · unfold decodeRule at h
    have h := (check_ok h).2
    split at h
    · cases h
    · obtain ⟨e, h'⟩ := State.fitting_ok h; rw [e]; exact h'
  · unfold wrapRule at h
    obtain ⟨e, h'⟩ := State.fitting_ok (check_ok h).2; rw [e]; exact h'
  · unfold armorRule at h
    obtain ⟨e, h'⟩ := State.fitting_ok (check_ok (check_ok h).2).2; rw [e]; exact h'
  · unfold dearmorRule at h
    obtain ⟨e, h'⟩ := State.fitting_ok (check_ok h).2; rw [e]; exact h'
  · cases h
  · cases h

/-- The first element out of range (R91, R104). -/
theorem rangeRaise_some {b : Nat} (vs : List Word) : ∀ i k v, vs[k]? = some v → b ≤ v.toNat →
    (∀ j u, j < k → vs[j]? = some u → u.toNat < b) → rangeRaise b i vs = some ⟨.valueRange, v.toNat, i + k⟩ := by
  induction vs with
  | nil => intro i k v h; simp at h
  | cons x vs ih =>
    intro i k v h hv hj
    unfold rangeRaise
    cases k with
    | zero => simp at h; subst h; rw [if_pos hv]; rfl
    | succ k =>
      have := hj 0 x (by omega) rfl
      rw [if_neg (by omega), ih (i + 1) k v (by simpa using h) hv (fun j u hlt hs => hj (j + 1) u (by omega) (by simpa using hs))]
      congr 2; omega

theorem memRead_length (m : Memory) (n : Nat) : ∀ a d, (memRead m a d n).length = n := by
  induction n with
  | zero => intros; rfl
  | succ n ih => intro a d; simp [memRead, ih]

@[simp] theorem State.length_input (s : State) : s.input.length = s.inLen.toNat := memRead_length ..

theorem State.inLenRaise_none {s : State} (h : s.inLen.toNat ≤ s.params.inCap) : s.inLenRaise = none := if_neg (by omega)

theorem State.fitting_fits {s : State} {r : Result} (h : r.out.length ≤ s.params.outCap) : s.fitting r = .ok r := if_neg (by omega)
theorem State.fitting_overflows {s : State} {r : Result} (h : s.params.outCap < r.out.length) :
    s.fitting r = .error ⟨.outOverflow, r.out.length, 0⟩ := if_pos h

end Sys2Proof.Machine
end

