-- ==== Sys2Proof/Laws/Framer.lean ====
section
/-! SUPPORT. The framer: the lines of a wrapped string, the envelope of an armored one, and what trimming removes. -/

namespace Sys2Proof.Machine

theorem wrapFrom_shift {w : Nat} (cs : List Word) : ∀ i, 0 < i → wrapFrom w (i + w) cs = wrapFrom w i cs := by
  induction cs with
  | nil => intros; rfl
  | cons c cs ih =>
    intro i hi
    unfold wrapFrom
    rw [show i + w + 1 = i + 1 + w by omega, ih (i + 1) (by omega), Nat.add_mod_right]
    simp only [hi, show i + w > 0 by omega]

theorem wrapFrom_within {w : Nat} (r : Nat) : ∀ (i : Nat) (s : List Word),
    (∀ k, k < r → ¬ (i + k > 0 ∧ (i + k) % w = 0)) → wrapFrom w i s = s.take r ++ wrapFrom w (i + r) (s.drop r) := by
  induction r with
  | zero => intros; simp
  | succ r ih =>
    intro i s h
    cases s with
    | nil => simp [wrapFrom]
    | cons c cs =>
      have h0 := h 0 (by omega)
      rw [Nat.add_zero] at h0
      rw [wrapFrom, if_neg h0, ih (i + 1) cs (fun k hk => by have := h (k + 1) (by omega); rwa [show i + 1 + k = i + (k + 1) by omega])]
      rw [List.take_succ_cons, List.drop_succ_cons, List.cons_append, show i + 1 + r = i + (r + 1) by omega]

/-- The wrapper by lines (R105, R106): the first W characters, then a line break and the rest. -/
theorem wrapLines_step {w : Nat} (hw : 0 < w) (s : List Word) :
    wrapLines s w = if s.length ≤ w then s else s.take w ++ lf :: wrapLines (s.drop w) w := by
  have h0 : ∀ t, wrapLines t w = wrapFrom w 0 t := fun t => if_neg (by omega)
  rw [h0, h0, wrapFrom_within w 0 s (fun k hk => by rw [Nat.zero_add, Nat.mod_eq_of_lt hk]; omega), Nat.zero_add]
  split
  · next h => rw [List.drop_of_length_le h, List.take_of_length_le h]; simp [wrapFrom]
  · next h =>
    congr 1
    cases hd : s.drop w with
    | nil => have := congrArg List.length hd; rw [List.length_drop] at this; simp at this; omega
    | cons c cs =>
      rw [wrapFrom, if_pos ⟨hw, Nat.mod_self w⟩, wrapFrom, if_neg (by omega), Nat.add_comm w 1, wrapFrom_shift _ _ (by omega)]

theorem wrapLines_zero (s : List Word) : wrapLines s 0 = s := rfl

theorem ceil_step {n w : Nat} (hw : 0 < w) (h : w < n) : (n + w - 1) / w = (n - w + w - 1) / w + 1 := by
  rw [show n + w - 1 = n - w + w - 1 + w by omega, Nat.add_div_right _ hw]

/-- The length of a wrapped string (R106). -/
theorem length_wrapLines {w : Nat} (hw : 0 < w) : ∀ (n : Nat) (s : List Word), s.length = n → s ≠ [] →
    (wrapLines s w).length = n + (n + w - 1) / w - 1 := by
  intro n
  induction n using Nat.strong_induction_on with
  | _ n ih =>
    intro s hn hs
    have hpos : 0 < s.length := List.length_pos_iff.mpr hs
    rw [wrapLines_step hw]
    split
    · next h => rw [show (n + w - 1) / w = 1 from Nat.div_eq_of_lt_le (by omega) (by omega)]; omega
    · next h =>
      have hd : (s.drop w).length = n - w := by rw [List.length_drop, hn]
      rw [List.length_append, List.length_cons, ih (n - w) (by omega) _ hd (by intro h0; rw [h0] at hd; simp at hd; omega),
        List.length_take, ceil_step (n := n) hw (by omega)]
      have : (n - w + w - 1) / w ≥ 1 := Nat.div_pos (by omega) hw
      omega

/-- The elements of a wrapped string (R105). -/
theorem getElem?_wrapLines {w : Nat} (hw : 0 < w) : ∀ (n : Nat) (s : List Word) (j : Nat), s.length = n →
    j < (wrapLines s w).length →
    (wrapLines s w)[j]? = if (j + 1) % (w + 1) = 0 then some lf else s[j - j / (w + 1)]? := by
  intro n
  induction n using Nat.strong_induction_on with
  | _ n ih =>
    intro s j hn hj
    rw [wrapLines_step hw] at hj ⊢
    by_cases h : s.length ≤ w
    · rw [if_pos h] at hj ⊢
      rw [if_neg (by rw [Nat.mod_eq_of_lt (by omega)]; omega), Nat.div_eq_of_lt (by omega), Nat.sub_zero]
    · rw [if_neg h] at hj ⊢
      have ht : (s.take w).length = w := by rw [List.length_take]; omega
      rcases Nat.lt_trichotomy j w with h1 | h1 | h1
      · rw [List.getElem?_append_left (by omega), List.getElem?_take_of_lt h1,
          if_neg (by rw [Nat.mod_eq_of_lt (by omega)]; omega), Nat.div_eq_of_lt (by omega), Nat.sub_zero]
      · subst h1
        rw [List.getElem?_append_right (by omega), ht, Nat.sub_self, List.getElem?_cons_zero, if_pos (Nat.mod_self _)]
      · obtain ⟨k, rfl⟩ : ∃ k, j = k + (w + 1) := ⟨j - (w + 1), by omega⟩
        rw [List.getElem?_append_right (by omega), ht, show k + (w + 1) - w = k + 1 by omega, List.getElem?_cons_succ,
          ih (s.drop w).length (by rw [List.length_drop]; omega) _ _ rfl (by
            rw [List.length_append, ht, List.length_cons] at hj; omega)]
        rw [show k + (w + 1) + 1 = k + 1 + (w + 1) by omega, Nat.add_mod_right, Nat.add_div_right _ (by omega)]
        have hk : k / (w + 1) ≤ k := Nat.div_le_self _ _
        rw [List.getElem?_drop, show w + (k - k / (w + 1)) = k + (w + 1) - (k / (w + 1) + 1) by omega]

/-- Without its line breaks a wrapped string is the string again (R107). -/
theorem filter_wrapLines (w : Nat) : ∀ (n : Nat) (s : List Word), s.length = n → lf ∉ s →
    (wrapLines s w).filter (· != lf) = s := by
  have hf : ∀ s : List Word, lf ∉ s → s.filter (· != lf) = s := by
    intro s hs
    rw [List.filter_eq_self]
    intro a ha
    simpa using fun h : a = lf => hs (h ▸ ha)
  intro n
  induction n using Nat.strong_induction_on with
  | _ n ih =>
    intro s hn hs
    by_cases hw : 0 < w
    · rw [wrapLines_step hw]
      split
      · exact hf s hs
      · next h =>
        have h1 : lf ∉ s.drop w := fun hm => hs (List.mem_of_mem_drop hm)
        have h2 : lf ∉ s.take w := fun hm => hs (List.mem_of_mem_take hm)
        rw [List.filter_append, List.filter_cons_of_neg (by simp), hf _ h2,
          ih (s.drop w).length (by rw [List.length_drop]; omega) _ rfl h1, List.take_append_drop]
    · rw [show w = 0 by omega, wrapLines_zero]; exact hf s hs

/-- Line(c, W) of R111 with the margins in natural numbers. -/
theorem centred_eq (mark : Word) (c : List Word) (w : Nat) :
    centred mark c w = List.replicate ((w - c.length) / 2) mark ++ c ++ List.replicate ((w - c.length + 1) / 2) mark := by
  unfold centred
  have h1 : (((w : Int) - c.length) / 2).toNat = (w - c.length) / 2 := by omega
  have h2 : (((w : Int) - c.length + 1) / 2).toNat = (w - c.length + 1) / 2 := by omega
  dsimp only
  rw [h1, h2]

theorem descBound_eq (w : Nat) : descBound w = w / 2 - 2 := by unfold descBound; omega

/-- The first line break of a text that has a line without one before it (R116). -/
theorem findIdx_lf {h rest : List Word} (hh : lf ∉ h) : (h ++ lf :: rest).findIdx (· == lf) = h.length := by
  induction h with
  | nil => simp [List.findIdx_cons]
  | cons c h ih =>
    have h1 : c ≠ lf := fun e => hh (by simp [e])
    have h2 : (c == lf) = false := by simp [h1]
    rw [List.cons_append, List.findIdx_cons, h2, ih (fun e => hh (by simp [e]))]
    simp

/-- A text with a line break splits at the first one. -/
theorem split_first {t : List Word} (h : lf ∈ t) : ∃ a b, t = a ++ lf :: b ∧ lf ∉ a := by
  induction t with
  | nil => simp at h
  | cons c t ih =>
    by_cases hc : c = lf
    · exact ⟨[], t, by rw [hc]; rfl, by simp⟩
    · obtain ⟨a, b, rfl, ha⟩ := ih (by simpa [Ne.symm hc] using h)
      exact ⟨c :: a, b, rfl, by simp [ha, Ne.symm hc]⟩

theorem split_last {t : List Word} (h : lf ∈ t) : ∃ a b, t = a ++ lf :: b ∧ lf ∉ b := by
  obtain ⟨a, b, e, ha⟩ := split_first (t := t.reverse) (by simpa using h)
  refine ⟨b.reverse, a.reverse, ?_, by simpa using ha⟩
  rw [← List.reverse_reverse t, e]; simp

/-- The lines and the body of a text with two line breaks, as `dearmor` cuts them. -/
theorem dearmor_cut {h body f : List Word} (hh : lf ∉ h) (hf : lf ∉ f) (r : Rom) :
    dearmor r (h ++ [lf] ++ body ++ [lf] ++ f) =
      if envelopeLines r h f then ⟨h.length + 1, h.length + 1 + body.length, true⟩
      else ⟨0, (h ++ [lf] ++ body ++ [lf] ++ f).length, false⟩ := by
  have h1 : (h ++ [lf] ++ body ++ [lf] ++ f).findIdx (· == lf) = h.length := by
    have := findIdx_lf (rest := body ++ [lf] ++ f) hh
    simpa using this
  have h2 : (h ++ [lf] ++ body ++ [lf] ++ f).reverse.findIdx (· == lf) = f.length := by
    have := findIdx_lf (h := f.reverse) (rest := body.reverse ++ [lf] ++ h.reverse) (by simpa using hf)
    simpa using this
  have h3 : (h ++ [lf] ++ body ++ [lf] ++ f).length - 1 - f.length = h.length + 1 + body.length := by simp; omega
  have h4 : 2 ≤ (h ++ [lf] ++ body ++ [lf] ++ f).count lf := by simp [List.count_append]; omega
  have h5 : (h ++ [lf] ++ body ++ [lf] ++ f).take h.length = h := by simp [List.append_assoc]
  have h6 : (h ++ [lf] ++ body ++ [lf] ++ f).drop (h.length + 1 + body.length + 1) = f := by
    rw [show h.length + 1 + body.length + 1 = (h ++ [lf] ++ body ++ [lf]).length by simp; omega]
    exact List.drop_left
  unfold dearmor
  dsimp only
  rw [h1, h2, h3, h5, h6]
  simp only [h4, true_and]

/-- A text with fewer than two line breaks has no envelope (R116). -/
theorem dearmor_few {t : List Word} (h : t.count lf < 2) (r : Rom) : dearmor r t = ⟨0, t.length, false⟩ := by
  unfold dearmor
  dsimp only
  rw [if_neg (by omega)]

theorem slice_body (h body f : List Word) :
    slice (h ++ [lf] ++ body ++ [lf] ++ f) (h.length + 1) (h.length + 1 + body.length) = body := by
  unfold slice
  rw [show h ++ [lf] ++ body ++ [lf] ++ f = (h ++ [lf] ++ body) ++ ([lf] ++ f) by simp,
    show h.length + 1 + body.length = (h ++ [lf] ++ body).length by simp; omega, List.take_left,
    show h.length + 1 = (h ++ [lf]).length by simp, List.drop_left]

/-- A text with two line breaks has a header line, a body and a footer line. -/
theorem split_lines {t : List Word} (h : 2 ≤ t.count lf) :
    ∃ hd body f, t = hd ++ [lf] ++ body ++ [lf] ++ f ∧ lf ∉ hd ∧ lf ∉ f := by
  obtain ⟨a, b, rfl, ha⟩ := split_first (List.count_pos_iff.mp (show 0 < t.count lf by omega))
  have hb : lf ∈ b := by
    rw [List.count_append, List.count_cons_self, List.count_eq_zero.mpr ha] at h
    exact List.count_pos_iff.mp (by omega)
  obtain ⟨c, d, rfl, hd⟩ := split_last hb
  exact ⟨a, c, d, by simp, ha, hd⟩

/-- trail of a line that ends in markers after a symbol that is none (R116). -/
theorem trailRun_marker {mark x : Word} (hx : x ≠ mark) (pre : List Word) (k : Nat) :
    trailRun mark (pre ++ [x] ++ List.replicate k mark) = k := by
  unfold trailRun
  rw [List.reverse_append, List.reverse_append, List.reverse_replicate]
  have : (List.replicate k mark ++ ([x].reverse ++ pre.reverse)).takeWhile (· == mark) = List.replicate k mark := by
    rw [List.takeWhile_append_of_pos (by intro a ha; simp [List.eq_of_mem_replicate ha])]
    simp [hx]
  rw [this, List.length_replicate]

theorem split_trail {mark : Word} (h : List Word) :
    ∃ pre, h = pre ++ List.replicate (trailRun mark h) mark ∧ pre.length = h.length - trailRun mark h := by
  have e := List.takeWhile_append_dropWhile (p := (· == mark)) (l := h.reverse)
  have e2 : h.reverse.takeWhile (· == mark) = List.replicate (trailRun mark h) mark := by
    rw [List.eq_replicate_iff]
    exact ⟨rfl, fun b hb => by simpa using List.mem_takeWhile_imp hb⟩
  refine ⟨(h.reverse.dropWhile (· == mark)).reverse, ?_, ?_⟩
  · have := congrArg List.reverse e
    rw [List.reverse_append, e2, List.reverse_replicate, List.reverse_reverse] at this
    exact this.symm
  · have := congrArg List.length e
    rw [List.length_append, List.length_reverse] at this
    unfold trailRun
    rw [List.length_reverse]; omega

theorem trailRun_le (mark : Word) (h : List Word) : trailRun mark h ≤ h.length := by
  obtain ⟨pre, e, _⟩ := split_trail (mark := mark) h
  have := congrArg List.length e
  simp at this; omega

theorem all_mark {mark : Word} {xs : List Word} : xs.all (· == mark) = true ↔ xs = List.replicate xs.length mark := by
  rw [List.all_eq_true, List.eq_replicate_iff]
  simp

/-- A line of the form of R116 seen from its end: the marker stands before the trailing markers. -/
theorem line_split {mark x : Word} {h : List Word} (hlt : trailRun mark h < h.length)
    (hx : h[h.length - trailRun mark h - 1]? = some x) :
    h = h.take (h.length - trailRun mark h - 1) ++ [x] ++ List.replicate (trailRun mark h) mark := by
  obtain ⟨pre, e, hl⟩ := split_trail (mark := mark) h
  generalize trailRun mark h = k at *
  have hne : pre ≠ [] := by intro h0; rw [h0] at hl; simp at hl; omega
  have hlast := List.dropLast_append_getLast hne
  have hi : h[h.length - k - 1]? = some (pre.getLast hne) := by
    conv_lhs => rw [e]
    rw [List.getElem?_append_left (by rw [List.length_append, List.length_replicate]; omega)]
    rw [← List.getLast?_eq_some_getLast hne, List.getLast?_eq_getElem?]
    congr 1
    rw [List.length_append, List.length_replicate]; omega
  rw [hi] at hx
  cases hx
  have ht : h.take (h.length - k - 1) = pre.dropLast := by
    conv_lhs => rw [e]
    rw [List.take_append_of_le_length (by rw [List.length_append, List.length_replicate]; omega), List.dropLast_eq_take]
    congr 1
    rw [List.length_append, List.length_replicate]; omega
  rw [ht, hlast]; exact e

/-- The computable test of R116 on two lines is the pattern of R116. -/
theorem envelopeLines_iff {r : Rom} (hb : r.begin ≠ r.mark) (he : r.fin ≠ r.mark) (h f : List Word) :
    envelopeLines r h f = true ↔ ∃ (l xh xf : Nat) (d : List Word), xh ≤ 1 ∧ xf ≤ 1 ∧
      h = List.replicate l r.mark ++ d ++ [r.begin] ++ List.replicate (l + xh) r.mark ∧
      f = List.replicate l r.mark ++ d ++ [r.fin] ++ List.replicate (l + xf) r.mark := by
  constructor
  · intro hm
    unfold envelopeLines at hm
    dsimp only at hm
    simp only [Bool.and_eq_true, decide_eq_true_eq, beq_iff_eq, List.any_eq_true, Bool.or_eq_true] at hm
    obtain ⟨⟨⟨⟨h1, h2⟩, h3⟩, h4⟩, l, hl, ⟨⟨h5, h6⟩, h7⟩, h8⟩ := hm
    have hl' : l = trailRun r.mark h ∨ l + 1 = trailRun r.mark h := by
      split at hl
      · next h0 => simp at hl; omega
      · simp at hl; omega
    have sh := line_split h1 h2
    have sf := line_split h3 h4
    have hlh := trailRun_le r.mark h
    have hlf := trailRun_le r.mark f
    generalize trailRun r.mark h = b at *
    generalize trailRun r.mark f = c at *
    -- the left run ends before the marker
    have short : ∀ (x : Word) (g : List Word) (k : Nat), x ≠ r.mark → k < g.length → g = g.take (g.length - k - 1) ++ [x] ++ List.replicate k r.mark →
        (g.take l).all (· == r.mark) = true → l ≤ g.length - k - 1 := by
      intro x g k hx hk e ha
      by_contra hc
      have hg : g[g.length - k - 1]? = some x := by
        have hp : ∀ (p q : List Word), (p ++ [x] ++ q)[p.length]? = some x := by
          intro p q; rw [List.append_assoc, List.getElem?_append_right le_rfl, Nat.sub_self]; rfl
        have := hp (g.take (g.length - k - 1)) (List.replicate k r.mark)
        rwa [← e, List.length_take, Nat.min_eq_left (by omega)] at this
      have : x ∈ g.take l := by
        rw [List.mem_iff_getElem?]
        exact ⟨g.length - k - 1, by rw [List.getElem?_take_of_lt (by omega), hg]⟩
      rw [List.all_eq_true] at ha
      exact hx (by simpa using ha x this)
    have lh := short r.begin h b hb h1 sh h6
    have lf' := short r.fin f c he h3 sf h7
    have part : ∀ (g : List Word) (k : Nat), k < g.length → l ≤ g.length - k - 1 → (g.take l).all (· == r.mark) = true →
        g.take (g.length - k - 1) = List.replicate l r.mark ++ slice g l (g.length - k - 1) := by
      intro g k hk hle ha
      unfold slice
      have := all_mark.mp ha
      rw [List.length_take, Nat.min_eq_left (by omega)] at this
      rw [← this]
      have e := List.take_append_drop l (g.take (g.length - k - 1))
      rw [List.take_take, Nat.min_eq_left hle] at e
      exact e.symm
    refine ⟨l, b - l, c - l, slice h l (h.length - b - 1), by omega, by omega, ?_, ?_⟩
    · rw [← part h b h1 lh h6, show l + (b - l) = b by omega]; exact sh
    · rw [h8, ← part f c h3 lf' h7, show l + (c - l) = c by omega]; exact sf
  · rintro ⟨l, xh, xf, d, hxh, hxf, rfl, rfl⟩
    have t1 := trailRun_marker hb (List.replicate l r.mark ++ d) (l + xh)
    have t2 := trailRun_marker he (List.replicate l r.mark ++ d) (l + xf)
    unfold envelopeLines
    dsimp only
    rw [t1, t2]
    have n1 : ∀ (x : Word) (k : Nat), (List.replicate l r.mark ++ d ++ [x] ++ List.replicate k r.mark).length - k - 1 = l + d.length := by
      intro x k; simp; omega
    have g1 : ∀ (x : Word) (k : Nat), (List.replicate l r.mark ++ d ++ [x] ++ List.replicate k r.mark)[l + d.length]? = some x := by
      intro x k
      rw [List.append_assoc, List.getElem?_append_right (by simp)]; simp
    have g2 : ∀ (x : Word) (k : Nat), (List.replicate l r.mark ++ d ++ [x] ++ List.replicate k r.mark).take l = List.replicate l r.mark := by
      intro x k; simp [List.append_assoc]
    have g3 : ∀ (x : Word) (k : Nat), slice (List.replicate l r.mark ++ d ++ [x] ++ List.replicate k r.mark) l (l + d.length) = d := by
      intro x k
      unfold slice
      rw [List.append_assoc, List.take_left' (by simp), List.drop_left' (by simp)]
    rw [n1, n1, g1, g1]
    simp only [Bool.and_eq_true, decide_eq_true_eq, beq_iff_eq, List.any_eq_true, Bool.or_eq_true]
    refine ⟨⟨⟨⟨by simp; omega, trivial⟩, by simp; omega⟩, trivial⟩, l, ?_, ⟨⟨by omega, ?_⟩, ?_⟩, by rw [g3, g3]⟩
    · split <;> simp <;> omega
    · rw [g2]; simp
    · rw [g2]; simp

/-- What WF_ROM (R40) says of the markers. -/
theorem Rom.marks_facts {r : Rom} {trim : List Word} (h : r.wellFormed trim = true) :
    r.begin ≠ r.mark ∧ r.fin ≠ r.mark ∧ r.mark ≠ lf ∧ r.begin ≠ lf ∧ r.fin ≠ lf ∧
      r.mark ∉ trim ∧ r.begin ∉ trim ∧ r.fin ∉ trim := by
  unfold Rom.wellFormed at h
  simp only [Bool.and_eq_true] at h
  obtain ⟨⟨⟨⟨⟨-, -⟩, h3⟩, -⟩, h5⟩, -⟩ := h
  unfold Rom.marksDistinct Rom.armorMarks at h3
  unfold Rom.symbolsKept at h5
  rw [List.all_eq_true] at h5
  have k : ∀ c ∈ r.armorMarks, c ≠ lf ∧ c ∉ trim := by
    intro c hc
    have := h5 c (by unfold Rom.allSymbols; simp [hc])
    simpa using this
  simp [distinctWords] at h3
  have k1 := k r.mark (by simp [Rom.armorMarks])
  have k2 := k r.begin (by simp [Rom.armorMarks])
  have k3 := k r.fin (by simp [Rom.armorMarks])
  exact ⟨fun e => h3.1.1.1 e.symm, fun e => h3.1.1.2 e.symm, k1.1, k2.1, k3.1, k1.2, k2.2, k3.2⟩

/-- The matched region of a text of the form of R116 is its body. -/
theorem dearmor_envelope {r : Rom} {trim t body : List Word} (hr : r.wellFormed trim = true) (h : IsEnvelope r t body) :
    (dearmor r t).matched = true ∧ slice t (dearmor r t).lo (dearmor r t).hi = body := by
  obtain ⟨hb, he, m1, m2, m3, -⟩ := Rom.marks_facts hr
  obtain ⟨l, xh, xf, d, h1, h2, hd, rfl⟩ := h
  have nh : ∀ (x : Word) k, x ≠ lf → lf ∉ List.replicate l r.mark ++ d ++ [x] ++ List.replicate k r.mark := by
    intro x k hx hm
    simp only [List.mem_append, List.mem_replicate, List.mem_singleton] at hm
    rcases hm with ((⟨-, h⟩ | h) | h) | ⟨-, h⟩
    · exact m1 h.symm
    · exact hd h
    · exact hx h.symm
    · exact m1 h.symm
  have e := dearmor_cut (body := body) (nh r.begin (l + xh) m2) (nh r.fin (l + xf) m3) r
  rw [if_pos ((envelopeLines_iff hb he _ _).mpr ⟨l, xh, xf, d, h1, h2, rfl, rfl⟩)] at e
  have e0 : List.replicate l r.mark ++ d ++ [r.begin] ++ List.replicate (l + xh) r.mark ++ [lf] ++ body ++ [lf] ++
      List.replicate l r.mark ++ d ++ [r.fin] ++ List.replicate (l + xf) r.mark =
      List.replicate l r.mark ++ d ++ [r.begin] ++ List.replicate (l + xh) r.mark ++ [lf] ++ body ++ [lf] ++
      (List.replicate l r.mark ++ d ++ [r.fin] ++ List.replicate (l + xf) r.mark) := by simp only [List.append_assoc]
  rw [e0, e]
  exact ⟨rfl, slice_body _ _ _⟩

theorem dearmor_matched {r : Rom} {trim t : List Word} (hr : r.wellFormed trim = true)
    (h : (dearmor r t).matched = true) : ∃ body, IsEnvelope r t body := by
  obtain ⟨hb, he, -⟩ := Rom.marks_facts hr
  by_cases hc : 2 ≤ t.count lf
  · obtain ⟨hd, body, f, rfl, n1, n2⟩ := split_lines hc
    rw [dearmor_cut n1 n2] at h
    by_cases hv : envelopeLines r hd f = true
    · obtain ⟨l, xh, xf, d, h1, h2, rfl, rfl⟩ := (envelopeLines_iff hb he _ _).mp hv
      refine ⟨body, l, xh, xf, d, h1, h2, fun hm => n1 (by simp [hm]), by simp only [List.append_assoc]⟩
    · rw [if_neg hv] at h; cases h
  · rw [dearmor_few (by omega)] at h; cases h

theorem dearmor_unmatched {r : Rom} {t : List Word} (h : (dearmor r t).matched = false) :
    dearmor r t = ⟨0, t.length, false⟩ := by
  unfold dearmor at h ⊢
  dsimp only at h ⊢
  split at h
  · cases h
  · next hn => rw [if_neg hn]

theorem slice_all (t : List Word) : slice t 0 t.length = t := by simp [slice]

theorem length_slice_le (t : List Word) (a b : Nat) : (slice t a b).length ≤ t.length := by
  unfold slice; rw [List.length_drop, List.length_take]; omega

/-- The three parts trimming cuts a text into (R125). -/
theorem trim_parts (trim raw : List Word) :
    raw.take (trimBounds trim raw).1 = raw.takeWhile trim.contains ∧
    trimmed trim raw = ((raw.dropWhile trim.contains).reverse.dropWhile trim.contains).reverse ∧
    raw = raw.takeWhile trim.contains ++ trimmed trim raw ++ ((raw.dropWhile trim.contains).reverse.takeWhile trim.contains).reverse := by
  have e1 := List.takeWhile_append_dropWhile (p := trim.contains) (l := raw)
  have g1 : ∀ a b : List Word, a ++ b = raw → raw.drop a.length = b ∧ raw.take a.length = a := by
    rintro a b rfl; simp
  have g2 : ∀ a x y : List Word, a ++ (x ++ y) = raw → slice raw a.length (a.length + x.length) = x := by
    rintro a x y rfl; unfold slice; rw [List.take_append]; simp
  have e2 := congrArg List.reverse (List.takeWhile_append_dropWhile (p := trim.contains) (l := (raw.dropWhile trim.contains).reverse))
  rw [List.reverse_append, List.reverse_reverse] at e2
  have key : trimmed trim raw = ((raw.dropWhile trim.contains).reverse.dropWhile trim.contains).reverse := by
    unfold trimmed trimBounds
    dsimp only
    rw [(g1 _ _ e1).1]
    have := g2 _ _ _ (by rw [e2, e1])
    rwa [List.length_reverse] at this
  refine ⟨(g1 _ _ e1).2, key, ?_⟩
  rw [key, List.append_assoc, e2, e1]

theorem not_of_head?_dropWhile {p : Word → Bool} {l : List Word} {c : Word} (h : (l.dropWhile p).head? = some c) : p c = false := by
  have := List.head?_dropWhile_not p l
  rw [h] at this
  simpa using this

/-- What is left has no character of TRIM_SET at either end. -/
theorem trim_ends (trim raw : List Word) :
    (∀ c, (trimmed trim raw).head? = some c → c ∉ trim) ∧ ∀ c, (trimmed trim raw).getLast? = some c → c ∉ trim := by
  obtain ⟨-, k, -⟩ := trim_parts trim raw
  have e2 := congrArg List.reverse (List.takeWhile_append_dropWhile (p := trim.contains) (l := (raw.dropWhile trim.contains).reverse))
  rw [List.reverse_append, List.reverse_reverse, ← k] at e2
  constructor
  · intro c hc hm
    have : (raw.dropWhile trim.contains).head? = some c := by
      rw [← e2, List.head?_append, hc]; rfl
    have := not_of_head?_dropWhile this
    simp [hm] at this
  · intro c hc hm
    rw [k, List.getLast?_reverse] at hc
    have := not_of_head?_dropWhile hc
    simp [hm] at this

/-- A text with no character of TRIM_SET at either end is left as it is. -/
theorem trimmed_id {trim raw : List Word} (h1 : ∀ c, raw.head? = some c → c ∉ trim)
    (h2 : ∀ c, raw.getLast? = some c → c ∉ trim) : trimmed trim raw = raw := by
  obtain ⟨-, k, -⟩ := trim_parts trim raw
  have g : ∀ l : List Word, (∀ c, l.head? = some c → c ∉ trim) → l.dropWhile trim.contains = l := by
    intro l h
    cases l with
    | nil => rfl
    | cons c l => rw [List.dropWhile_cons_of_neg]; simpa using h c rfl
  rw [k, g raw h1, g raw.reverse (by simpa using h2), List.reverse_reverse]

theorem length_trimmed (trim raw : List Word) : (trimmed trim raw).length ≤ raw.length := length_slice_le _ _ _

theorem length_flatBody (t : List Word) (g : Region) : (flatBody t g).length ≤ t.length :=
  (List.length_filter_le _ _).trans (length_slice_le _ _ _)

/-- An armored text is an envelope around its wrapped body (R119). -/
theorem armorText_envelope (r : Rom) {flat desc : List Word} (w : Nat) (hd : lf ∉ desc) :
    IsEnvelope r (armorText r flat desc w) (wrapLines flat w) := by
  unfold armorText
  dsimp only
  generalize hdd : desc.take (descBound w) = d
  have hlf : lf ∉ d := by rw [← hdd]; exact fun h => hd (List.mem_of_mem_take h)
  rw [centred_eq, centred_eq]
  simp only [List.length_append, List.length_singleton]
  refine ⟨(w - (d.length + 1)) / 2, (w - (d.length + 1) + 1) / 2 - (w - (d.length + 1)) / 2,
    (w - (d.length + 1) + 1) / 2 - (w - (d.length + 1)) / 2, d, by omega, by omega, hlf, ?_⟩
  rw [show (w - (d.length + 1)) / 2 + ((w - (d.length + 1) + 1) / 2 - (w - (d.length + 1)) / 2) =
    (w - (d.length + 1) + 1) / 2 by omega]
  simp only [List.append_assoc]

/-- Neither end of an armored text is trimmed away (R119). -/
theorem trimmed_armorText {r : Rom} {trim : List Word} (hr : r.wellFormed trim = true) (flat desc : List Word) (w : Nat) :
    trimmed trim (armorText r flat desc w) = armorText r flat desc w := by
  obtain ⟨-, -, -, -, -, t1, t2, t3⟩ := Rom.marks_facts hr
  have hb := descBound_eq w
  have hlen : (desc.take (descBound w)).length ≤ w / 2 - 2 := by rw [List.length_take]; omega
  apply trimmed_id
  · intro c hc
    unfold armorText at hc
    dsimp only at hc
    generalize desc.take (descBound w) = d at *
    rw [centred_eq] at hc
    simp only [List.length_append, List.length_singleton] at hc
    by_cases hl : (w - (d.length + 1)) / 2 = 0
    · have hd : d = [] := List.eq_nil_of_length_eq_zero (by omega)
      subst hd
      rw [hl] at hc
      simp at hc
      exact hc ▸ t2
    · obtain ⟨k, hk⟩ := Nat.exists_eq_succ_of_ne_zero hl
      rw [hk, List.replicate_succ] at hc
      simp at hc
      exact hc ▸ t1
  · intro c hc
    unfold armorText at hc
    dsimp only at hc
    generalize desc.take (descBound w) = d at *
    rw [centred_eq (c := d ++ [r.fin])] at hc
    rw [← List.append_assoc, List.getLast?_append, List.getLast?_replicate] at hc
    split at hc
    · rw [Option.none_or, ← List.append_assoc, ← List.append_assoc, List.getLast?_concat] at hc
      exact Option.some.inj hc ▸ t3
    · simp at hc; exact hc ▸ t1

end Sys2Proof.Machine
end

