-- ==== Sys2Proof/Laws/Coder.lean ====
section
/-! SUPPORT. The encoder and the decoder: the flat string, lengths, placed characters, codes, and the way back. -/

namespace Sys2Proof.Machine

/-- The flat string by R94 to R96. -/
theorem flatString_eq (r : Rom) (t : Transposed) :
    flatString r t = t.groups.map (symAt r) ++
      (if t.bitsRemaining > 0 then [symAt r t.remainder, padAt r (10 - t.bitsRemaining)] else []) := by
  unfold flatString codesOf
  by_cases h : t.bitsRemaining > 0
  · simp [h]
  · simp [h]

/-- The loop is the slices (R85). -/
theorem bitsRemaining_8_10 (bs : List Nat) : (transpose 8 10 bs).bitsRemaining = 8 * bs.length % 10 :=
  (transpose_bounds 8 (by omega) bs).2.1

theorem length_flatString (r : Rom) (bs : List Nat) :
    (flatString r (transpose 8 10 bs)).length = 4 * bs.length / 5 + (if 8 * bs.length % 10 > 0 then 2 else 0) := by
  have hb := bitsRemaining_8_10 bs
  have hg := (transpose_bounds 8 (n := 10) (by omega) bs).1
  rw [flatString_eq, List.length_append, List.length_map, hb, hg]
  split <;> simp <;> omega

theorem length_centred (mark : Word) (c : List Word) (w : Nat) : (centred mark c w).length = max w c.length := by
  rw [centred_eq]; simp; omega

theorem length_armorText (r : Rom) (flat desc : List Word) (w : Nat) :
    (armorText r flat desc w).length =
      (if w = 0 then 1 else w) + 1 + (wrapLines flat w).length + 1 + (if w = 0 then 1 else w) := by
  have hb := descBound_eq w
  have hlen : (desc.take (descBound w)).length ≤ w / 2 - 2 := by rw [List.length_take]; omega
  unfold armorText
  dsimp only
  simp only [List.length_append, length_centred, List.length_singleton]
  split <;> omega

theorem present_eq (r : Rom) (flat : List Word) (a : Bool) (desc : List Word) (w : Nat) :
    present r flat a desc w = if a then armorText r flat desc w else wrapLines flat w := by
  unfold present
  split
  · rfl
  · split
    · rfl
    · rw [show w = 0 by omega]; rfl

theorem encodeBytes_out {r : Rom} {bs : List Nat} (h : bs ≠ []) (a : Bool) (desc : List Word) (w : Nat) :
    encodeBytes r bs a desc w =
      { out := if a then armorText r (flatString r (transpose 8 10 bs)) desc w else wrapLines (flatString r (transpose 8 10 bs)) w
        trRem := (transpose 8 10 bs).remainder, trBits := (transpose 8 10 bs).bitsRemaining } := by
  cases bs with
  | nil => exact absurd rfl h
  | cons b bs => unfold encodeBytes; dsimp only; rw [present_eq]

theorem length_wrapLines_le (s : List Word) (w : Nat) : (wrapLines s w).length ≤ 2 * s.length + w := by
  by_cases h : w = 0
  · rw [h, wrapLines_zero]; omega
  · by_cases h2 : s = []
    · rw [h2]; unfold wrapLines; split <;> simp [wrapFrom]
    · rw [length_wrapLines (by omega) _ _ rfl h2]
      have : (s.length + w - 1) / w ≤ s.length + w - 1 := Nat.div_le_self _ _
      omega
theorem State.descLenRaise_none {s : State} (h : s.config.descPresent = true → s.descLen.toNat ≤ s.params.descCap) :
    s.descLenRaise = none := if_neg (by rintro ⟨a, b⟩; have := h a; omega)

@[simp] theorem placeFrom_chars (cs : List Word) : ∀ i, (placeFrom i cs).map Placed.char = cs := by
  induction cs with
  | nil => intros; rfl
  | cons c cs ih => intro i; simp [placeFrom, ih]

theorem placeFrom_mem (cs : List Word) : ∀ i, ∀ q ∈ placeFrom i cs, i ≤ q.pos ∧ cs[q.pos - i]? = some q.char := by
  induction cs with
  | nil => intro i q hq; simp [placeFrom] at hq
  | cons c cs ih =>
    intro i q hq
    rcases List.mem_cons.mp hq with rfl | hq
    · simp
    · obtain ⟨h1, h2⟩ := ih (i + 1) q hq
      refine ⟨by omega, ?_⟩
      rw [show q.pos - i = (q.pos - (i + 1)) + 1 by omega, List.getElem?_cons_succ]; exact h2

theorem placeFrom_rising (cs : List Word) : ∀ i, (placeFrom i cs).Pairwise fun a b => a.pos < b.pos := by
  induction cs with
  | nil => intro i; exact List.Pairwise.nil
  | cons c cs ih =>
    intro i
    refine List.Pairwise.cons (fun q hq => ?_) (ih (i + 1))
    have := (placeFrom_mem cs (i + 1) q hq).1
    dsimp only; omega

theorem getElem?_slice (xs : List Word) (a b k : Nat) : (slice xs a b)[k]? = if a + k < b then xs[a + k]? else none := by
  unfold slice
  rw [List.getElem?_drop, List.getElem?_take]

/-- The placed characters of the flat body (R127). -/
theorem flatPlaced_chars (p : Params) (raw : List Word) :
    (flatPlaced p raw).1.map Placed.char = flatBody (trimmed p.trimSet raw) (dearmor p.rom (trimmed p.trimSet raw)) := by
  unfold flatPlaced flatBody
  dsimp only
  generalize (trimBounds p.trimSet raw).1 + (dearmor p.rom (trimmed p.trimSet raw)).lo = i
  generalize slice (trimmed p.trimSet raw) _ _ = cs
  conv_rhs => rw [← placeFrom_chars cs i, List.filter_map]
  rfl

/-- The characters of the body region stand in the raw input at their positions (R127). -/
theorem placed_pos (p : Params) (raw : List Word) (g : Region) :
    ∀ q ∈ placeFrom ((trimBounds p.trimSet raw).1 + g.lo) (slice (trimmed p.trimSet raw) g.lo g.hi),
      raw[q.pos]? = some q.char := by
  intro q hq
  obtain ⟨h1, h2⟩ := placeFrom_mem _ _ q hq
  rw [getElem?_slice] at h2
  split at h2
  · unfold trimmed at h2
    rw [getElem?_slice] at h2
    split at h2
    · rw [← h2]; congr 1; omega
    · cases h2
  · cases h2

theorem flatPlaced_pos (p : Params) (raw : List Word) : ∀ q ∈ (flatPlaced p raw).1, raw[q.pos]? = some q.char :=
  fun q hq => placed_pos p raw _ q (List.mem_of_mem_filter hq)

@[simp] theorem placeFrom_pos (cs : List Word) : ∀ i, (placeFrom i cs).map Placed.pos = List.range' i cs.length := by
  induction cs with
  | nil => intro i; rfl
  | cons c cs ih => intro i; simp [placeFrom, ih, List.range'_succ]

/-- The region of the dearmorer lies in its input (R115, R118). -/
theorem dearmor_hi (r : Rom) (t : List Word) : (dearmor r t).hi ≤ t.length := by
  unfold dearmor; dsimp only; split <;> dsimp only <;> omega

/-- The positions of P (R127). -/
theorem flatPlaced_positions (p : Params) (raw : List Word) :
    (flatPlaced p raw).1.map Placed.pos =
      (List.range' ((trimBounds p.trimSet raw).1 + (dearmor p.rom (trimmed p.trimSet raw)).lo)
        ((dearmor p.rom (trimmed p.trimSet raw)).hi - (dearmor p.rom (trimmed p.trimSet raw)).lo)).filter
          fun i => decide (raw[i]? ≠ some lf) := by
  have hh := dearmor_hi p.rom (trimmed p.trimSet raw)
  have hq := placed_pos p raw (dearmor p.rom (trimmed p.trimSet raw))
  unfold flatPlaced
  dsimp only
  generalize dearmor p.rom (trimmed p.trimSet raw) = g at *
  have hlen : (slice (trimmed p.trimSet raw) g.lo g.hi).length = g.hi - g.lo := by
    unfold slice; simp; omega
  rw [← hlen, ← placeFrom_pos, List.filter_map]
  congr 1
  refine List.filter_congr fun q h => ?_
  simp only [Function.comp, hq q h]
  by_cases h : q.char = lf <;> simp [h]

theorem flatPlaced_rising (p : Params) (raw : List Word) : (flatPlaced p raw).1.Pairwise fun a b => a.pos < b.pos := by
  unfold flatPlaced
  exact (placeFrom_rising _ _).filter _

/-- Step 5 with every character in the alphabet (R130). -/
theorem mapCodes_ok {r : Rom} {ps : List Placed} (h : ∀ q ∈ ps, (symIdx? r q.char).isSome = true) :
    mapCodes r ps = .ok (ps.filterMap fun q => symIdx? r q.char) := by
  induction ps with
  | nil => rfl
  | cons p ps ih =>
    have h0 := h p (by simp)
    obtain ⟨c, hc⟩ := Option.isSome_iff_exists.mp h0
    unfold mapCodes
    rw [hc, ih (fun q hq => h q (by simp [hq]))]
    simp [hc]

/-- Step 5 at the first character that is not in the alphabet (R130, R138). -/
theorem mapCodes_error {r : Rom} {pre post : List Placed} {q : Placed}
    (h : ∀ x ∈ pre, (symIdx? r x.char).isSome = true) (hq : symIdx? r q.char = none) :
    mapCodes r (pre ++ q :: post) = .error ⟨.invalidSymbol, q.char.toNat, q.pos⟩ := by
  induction pre with
  | nil => simp only [List.nil_append]; unfold mapCodes; rw [hq]
  | cons p ps ih =>
    obtain ⟨c, hc⟩ := Option.isSome_iff_exists.mp (h p (by simp))
    simp only [List.cons_append]
    unfold mapCodes
    rw [hc, ih (fun x hx => h x (by simp [hx]))]

/-- Steps 4 and 5 when they raise nothing (R129, R130). -/
theorem mapCodes_dropGarbage {r : Rom} {ig : Bool} {ps : List Placed}
    (h : ig = true ∨ ∀ q ∈ ps, (symIdx? r q.char).isSome = true) :
    mapCodes r (dropGarbage r ig ps) = .ok (ps.filterMap fun q => symIdx? r q.char) := by
  unfold dropGarbage
  by_cases hi : ig = true
  · rw [if_pos hi, mapCodes_ok (by intro q hq; simpa using (List.mem_filter.mp hq).2)]
    congr 1
    rw [List.filterMap_filter]
    congr 1; funext q
    cases symIdx? r q.char <;> simp
  · rw [if_neg hi]
    exact mapCodes_ok (h.resolve_left hi)

theorem depad_mem {r : Rom} {ps : List Placed} : ∀ q ∈ (depad r ps).2, q ∈ ps := by
  intro q hq
  unfold depad at hq
  split at hq
  · exact hq
  · split at hq
    · exact List.mem_of_mem_dropLast hq
    · exact hq

theorem padIdx_mem {r : Rom} {c : Word} {k : Nat} (h : padIdx? r c = some k) : k ∈ [2, 4, 6, 8] := by
  unfold padIdx? at h
  repeat' split at h
  all_goals first | (cases h; simp) | cases h

theorem depad_idx (r : Rom) (ps : List Placed) : (depad r ps).1 ∈ [0, 2, 4, 6, 8] := by
  unfold depad
  split
  · simp
  · split
    · next h => have := padIdx_mem h; simp at this ⊢; omega
    · simp

theorem length_dropArtifact (k : Nat) (bs : List Nat) : (dropArtifact k bs).length ≤ bs.length := by
  unfold dropArtifact; split <;> simp

/-- The rule of DECODE once its symbols are codes (R131 to R134). -/
theorem decodeRule_eq {s : State} (hl : s.inLen.toNat ≤ s.params.inCap) {codes : List Nat}
    (h : mapCodes s.params.rom (dropGarbage s.params.rom s.config.ignoreGarbage (depad s.params.rom (flatPlaced s.params s.input).1).2) = .ok codes) :
    decodeRule s =
      if s.config.fmt.toNat ≤ 1 then
        s.fitting { out := (dropArtifact (depad s.params.rom (flatPlaced s.params s.input).1).1 (transpose 10 8 codes).groups).map (BitVec.ofNat 32)
                    trRem := (transpose 10 8 codes).remainder, trBits := (transpose 10 8 codes).bitsRemaining
                    decPad := (depad s.params.rom (flatPlaced s.params s.input).1).1, armorMatch := (flatPlaced s.params s.input).2 }
      else .error ⟨.invalidFormat, s.config.fmt.toNat, 0⟩ := by
  unfold decodeRule decodeText
  rw [State.inLenRaise_none hl]
  dsimp only [check]
  rw [h]
  dsimp only
  by_cases hf : s.config.fmt.toNat ≤ 1
  · rw [if_pos (by omega), if_pos hf]
  · rw [if_neg (by omega), if_neg hf]

theorem distinctWords_nodup {l : List Word} (h : distinctWords l = true) : l.Nodup := by
  induction l with
  | nil => exact List.nodup_nil
  | cons w ws ih =>
    simp [distinctWords] at h
    exact List.nodup_cons.mpr ⟨h.1, ih h.2⟩

/-- What WF_ROM says of the symbols (R40). -/
theorem Rom.sym_facts {r : Rom} {trim : List Word} (h : r.wellFormed trim = true) :
    r.sym.toList.Nodup ∧ [r.pad2, r.pad4, r.pad6, r.pad8].Nodup ∧
      (∀ c ∈ r.sym.toList, c ∉ [r.pad2, r.pad4, r.pad6, r.pad8] ∧ c ≠ r.begin ∧ c ≠ r.mark ∧ c ≠ r.fin ∧ c ≠ lf ∧ c ∉ trim) ∧
      ∀ c ∈ [r.pad2, r.pad4, r.pad6, r.pad8], c ≠ r.begin ∧ c ≠ lf ∧ c ∉ trim := by
  unfold Rom.wellFormed at h
  simp only [Bool.and_eq_true] at h
  obtain ⟨⟨⟨⟨⟨h1, h2⟩, h3⟩, h4⟩, h5⟩, -⟩ := h
  unfold Rom.padsDistinct at h2
  unfold Rom.marksDistinct at h3
  unfold Rom.marksNotPads at h4
  unfold Rom.symbolsKept at h5
  simp only [Bool.and_eq_true, List.all_eq_true] at h2 h3 h4 h5
  have k : ∀ c ∈ r.allSymbols, c ≠ lf ∧ c ∉ trim := fun c hc => by simpa using h5 c hc
  refine ⟨distinctWords_nodup h1, distinctWords_nodup h2.1, fun c hc => ⟨fun hp => ?_, ?_, ?_, ?_, ?_⟩, fun c hc => ⟨?_, ?_⟩⟩
  · have := h2.2 c hp; simp at this; exact this (by simpa using hc)
  · rintro rfl; have := h3.2 r.begin (by simp [Rom.armorMarks]); simp at this; exact this (by simpa using hc)
  · rintro rfl; have := h3.2 r.mark (by simp [Rom.armorMarks]); simp at this; exact this (by simpa using hc)
  · rintro rfl; have := h3.2 r.fin (by simp [Rom.armorMarks]); simp at this; exact this (by simpa using hc)
  · exact k c (by unfold Rom.allSymbols; simp at hc ⊢; tauto)
  · rintro rfl; have := h4 r.begin (by simp [Rom.armorMarks]); simp [Rom.padSet] at this; simp at hc; tauto
  · exact k c (by unfold Rom.allSymbols Rom.padSet; simp at hc ⊢; tauto)

theorem symAt_eq {r : Rom} {c : Nat} (h : c < 1024) : r.sym.toList[c]? = some (symAt r c) := by
  unfold symAt
  have h2 : c < r.sym.toList.length := by simpa using h
  have h3 : c < r.sym.size := by simpa using h
  rw [List.getElem?_eq_getElem h2, Vector.getElem?_eq_getElem h3]
  simp

theorem symAt_mem {r : Rom} {c : Nat} (h : c < 1024) : symAt r c ∈ r.sym.toList :=
  List.mem_iff_getElem?.mpr ⟨c, symAt_eq h⟩

/-- A symbol's index is its code (R39, R95). -/
theorem symIdx_symAt {r : Rom} (hn : r.sym.toList.Nodup) {c : Nat} (h : c < 1024) : symIdx? r (symAt r c) = some c := by
  unfold symIdx?
  rw [List.findIdx?_eq_some_iff_getElem]
  have h2 : c < r.sym.toList.length := by simpa using h
  have e := symAt_eq (r := r) h
  rw [List.getElem?_eq_getElem h2] at e
  refine ⟨h2, by simpa using Option.some.inj e, fun j hj => ?_⟩
  intro he
  have he' : r.sym.toList[j] = symAt r c := by simpa using he
  rw [← Option.some.inj e] at he'
  have := (List.Nodup.getElem_inj_iff hn).mp he'
  omega

theorem padIdx_padAt {r : Rom} (hn : [r.pad2, r.pad4, r.pad6, r.pad8].Nodup) {k : Nat} (h : k ∈ [2, 4, 6, 8]) :
    padIdx? r (padAt r k) = some k := by
  simp at hn h
  obtain ⟨⟨a, b, c⟩, ⟨d, e⟩, f⟩ := hn
  rcases h with rfl | rfl | rfl | rfl
  · simp [padIdx?, padAt]
  · simp [padIdx?, padAt, Ne.symm a]
  · simp [padIdx?, padAt, Ne.symm b, Ne.symm d]
  · simp [padIdx?, padAt, Ne.symm c, Ne.symm e, Ne.symm f]

theorem padAt_mem (r : Rom) {k : Nat} (h : k ∈ [2, 4, 6, 8]) : padAt r k ∈ [r.pad2, r.pad4, r.pad6, r.pad8] := by
  simp at h
  rcases h with rfl | rfl | rfl | rfl <;> simp [padAt]

theorem padIdx_none {r : Rom} {c : Word} (h : c ∉ [r.pad2, r.pad4, r.pad6, r.pad8]) : padIdx? r c = none := by
  simp at h
  simp [padIdx?, h]

/-- IDX is absent exactly outside SYM (R39). -/
theorem symIdx_none_iff {r : Rom} {c : Word} : symIdx? r c = none ↔ c ∉ r.sym.toList := by
  unfold symIdx?
  rw [List.findIdx?_eq_none_iff]
  exact ⟨fun h hc => by simpa using h c hc, fun h x hx => by simpa using fun e : x = c => h (e ▸ hx)⟩

theorem symIdx_isSome_iff {r : Rom} {c : Word} : (symIdx? r c).isSome = true ↔ c ∈ r.sym.toList := by
  rw [← not_iff_not, ← symIdx_none_iff]; simp

/-- IDX inverts SYM (R39). -/
theorem symIdx_some_iff {r : Rom} (hn : r.sym.toList.Nodup) {c : Word} {i : Nat} :
    symIdx? r c = some i ↔ i < 1024 ∧ r.sym[i]? = some c := by
  have e : ∀ {j}, j < 1024 → r.sym[j]? = some (symAt r j) := by
    intro j hj; unfold symAt; rw [Vector.getElem?_eq_getElem hj]; rfl
  constructor
  · intro h
    have hs : c ∈ r.sym.toList := symIdx_isSome_iff.mp (by rw [h]; rfl)
    obtain ⟨j, hj⟩ := List.mem_iff_getElem?.mp hs
    have hj' : j < 1024 := by have := (List.getElem?_eq_some_iff.mp hj).1; simpa using this
    rw [symAt_eq hj'] at hj
    have hc : symAt r j = c := Option.some.inj hj
    have := symIdx_symAt hn hj'
    rw [hc, h] at this
    cases this
    exact ⟨hj', by rw [e hj', hc]⟩
  · rintro ⟨hi, h⟩
    rw [e hi] at h; cases h
    exact symIdx_symAt hn hi

/-- PADIDX is absent exactly outside PADSET (R39). -/
theorem padIdx_none_iff {r : Rom} {c : Word} : padIdx? r c = none ↔ c ∉ r.padSet := by
  refine ⟨fun h hc => ?_, padIdx_none⟩
  unfold padIdx? at h
  simp [Rom.padSet] at hc
  repeat' split at h
  all_goals tauto

theorem padIdx_some_iff {r : Rom} (hn : r.padSet.Nodup) {c : Word} {k : Nat} :
    padIdx? r c = some k ↔ (k = 2 ∧ c = r.pad2) ∨ (k = 4 ∧ c = r.pad4) ∨ (k = 6 ∧ c = r.pad6) ∨ (k = 8 ∧ c = r.pad8) := by
  have e := fun k => padIdx_padAt (r := r) hn (k := k)
  constructor
  · intro h
    unfold padIdx? at h
    repeat' split at h
    all_goals first | (cases h; tauto) | cases h
  · rintro (⟨rfl, rfl⟩ | ⟨rfl, rfl⟩ | ⟨rfl, rfl⟩ | ⟨rfl, rfl⟩)
    exacts [e 2 (by simp), e 4 (by simp), e 6 (by simp), e 8 (by simp)]

/-- Step 3 (R128): a padding marker in the last place is removed; otherwise nothing is. -/
theorem depad_marker {r : Rom} {ps : List Placed} {l : Placed} {k : Nat} (h : padIdx? r l.char = some k) :
    depad r (ps ++ [l]) = (k, ps) := by
  unfold depad
  rw [List.getLast?_concat]; dsimp only; rw [h]; simp

theorem depad_plain {r : Rom} {ps : List Placed} (h : ∀ l, ps.getLast? = some l → l.char ∉ r.padSet) :
    depad r ps = (0, ps) := by
  unfold depad
  split
  · rfl
  · next l hl => rw [padIdx_none (h l hl)]

/-- The symbols of the codes, then at most one padding marker (R128). -/
def codeText (r : Rom) (codes : List Nat) (k : Nat) : List Word :=
  codes.map (symAt r) ++ (if k = 0 then [] else [padAt r k])

theorem codeText_mem {r : Rom} {codes : List Nat} {k : Nat} (hc : ∀ c ∈ codes, c < 1024) (hk : k ∈ [0, 2, 4, 6, 8]) :
    ∀ c ∈ codeText r codes k, c ∈ r.sym.toList ∨ c ∈ [r.pad2, r.pad4, r.pad6, r.pad8] := by
  intro c h
  unfold codeText at h
  rcases List.mem_append.mp h with h | h
  · obtain ⟨x, hx, rfl⟩ := List.mem_map.mp h
    exact .inl (symAt_mem (hc x hx))
  · split at h
    · simp at h
    · rw [List.mem_singleton.mp h]
      refine .inr (padAt_mem r ?_)
      simp at hk ⊢; omega

/-- A placed symbol text gives its padding index and its codes back (R128, R130). -/
theorem depad_codeText {r : Rom} {trim : List Word} (hr : r.wellFormed trim = true) {ps : List Placed} {codes : List Nat} {k : Nat}
    (hc : ∀ c ∈ codes, c < 1024) (hk : k ∈ [0, 2, 4, 6, 8]) (h : ps.map Placed.char = codeText r codes k) :
    (depad r ps).1 = k ∧ (depad r ps).2.map Placed.char = codes.map (symAt r) := by
  obtain ⟨f1, f2, f3, f4⟩ := Rom.sym_facts hr
  unfold codeText at h
  by_cases h0 : k = 0
  · subst h0
    rw [if_pos rfl, List.append_nil] at h
    unfold depad
    split
    · exact ⟨rfl, h⟩
    · next q hq =>
      have hm : q.char ∈ codes.map (symAt r) := by rw [← h]; exact List.mem_map_of_mem (List.mem_of_getLast? hq)
      obtain ⟨x, hx, e⟩ := List.mem_map.mp hm
      rw [← e, padIdx_none (f3 _ (symAt_mem (hc x hx))).1]
      exact ⟨rfl, h⟩
  · rw [if_neg h0] at h
    have hl : (ps.map Placed.char).getLast? = some (padAt r k) := by rw [h, List.getLast?_concat]
    rw [List.getLast?_map] at hl
    obtain ⟨q, hq, e⟩ := Option.map_eq_some_iff.mp hl
    unfold depad
    rw [hq]
    dsimp only
    rw [e, padIdx_padAt f2 (by simp at hk ⊢; omega)]
    refine ⟨rfl, ?_⟩
    dsimp only
    rw [List.map_dropLast, h, List.dropLast_concat]

theorem codes_of_chars {r : Rom} (hn : r.sym.toList.Nodup) {codes : List Nat} (hc : ∀ c ∈ codes, c < 1024) :
    ∀ {ps : List Placed}, ps.map Placed.char = codes.map (symAt r) →
    (∀ q ∈ ps, (symIdx? r q.char).isSome = true) ∧ (ps.filterMap fun q => symIdx? r q.char) = codes := by
  induction codes with
  | nil => intro ps h; have : ps = [] := by simpa using h
           subst this; simp
  | cons c codes ih =>
    intro ps h
    cases ps with
    | nil => simp at h
    | cons p ps =>
      simp only [List.map_cons, List.cons.injEq] at h
      obtain ⟨i1, i2⟩ := ih (fun x hx => hc x (by simp [hx])) h.2
      have e : symIdx? r p.char = some c := by rw [h.1]; exact symIdx_symAt hn (hc c (by simp))
      exact ⟨by intro q hq; rcases List.mem_cons.mp hq with rfl | hq; (· simp [e]); exact i1 q hq, by simp [e, i2]⟩

/-- DECODE of a text whose flat body is a symbol text (R126 to R134). -/
theorem decodeRule_codeText {s : State} (hp : s.params.wellFormed = true) (hl : s.inLen.toNat ≤ s.params.inCap)
    (hf : s.config.fmt.toNat ≤ 1) {codes : List Nat} {k : Nat} (hc : ∀ c ∈ codes, c < 1024) (hk : k ∈ [0, 2, 4, 6, 8])
    (h : flatBody (trimmed s.params.trimSet s.input) (dearmor s.params.rom (trimmed s.params.trimSet s.input)) = codeText s.params.rom codes k) :
    decodeRule s = s.fitting
      { out := (dropArtifact k (transpose 10 8 codes).groups).map (BitVec.ofNat 32)
        trRem := (transpose 10 8 codes).remainder, trBits := (transpose 10 8 codes).bitsRemaining, decPad := k
        armorMatch := (dearmor s.params.rom (trimmed s.params.trimSet s.input)).matched } := by
  have hr : s.params.rom.wellFormed s.params.trimSet = true := by unfold Params.wellFormed at hp; simp at hp; exact hp.2
  obtain ⟨f1, -⟩ := Rom.sym_facts hr
  obtain ⟨d1, d2⟩ := depad_codeText hr hc hk ((flatPlaced_chars _ _).trans h)
  obtain ⟨c1, c2⟩ := codes_of_chars f1 hc d2
  rw [decodeRule_eq hl (mapCodes_dropGarbage (.inr c1)), if_pos hf, d1, c2]
  rfl

/-- The padding index of a text of n bytes (R96). -/
def padOf (n : Nat) : Nat := if 8 * n % 10 > 0 then 10 - 8 * n % 10 else 0

theorem flatString_codeText (r : Rom) (bs : List Nat) :
    flatString r (transpose 8 10 bs) = codeText r (codesOf (transpose 8 10 bs)) (padOf bs.length) := by
  have hb := bitsRemaining_8_10 bs
  unfold flatString codeText padOf
  rw [hb]
  by_cases h : 8 * bs.length % 10 > 0
  · rw [if_pos h, if_pos h, if_neg (by omega)]
  · rw [if_neg h, if_neg h, if_pos rfl, List.append_nil]

theorem codesOf_lt (bs : List Nat) : ∀ c ∈ codesOf (transpose 8 10 bs), c < 1024 := by
  obtain ⟨-, -, b3, b4⟩ := transpose_bounds 8 (n := 10) (by omega) bs
  intro c hc
  unfold codesOf at hc
  split at hc
  · rcases List.mem_append.mp hc with h | h
    · exact b3 c h
    · rw [List.mem_singleton.mp h]; exact b4
  · exact b3 c hc

theorem padOf_mem (n : Nat) : padOf n ∈ [0, 2, 4, 6, 8] := by
  unfold padOf
  simp only [List.mem_cons, List.not_mem_nil]
  split <;> omega

/-- The stream of the codes is the stream of the bytes with filler zeros (R84, R94). -/
theorem bitStream_codesOf (bs : List Nat) :
    bitStream 10 (codesOf (transpose 8 10 bs)) = bitStream 8 bs ++ List.replicate (padOf bs.length) false := by
  have hl : (bitStream 8 bs).length = 8 * bs.length := length_bitStream ..
  have hmod := Nat.mod_lt (8 * bs.length) (show 10 > 0 by omega)
  rw [transpose_eq 8 (by omega)]
  unfold codesOf padOf
  dsimp only
  rw [hl]
  by_cases h : 8 * bs.length % 10 > 0
  · rw [if_pos h, if_pos h, if_pos h, bitStream_append, bitStream_codes (by omega)]
    have := bitsOf_shift (10 - 8 * bs.length % 10) ((bitStream 8 bs).drop (8 * bs.length / 10 * 10))
    have tl := trailing_length (n := 10) (bitStream 8 bs)
    rw [hl] at tl
    rw [tl, show 8 * bs.length % 10 + (10 - 8 * bs.length % 10) = 10 by omega] at this
    have e : bitStream 10 [bitsValue ((bitStream 8 bs).drop (8 * bs.length / 10 * 10)) <<< (10 - 8 * bs.length % 10)] =
        (bitStream 8 bs).drop (8 * bs.length / 10 * 10) ++ List.replicate (10 - 8 * bs.length % 10) false := by
      rw [← this]; simp [bitStream]
    rw [e, hl, ← List.append_assoc, List.take_append_drop]
  · rw [if_neg h, if_neg h, bitStream_codes (by omega), hl, List.take_of_length_le (by rw [hl]; omega)]
    simp

theorem groupsOf_bitStream {n : Nat} (hn : 1 ≤ n) {xs : List Nat} (h : ∀ x ∈ xs, x < 2 ^ n) : groupsOf n (bitStream n xs) = xs := by
  induction xs with
  | nil => simp [groupsOf, bitStream]
  | cons x xs ih =>
    have e : bitStream n (x :: xs) = bitsOf n x ++ bitStream n xs := rfl
    unfold groupsOf at ih ⊢
    rw [length_bitStream, List.length_cons, Nat.mul_div_cancel_left _ (by omega), List.range_succ_eq_map, List.map_cons, List.map_map]
    rw [length_bitStream, Nat.mul_div_cancel_left _ (by omega)] at ih
    congr 1
    · rw [e, Nat.zero_mul, List.drop_zero, List.take_left' (by simp), bitsValue_bitsOf, Nat.mod_eq_of_lt (h x (by simp))]
    · conv_rhs => rw [← ih (fun y hy => h y (by simp [hy]))]
      apply List.map_congr_left
      intro j _
      show bitsValue (((bitStream n (x :: xs)).drop ((j + 1) * n)).take n) = _
      rw [e, Nat.add_mul, Nat.one_mul, Nat.add_comm, ← List.drop_drop, List.drop_left' (by simp)]

/-- Decoding the codes of some bytes gives the bytes (R101). -/
theorem dropArtifact_codesOf {bs : List Nat} (h : ∀ b ∈ bs, b < 256) :
    dropArtifact (padOf bs.length) (transpose 10 8 (codesOf (transpose 8 10 bs))).groups = bs := by
  have hl : (bitStream 8 bs).length = 8 * bs.length := length_bitStream ..
  rw [transpose_eq 10 (by omega)]
  dsimp only
  rw [bitStream_codesOf]
  have hp := padOf_mem bs.length
  generalize padOf bs.length = p at *
  have key : (groupsOf 8 (bitStream 8 bs ++ List.replicate p false)).take bs.length = bs := by
    conv_rhs => rw [← groupsOf_bitStream (n := 8) (by omega) h]
    have g := groupsOf_append_left (n := 8) (by omega) (bitStream 8 bs) (List.replicate p false) (q := bs.length) (by rw [hl]; omega)
    unfold groupsOf
    rw [← List.map_take, List.take_range, hl, Nat.mul_div_cancel_left _ (by omega), ← g]
    congr 1
    rw [List.length_append, hl, List.length_replicate]
    congr 1
    omega
  have hlen : (groupsOf 8 (bitStream 8 bs ++ List.replicate p false)).length = bs.length + p / 8 := by
    rw [groupsOf_length, List.length_append, hl, List.length_replicate]; omega
  unfold dropArtifact
  by_cases h8 : p ≥ 8
  · rw [if_pos h8, List.dropLast_eq_take, hlen]
    rw [show bs.length + p / 8 - 1 = bs.length by simp at hp; omega]; exact key
  · rw [if_neg h8]
    conv_rhs => rw [← key]
    rw [List.take_of_length_le (by rw [hlen]; omega)]

/-- Wrapping adds nothing but line breaks. -/
theorem mem_wrapLines {s : List Word} {w : Nat} {c : Word} (h : c ∈ wrapLines s w) : c ∈ s ∨ c = lf := by
  have gen : ∀ (s : List Word) i, c ∈ wrapFrom w i s → c ∈ s ∨ c = lf := by
    intro s
    induction s with
    | nil => intro i h; simp [wrapFrom] at h
    | cons x xs ih =>
      intro i h
      unfold wrapFrom at h
      split at h
      · simp at h
        rcases h with h | h | h
        · exact .inr h
        · exact .inl (by simp [h])
        · rcases ih _ h with h | h
          · exact .inl (by simp [h])
          · exact .inr h
      · simp at h
        rcases h with h | h
        · exact .inl (by simp [h])
        · rcases ih _ h with h | h
          · exact .inl (by simp [h])
          · exact .inr h
  unfold wrapLines at h
  split at h
  · exact .inl h
  · exact gen _ _ h

theorem head?_wrapLines (s : List Word) (w : Nat) : (wrapLines s w).head? = s.head? := by
  unfold wrapLines
  split
  · rfl
  · cases s <;> simp [wrapFrom]

theorem getLast?_wrapLines {w : Nat} : ∀ (n : Nat) (s : List Word), s.length = n → (wrapLines s w).getLast? = s.getLast? := by
  intro n
  induction n using Nat.strong_induction_on with
  | _ n ih =>
    intro s hn
    by_cases hw : 0 < w
    · rw [wrapLines_step hw]
      split
      · rfl
      · next h =>
        have hd : (s.drop w).length = s.length - w := List.length_drop ..
        have e := ih (s.drop w).length (by omega) (s.drop w) rfl
        have hne : s.drop w ≠ [] := by intro h0; rw [h0] at hd; simp at hd; omega
        have : wrapLines (s.drop w) w ≠ [] := by
          intro h0; rw [h0] at e; exact hne (List.getLast?_eq_none_iff.mp e.symm)
        rw [List.getLast?_append_of_ne_nil _ (by simp), List.getLast?_cons, e]
        conv_rhs => rw [← List.take_append_drop w s, List.getLast?_append_of_ne_nil _ hne]
        cases hg : (s.drop w).getLast? with
        | none => exact absurd (List.getLast?_eq_none_iff.mp hg) hne
        | some v => rfl
    · rw [show w = 0 by omega, wrapLines_zero]

/-- The decoder sees the flat string in what the encoder presents (R101, R107, R119). -/
theorem flatBody_present {r : Rom} {trim : List Word} (hr : r.wellFormed trim = true) {flat desc : List Word}
    (hm : ∀ c ∈ flat, c ∈ r.sym.toList ∨ c ∈ [r.pad2, r.pad4, r.pad6, r.pad8]) (a : Bool) (hd : a = true → lf ∉ desc) (w : Nat) :
    trimmed trim (if a then armorText r flat desc w else wrapLines flat w) = (if a then armorText r flat desc w else wrapLines flat w) ∧
    flatBody (if a then armorText r flat desc w else wrapLines flat w) (dearmor r (if a then armorText r flat desc w else wrapLines flat w)) = flat ∧
    (dearmor r (if a then armorText r flat desc w else wrapLines flat w)).matched = a := by
  obtain ⟨f1, f2, f3, f4⟩ := Rom.sym_facts hr
  have hlf : lf ∉ flat := by
    intro h; rcases hm _ h with h | h; exacts [(f3 _ h).2.2.2.2.1 rfl, (f4 _ h).2.1 rfl]
  cases a with
  | true =>
    simp only [if_true]
    obtain ⟨h1, h2⟩ := dearmor_envelope hr (armorText_envelope r (flat := flat) w (hd rfl))
    exact ⟨trimmed_armorText hr _ _ _, by unfold flatBody; rw [h2]; exact filter_wrapLines w _ flat rfl hlf, h1⟩
  | false =>
    simp only [Bool.false_eq_true, if_false]
    have ht : trimmed trim (wrapLines flat w) = wrapLines flat w := by
      apply trimmed_id
      · intro c h
        rw [head?_wrapLines] at h
        rcases hm c (List.mem_of_mem_head? h) with h | h; exacts [(f3 c h).2.2.2.2.2, (f4 c h).2.2]
      · intro c h
        rw [getLast?_wrapLines _ _ rfl] at h
        rcases hm c (List.mem_of_mem_getLast? h) with h | h; exacts [(f3 c h).2.2.2.2.2, (f4 c h).2.2]
    have hmt : (dearmor r (wrapLines flat w)).matched = false := by
      by_contra hc
      obtain ⟨b, l, xh, xf, d, -, -, -, e⟩ := dearmor_matched hr (by simpa using hc)
      have : r.begin ∈ wrapLines flat w := by rw [e]; simp
      rcases mem_wrapLines this with h | h
      · rcases hm _ h with h | h; exacts [(f3 _ h).2.1 rfl, (f4 _ h).1 rfl]
      · exact (Rom.marks_facts hr).2.2.2.1 h
    refine ⟨ht, ?_, hmt⟩
    unfold flatBody
    rw [dearmor_unmatched hmt, slice_all]
    exact filter_wrapLines w _ flat rfl hlf

theorem memRead_of_get {m : Memory} {n : Nat} : ∀ {a d : Nat} {vs : List Word}, vs.length = n →
    (∀ k, k < n → m.get? (a + k) = vs[k]?) → memRead m a d n = vs := by
  induction n with
  | zero => intro a d vs h _; rw [List.eq_nil_of_length_eq_zero h]; rfl
  | succ n ih =>
    intro a d vs h g
    cases vs with
    | nil => simp at h
    | cons v vs =>
      unfold memRead
      have g0 := g 0 (by omega)
      rw [Nat.add_zero] at g0
      congr 1
      · unfold elementAt; rw [g0]; rfl
      · apply ih (by simpa using h)
        intro k hk
        have := g (k + 1) (by omega)
        rw [show a + 1 + k = a + (k + 1) by omega, this]; rfl

/-- Every rule returns a padding index (R36). -/
theorem ruleOf_decPad {i : Instr} {s : State} {r : Result} (h : ruleOf i s = .ok r) : r.decPad ∈ [0, 2, 4, 6, 8] := by
  cases i <;> simp only [ruleOf] at h
  · cases h; simp
  · unfold transposeRule at h
    obtain ⟨e, -⟩ := State.fitting_ok (check_ok (check_ok (check_ok h).2).2).2; rw [e]; simp
  · unfold encodeRule at h
    obtain ⟨e, -⟩ := State.fitting_ok (check_ok (check_ok (check_ok h).2).2).2; rw [e]
    unfold encodeBytes; split <;> simp
  · unfold decodeRule at h
    have h := (check_ok h).2
    split at h
    · cases h
    · next r' hr =>
      obtain ⟨e, -⟩ := State.fitting_ok h
      rw [e]
      unfold decodeText at hr
      dsimp only at hr
      split at hr
      · cases hr
      · split at hr
        · cases hr; exact depad_idx _ _
        · cases hr
  · unfold wrapRule at h
    obtain ⟨e, -⟩ := State.fitting_ok (check_ok h).2; rw [e]; simp
  · unfold armorRule at h
    obtain ⟨e, -⟩ := State.fitting_ok (check_ok (check_ok h).2).2; rw [e]; simp
  · unfold dearmorRule at h
    obtain ⟨e, -⟩ := State.fitting_ok (check_ok h).2; rw [e]; simp
  · cases h
  · cases h

end Sys2Proof.Machine
end

