-- ==== Sys2Proof/Laws/PerInstr.lean ====
section
/-! SUPPORT. Statements about every command as syntax, one lemma for each constructor. -/

namespace Sys2Proof.Laws

/-- A well-formed command's word lies in its row of the opcode table, and every bit R68 calls ignored is 0 in it. -/
def EncodingInRow.Statement (i : Instr) : Prop :=
  i.wellFormed = true → i.row.covers (encode i) = true ∧ encode i &&& ~~~significantBits = 0#32

theorem EncodingInRow.nop (ie : Bool) : EncodingInRow.Statement (.nop ie) := fun _ => by cases ie <;> decide
theorem EncodingInRow.transpose (ie : Bool) : EncodingInRow.Statement (.transpose ie) := fun _ => by cases ie <;> decide
theorem EncodingInRow.encode (ie : Bool) : EncodingInRow.Statement (.encode ie) := fun _ => by cases ie <;> decide
theorem EncodingInRow.decode (ie : Bool) : EncodingInRow.Statement (.decode ie) := fun _ => by cases ie <;> decide
theorem EncodingInRow.wrap (ie : Bool) : EncodingInRow.Statement (.wrap ie) := fun _ => by cases ie <;> decide
theorem EncodingInRow.armor (ie : Bool) : EncodingInRow.Statement (.armor ie) := fun _ => by cases ie <;> decide
theorem EncodingInRow.dearmor (ie : Bool) : EncodingInRow.Statement (.dearmor ie) := fun _ => by cases ie <;> decide
theorem EncodingInRow.illegal7 (ie : Bool) : EncodingInRow.Statement (.illegal7 ie) := fun _ => by cases ie <;> decide
theorem EncodingInRow.illegalHigh (code : BitVec 4) (ie : Bool) : EncodingInRow.Statement (.illegalHigh code ie) := by
  revert code; cases ie <;> unfold EncodingInRow.Statement <;> decide

end Sys2Proof.Laws
end

