-- ==== Sys2Proof/Laws/Step.lean ====
section
/-! SUPPORT. The step: which agent moved and what it did, once for all statements about steps. -/

namespace Sys2Proof.Machine

/-- A completion ends in DONE or in ERROR. -/
theorem complete_state (s : State) (r : Except Raise Result) :
    (s.complete r).status.state = .done ∨ (s.complete r).status.state = .error := by
  cases r
  · exact .inr rfl
  · exact .inl rfl

theorem complete_ctrl (s : State) (r : Except Raise Result) : (s.complete r).ctrl = s.ctrl := by cases r <;> rfl

theorem complete_params (s : State) (r : Except Raise Result) : (s.complete r).params = s.params := by cases r <;> rfl

/-- Every step is one of four moves. -/
theorem step_cases {s t : State} (h : step s = .next t) :
   (s.mover = .rst ∧ t = s.ticked.afterReset) ∨ (s.mover = .host ∧ t = s.ticked.hostMove) ∨
   (s.mover = .engine ∧ s.status.state = .busy ∧ exec s.pending s.ticked = .next t) ∨ (s.mover = .engine ∧ s.status.state ≠ .busy ∧ t = s.ticked) := by
  unfold step at h
  cases hm : s.mover <;> rw [hm] at h <;> simp only [agentMove] at h
  · cases h; simp
  · unfold engineMove at h
    split at h
    · next hb => exact .inr (.inr (.inl ⟨rfl, of_decide_eq_true hb, h⟩))
    · next hb => cases h; exact .inr (.inr (.inr ⟨rfl, fun hc => hb (decide_eq_true hc), rfl⟩))
  · cases h; simp

/-- The command register with START set, as a command word. -/
theorem startWord_cmd (c : Ctrl) : wordCmd (0x100#32 ||| c.word) = c.cmd := by
  unfold wordCmd Ctrl.word
  apply BitVec.eq_of_getLsbD_eq
  intro k hk
  simp only [BitVec.getLsbD_extractLsb', BitVec.getLsbD_or, BitVec.getLsbD_append]
  interval_cases k <;> simp

theorem startWord_ie (c : Ctrl) : wordIe (0x100#32 ||| c.word) = c.ie := by
  unfold wordIe Ctrl.word
  simp only [BitVec.getLsbD_or, BitVec.getLsbD_append]
  simp

theorem isComplete_iff (s : State) : s.isComplete = true ↔ s.status.word.toNat % 4 = 2 ∨ s.status.word.toNat % 4 = 3 := by
  rw [Status.toNat_word]
  unfold State.isComplete
  cases s.status.state <;> simp [EngineState.code] <;> omega

theorem busWrite_params (s : State) (a v) : (s.busWrite a v).params = s.params := by
  unfold State.busWrite
  split
  · rfl
  · split
    · unfold State.writeRegister State.writeCtrl
      split <;> first | rfl | (split <;> rfl)
    all_goals rfl

theorem hostMove_params (s : State) : s.hostMove.params = s.params := by
  unfold State.hostMove
  split
  · rfl
  · rw [State.logged_params, busWrite_params]
  · rename_i a r h
    obtain ⟨d, hd⟩ := busRead_state { s with program := r } a
    rw [State.logged_params, hd]
  · rfl

/-- While BUSY a host move changes only the host and the count of draws. -/
theorem hostMove_busy {s : State} (hb : s.status.state = .busy) :
    ∃ d p h, s.hostMove = { s with draws := d, program := p, trace := h } := by
  unfold State.hostMove
  split
  · exact ⟨_, _, _, rfl⟩
  · rw [busWrite_busy (by exact hb)]; exact ⟨_, _, _, rfl⟩
  · rename_i a r _
    obtain ⟨d, hd⟩ := busRead_state { s with program := r } a
    rw [hd]; exact ⟨_, _, _, rfl⟩
  · exact ⟨_, _, _, rfl⟩

theorem hostMove_iterate_busy {s : State} (hb : s.status.state = .busy) (n : Nat) :
    ∃ d p h, State.hostMove^[n] s = { s with draws := d, program := p, trace := h } := by
  induction n with
  | zero => exact ⟨_, _, _, rfl⟩
  | succ n ih =>
    obtain ⟨d, p, h, e⟩ := ih
    rw [Function.iterate_succ_apply', e]
    obtain ⟨d', p', h', e'⟩ := hostMove_busy (s := { s with draws := d, program := p, trace := h }) hb
    rw [e']; exact ⟨_, _, _, rfl⟩

/-- The first of `k + 1` steps. -/
theorem run_next {s u : State} (h : step s = .next u) (k : Nat) :
    Host.Core.run Sys2Proof.core (k + 1) s = Host.Core.run Sys2Proof.core k u := by
  have gen : ∀ (M : Host.Core) (s u : M.State), M.step s = .next u → M.run (k + 1) s = M.run k u := by
    intro M s u h; simp only [Host.Core.run, h]
  exact gen Sys2Proof.core s u h

/-- The step of a BUSY engine completes the pending command (R148). -/
theorem step_engine {s : State} (hm : s.mover = .engine) (hb : s.status.state = .busy) :
    step s = .next ((s.ticked.started s.ticked.pending).complete
      (ruleOf s.ticked.pending (s.ticked.started s.ticked.pending))) := by
  unfold step; rw [hm]
  unfold agentMove engineMove; dsimp only
  rw [if_pos (show s.ticked.isBusy = true from decide_eq_true (by exact hb)), exec_eq]

end Sys2Proof.Machine
end

