-- ==== Sys2Proof/Tests/Slice0.lean ====
section
/-! SUPPORT. The model's own tests. Expected values come from the spec: the field tables and codes of
spec/30_encoding.md, and the vectors of spec/95_test_vectors.md, each named at its test. The witness theorems show, for
each obligation with hypotheses, operands that meet them together. -/

namespace Sys2Proof.Tests

set_option Elab.async false

open Sys2Proof.Machine

/-! ## Helpers -/

/-- The next state, where there is one. -/
def next? : Host.Outcome State Fault Refusal → Option State
  | .next s => some s
  | _ => none

/-- A next state with a property, found by evaluation. -/
theorem witness_next {o : Host.Outcome State Fault Refusal} (P : State → Prop) [DecidablePred P]
    (h : (next? o).any (fun t => decide (P t)) = true) : ∃ t, o = .next t ∧ P t := by
  cases o with
  | next t => exact ⟨t, rfl, by simpa [next?] using h⟩
  | fault f => cases f
  | refused r => simp [next?] at h

/-- The symbol S<n> of the test ROM (D27). -/
def S (n : Nat) : Nat := 0xF0000 + n

def words (xs : List Nat) : List Word := xs.map (BitVec.ofNat 32)

/-- A block of the reference configuration with its registers and inputs set, as LOADIN, LOADDESC and CFG set them. -/
def block (c : ConfigReg) (w : Nat) (input desc : List Nat) : State :=
  { State.reset with
    config := c
    wrap := BitVec.ofNat 16 w
    inLen := BitVec.ofNat 19 input.length
    descLen := BitVec.ofNat 19 desc.length
    mem := Memory.setList (Memory.setList [] inBase (words input)) descBase (words desc) }

/-- What a command leaves: OUT_BUF[0..OUT_LEN), and STATUS, TR_REM, TR_BITS, DEC_PAD, ERR_INFO, ERR_INDEX. -/
def report (i : Instr) (s : State) : Option (List Nat × List Nat) :=
  (next? (exec i s)).map fun t =>
    ((List.range t.outLen.toNat).map fun k => ((t.mem.get? (outBase + k)).getD 0#32).toNat,
      [t.status.word.toNat, t.trRem.toNat, t.trBits.toNat, t.decPad.toNat, t.errInfo.toNat, t.errIndex.toNat])

/-- A BUSY block, and one that is DONE. -/
def busy : State := State.reset.started (.nop false)
def done : State := { State.reset with status := ⟨.done, none, false⟩ }

/-- Words of the test ROM's markers and pads. -/
def M : Nat := 0xE010
def BEG : Nat := 0xE011
def FIN : Nat := 0xE012

/-! ## WellFormed: an ill-formed term for each check (R7, R40, R70) -/

theorem test_illegalHigh_code_below_8_refused : (Instr.illegalHigh 7#4 false).wellFormed = false := by decide
theorem test_capacity_0_refused : ({ Params.reference with inCap := 0 } : Params).capacitiesOk = false := by decide +kernel
theorem test_capacity_above_2_18_refused :
    ({ Params.reference with outCap := 262145 } : Params).capacitiesOk = false ∧
      ({ Params.reference with descCap := 262145 } : Params).capacitiesOk = false := by decide +kernel
theorem test_rom_a_repeated_symbol_refused :
    ({ Rom.reference with sym := Vector.replicate 1024 0xF0000#32 } : Rom).wellFormed Params.defaultTrimSet = false := by
  have h : ({ Rom.reference with sym := Vector.replicate 1024 0xF0000#32 } : Rom).symDistinct = false := by decide +kernel
  unfold Rom.wellFormed; rw [h]; rfl
theorem test_rom_b_repeated_pad_refused :
    ({ Rom.reference with pad4 := 0xE002#32 } : Rom).wellFormed Params.defaultTrimSet = false := by
  have h : ({ Rom.reference with pad4 := 0xE002#32 } : Rom).padsDistinct = false := by decide +kernel
  unfold Rom.wellFormed; rw [h]; simp
theorem test_rom_b_pad_among_symbols_refused :
    ({ Rom.reference with pad4 := 0xF0000#32 } : Rom).wellFormed Params.defaultTrimSet = false := by
  have h : ({ Rom.reference with pad4 := 0xF0000#32 } : Rom).padsDistinct = false := by decide +kernel
  unfold Rom.wellFormed; rw [h]; simp
theorem test_rom_c_begin_is_end_refused :
    ({ Rom.reference with fin := 0xE011#32 } : Rom).wellFormed Params.defaultTrimSet = false := by
  have h : ({ Rom.reference with fin := 0xE011#32 } : Rom).marksDistinct = false := by decide +kernel
  unfold Rom.wellFormed; rw [h]; simp
theorem test_rom_c_mark_among_symbols_refused :
    ({ Rom.reference with mark := 0xF0001#32 } : Rom).wellFormed Params.defaultTrimSet = false := by
  have h : ({ Rom.reference with mark := 0xF0001#32 } : Rom).marksDistinct = false := by decide +kernel
  unfold Rom.wellFormed; rw [h]; simp
theorem test_rom_d_mark_is_pad_refused :
    ({ Rom.reference with mark := 0xE008#32 } : Rom).wellFormed Params.defaultTrimSet = false := by
  have h : ({ Rom.reference with mark := 0xE008#32 } : Rom).marksNotPads = false := by decide +kernel
  unfold Rom.wellFormed; rw [h]; simp
theorem test_rom_e_symbol_in_trim_set_refused :
    ({ Rom.reference with sym := Vector.replicate 1024 0x20#32 } : Rom).wellFormed Params.defaultTrimSet = false := by
  have h : ({ Rom.reference with sym := Vector.replicate 1024 0x20#32 } : Rom).symbolsKept Params.defaultTrimSet = false := by
    decide +kernel
  unfold Rom.wellFormed; rw [h]; simp
theorem test_rom_e_line_feed_refused :
    ({ Rom.reference with sym := Vector.replicate 1024 lf } : Rom).wellFormed [] = false := by
  have h : ({ Rom.reference with sym := Vector.replicate 1024 lf } : Rom).symbolsKept [] = false := by decide +kernel
  unfold Rom.wellFormed; rw [h]; simp
theorem test_rom_f_line_feed_in_descriptor_refused :
    ({ Rom.reference with defaultDesc := [lf] } : Rom).wellFormed Params.defaultTrimSet = false := by
  have h : ({ Rom.reference with defaultDesc := [lf] } : Rom).descPlain = false := by decide +kernel
  unfold Rom.wellFormed; rw [h]; simp
theorem test_rom_f_symbol_in_descriptor_refused :
    ({ Rom.reference with defaultDesc := [0xF0003#32] } : Rom).wellFormed Params.defaultTrimSet = false := by
  have h : ({ Rom.reference with defaultDesc := [0xF0003#32] } : Rom).descPlain = false := by decide +kernel
  unfold Rom.wellFormed; rw [h]; simp

/-! The reference configuration is well formed. -/

theorem reference_sym : Rom.reference.sym.toList = (List.range 1024).map fun i => BitVec.ofNat 32 (0xF0000 + i) := by
  unfold Rom.reference Vector.toList
  exact List.toList_toArray

theorem reference_sym_high {c : Word} (h : c.toNat < 0xF0000) : c ∉ Rom.reference.sym.toList := by
  rw [reference_sym]
  intro hm
  obtain ⟨i, hi, rfl⟩ := List.mem_map.mp hm
  have := List.mem_range.mp hi
  rw [BitVec.toNat_ofNat] at h
  omega

theorem allBelow {l : List Word} {b : Nat} (h : (l.all fun p => decide (p.toNat < b)) = true) :
    ∀ p ∈ l, p.toNat < b := by
  rw [List.all_eq_true] at h
  exact fun p hp => by simpa using h p hp

theorem distinctWords_of_nodup {l : List Word} (h : l.Nodup) : distinctWords l = true := by
  induction l with
  | nil => rfl
  | cons w ws ih =>
    obtain ⟨h1, h2⟩ := List.nodup_cons.mp h
    simp [distinctWords, h1, ih h2]

theorem reference_sym_nodup : Rom.reference.sym.toList.Nodup := by
  rw [reference_sym]
  refine List.Nodup.map_on (fun i hi j hj h => ?_) List.nodup_range
  have := List.mem_range.mp hi
  have := List.mem_range.mp hj
  have := congrArg BitVec.toNat h
  simp only [BitVec.toNat_ofNat] at this
  omega

/-- The spec's reference block (D27) is well formed: WF_ROM (R40) holds of the test ROM. -/
theorem test_reference_wellFormed : Params.reference.wellFormed = true := by
  have small : ∀ c : Word, c.toNat < 0xF0000 → Rom.reference.sym.toList.contains c = false := by
    intro c hc; simpa using reference_sym_high hc
  have e1 : Rom.reference.symDistinct = true := distinctWords_of_nodup reference_sym_nodup
  have e2 : Rom.reference.padsDistinct = true := by
    have h : ∀ p ∈ Rom.reference.padSet, p.toNat < 0xF0000 := allBelow (by decide +kernel)
    unfold Rom.padsDistinct
    rw [Bool.and_eq_true, List.all_eq_true]
    exact ⟨by decide +kernel, fun p hp => by rw [small p (h p hp)]; rfl⟩
  have e3 : Rom.reference.marksDistinct = true := by
    have h : ∀ p ∈ Rom.reference.armorMarks, p.toNat < 0xF0000 := allBelow (by decide +kernel)
    unfold Rom.marksDistinct
    rw [Bool.and_eq_true, List.all_eq_true]
    exact ⟨by decide +kernel, fun p hp => by rw [small p (h p hp)]; rfl⟩
  have e4 : Rom.reference.marksNotPads = true := by decide +kernel
  have e5 : Rom.reference.symbolsKept Params.defaultTrimSet = true := by
    have h1 : ∀ p ∈ lf :: Params.defaultTrimSet, p.toNat < 0xF0000 := allBelow (by decide +kernel)
    have h2 : ∀ c ∈ Rom.reference.padSet ++ Rom.reference.armorMarks, c ∉ lf :: Params.defaultTrimSet := by
      have := (by decide +kernel : ((Rom.reference.padSet ++ Rom.reference.armorMarks).all fun c => !(lf :: Params.defaultTrimSet).contains c) = true)
      rw [List.all_eq_true] at this
      exact fun c hc => by simpa using this c hc
    unfold Rom.symbolsKept
    rw [List.all_eq_true]
    intro c hc
    have : c ∉ lf :: Params.defaultTrimSet := by
      intro hm
      unfold Rom.allSymbols at hc
      rw [List.append_assoc] at hc
      rcases List.mem_append.mp hc with hs | hs
      · exact reference_sym_high (h1 c hm) hs
      · exact h2 c hs hm
    simpa using this
  have e6 : Rom.reference.descPlain = true := by
    have h : ∀ p ∈ Rom.reference.defaultDesc, p.toNat < 0xF0000 := allBelow (by decide +kernel)
    have h' : lf ∉ Rom.reference.defaultDesc := by decide +kernel
    unfold Rom.descPlain
    rw [List.all_eq_true]
    exact fun p hp => by rw [small p (h p hp)]; simpa using fun e : p = lf => h' (e ▸ hp)
  have e0 : Params.reference.capacitiesOk = true := by decide +kernel
  unfold Params.wellFormed Rom.wellFormed
  rw [e0, show Params.reference.rom = Rom.reference from rfl, show Params.reference.trimSet = Params.defaultTrimSet from rfl,
    e1, e2, e3, e4, e5, e6]; rfl

/-! ## Decoding (R67 to R71): CMD = w[3:0], START = w[8], CLR = w[9], IE = w[16] -/

theorem test_decode_nop : decode 0b00000000000000000000000100000000#32 = .ok (.nop false) := by decide
theorem test_decode_transpose : decode 0b00000000000000010000000100000001#32 = .ok (.transpose true) := by decide
theorem test_decode_encode : decode 0b00000000000000000000000100000010#32 = .ok (.encode false) := by decide
theorem test_decode_decode : decode 0b11111111111111101111111111110011#32 = .ok (.decode false) := by decide
theorem test_decode_wrap : decode 0b00000000000000010000001100000100#32 = .ok (.wrap true) := by decide
theorem test_decode_armor : decode 0b00000000000000000000000100000101#32 = .ok (.armor false) := by decide
theorem test_decode_dearmor : decode 0b00000000000000000000000100000110#32 = .ok (.dearmor false) := by decide
theorem test_decode_illegal7 : decode 0b00000000000000000000000100000111#32 = .ok (.illegal7 false) := by decide
theorem test_decode_illegal8 : decode 0b00000000000000000000000100001000#32 = .ok (.illegalHigh 8#4 false) := by decide
theorem test_decode_illegalF : decode 0b00000000000000010000000100001111#32 = .ok (.illegalHigh 15#4 true) := by decide
theorem test_decode_no_start : decode 0b00000000000000000000001000000010#32 = .error .clearWord ∧
    decode 0b11111111111111111111110011111111#32 = .error .setOnlyWord := by decide

/-- The match words of spec/opcode_table.json, as the table numbers their bits. -/
theorem test_table_words :
    [0x100, 0x101, 0x102, 0x103, 0x104, 0x105, 0x106, 0x107, 0x108].map (decodeTableWord 32) =
      [some (.nop false), some (.transpose false), some (.encode false), some (.decode false), some (.wrap false),
        some (.armor false), some (.dearmor false), some (.illegal7 false), some (.illegalHigh 8#4 false)] := by
  decide

/-- STATUS and ERR_INFO after the first step of each table word from reset, where IN_LEN = 0 (R90, R103, R136, R140,
R151): all DONE but the reserved codes, and ARMOR, whose empty envelope at W = 32 has 32 + 1 + 0 + 1 + 32 = 66 elements, two
more than OUT_CAP (R112, R113, R144). -/
theorem test_table_words_run_first :
    [0x100, 0x101, 0x102, 0x103, 0x104, 0x105, 0x106, 0x107, 0x108].map (fun w =>
        (next? (step (State.reset.withFetchWord 32 w))).map fun t => (t.status.word.toNat, t.errInfo.toNat)) =
      [some (2, 0), some (2, 0), some (2, 0), some (2, 0), some (2, 0), some (0x73, 66), some (2, 0), some (0x33, 7),
        some (0x33, 8)] := by
  decide +kernel

/-! ## The commands (spec/95_test_vectors.md) -/

theorem test_CP1_nop : report (.nop false) (block .reset 32 [1, 2] []) = some ([], [2, 0, 0, 0, 0, 0]) := by decide +kernel
theorem test_CP2_nop_checks_nothing :
    report (.nop false) { State.reset with inLen := 65#19 } = some ([], [2, 0, 0, 0, 0, 0]) := by decide +kernel
theorem test_TR1_transpose :
    report (.transpose false) (block { ConfigReg.reset with trM := 3#5, trN := 5#5 } 32 [5, 6, 3] []) =
      some ([23], [2, 6, 4, 0, 0, 0]) := by decide +kernel
theorem test_TR11_value_range :
    report (.transpose false) (block { ConfigReg.reset with trM := 3#5, trN := 5#5 } 32 [5, 8, 3] []) =
      some ([], [0x53, 0, 0, 0, 8, 1]) := by decide +kernel
theorem test_EN9_encode_armored :
    report (.encode false) (block { ConfigReg.reset with armor := true } 8 [0xDE, 0xAD, 0xBE, 0xEF] []) =
      some ([M, M, 0x42, 0x31, BEG, M, M, M, 10, S 890, S 731, S 955, S 768, 0xE008, 10, M, M, 0x42, 0x31, FIN, M, M, M],
        [2, 0x300, 2, 0, 0, 0]) := by decide +kernel
theorem test_EN21_encode_value_range :
    report (.encode false) (block .reset 0 [0x68, 0x100, 0x21] []) = some ([], [0x53, 0, 0, 0, 0x100, 1]) := by
  decide +kernel
theorem test_DEC5_decode_armored :
    report (.decode false) (block { ConfigReg.reset with fmt := 1#2 } 32
        [M, M, 0x42, 0x31, BEG, M, M, M, 10, S 890, S 731, S 955, S 768, 0xE008, 10, M, M, 0x42, 0x31, FIN, M, M, M] []) =
      some ([0xDE, 0xAD, 0xBE, 0xEF], [0x102, 0, 0, 8, 0, 0]) := by decide +kernel
theorem test_DEC15_invalid_symbol :
    report (.decode false) (block { ConfigReg.reset with fmt := 1#2 } 32 [S 890, S 731, S 955, S 768, 0xE008, 0x78] []) =
      some ([], [0x13, 0, 0, 0, 0xE008, 4]) := by decide +kernel
theorem test_WR6_wrap :
    report (.wrap false) (block .reset 2 [S 0, 10, S 1, S 2] []) =
      some ([S 0, 10, 10, S 1, S 2], [2, 0, 0, 0, 0, 0]) := by decide +kernel
theorem test_WR8_out_overflow :
    report (.wrap false) (block .reset 1 ((List.range 40).map S) []) = some ([], [0x73, 0, 0, 0, 79, 0]) := by
  decide +kernel
theorem test_AR4_armor :
    report (.armor false) (block { ConfigReg.reset with descPresent := true } 8 [S 1, S 2, S 3] [0x42, 10, 0x43]) =
      some ([M, M, 0x42, 10, BEG, M, M, M, 10, S 1, S 2, S 3, 10, M, M, 0x42, 10, FIN, M, M, M], [2, 0, 0, 0, 0, 0]) := by
  decide +kernel
theorem test_AR3_armor_width_0 :
    report (.armor false) (block .reset 0 [S 1, S 2, S 3] []) =
      some ([BEG, 10, S 1, S 2, S 3, 10, FIN], [2, 0, 0, 0, 0, 0]) := by decide +kernel
theorem test_DA5_dearmor :
    report (.dearmor false) (block .reset 32 [M, M, M, BEG, M, 10, S 0, 10, M, M, M, FIN, M] []) =
      some ([S 0], [0x102, 0, 0, 0, 0, 0]) := by decide +kernel
theorem test_DA6_descriptors_differ :
    report (.dearmor false) (block .reset 32 [M, 0x41, BEG, M, 10, S 0, 10, M, 0x42, FIN, M] []) =
      some ([M, 0x41, BEG, M, S 0, M, 0x42, FIN, M], [2, 0, 0, 0, 0, 0]) := by decide +kernel
theorem test_R140_illegal7 : report (.illegal7 false) { State.reset with inLen := 65#19 } = some ([], [0x33, 0, 0, 0, 7, 0]) := by
  decide +kernel
theorem test_CP3_illegal9 : report (.illegalHigh 9#4 false) State.reset = some ([], [0x33, 0, 0, 0, 9, 0]) := by
  decide +kernel

/-! ## The protocol (spec/95_test_vectors.md CP-4 to CP-8, P5) -/

/-- CP-4: CLR after CP-3 gives IDLE, ERR = 0 and CTRL = 0, and keeps ERR_INFO = 9. -/
theorem test_CP4_clear :
    (next? (exec (.illegalHigh 9#4 false) State.reset)).map (fun t =>
      let u := t.busWrite ctrlAddr 0x200#32
      (u.status.word, u.errInfo, u.ctrl.word)) = some (0#32, 9#32, 0#32) := by decide +kernel

/-- CP-5: START wins over CLR. -/
theorem test_CP5_start_wins : (done.busWrite ctrlAddr 0x300#32).status.word = 1#32 := by decide +kernel

/-- CP-6: IE alone from DONE leaves STATUS and raises irq. -/
theorem test_CP6_ie :
    (done.busWrite ctrlAddr 0x10000#32).status.word = 2#32 ∧ (done.busWrite ctrlAddr 0x10000#32).irq = true := by
  decide +kernel

/-- CP-7: a write while BUSY is dropped. -/
theorem test_CP7_busy_write : (busy.busWrite wrapAddr 5#32).wrap = 32#16 := by decide +kernel

/-- CP-8: reset while BUSY. -/
theorem test_CP8_reset :
    (next? (step { busy with sched := [.rst], wrap := 5#16 })).map (fun t => (t.status.word, t.config.word, t.wrap)) =
      some (0#32, 0x000A0800#32, 0x20#16) := by decide +kernel

/-- P5: the two runs; here WRAP after three steps, as the schedule orders the write and the completion. -/
theorem test_P5_two_runs :
    (next? (Host.Core.run Sys2Proof.core 3
        { State.reset with program := startOps (.nop false) ++ [.write wrapAddr 5#32], sched := [.host, .host, .engine] })).map
      (fun t => t.wrap) = some 32#16 ∧
    (next? (Host.Core.run Sys2Proof.core 3
        { State.reset with program := startOps (.nop false) ++ [.write wrapAddr 5#32], sched := [.host, .engine, .host] })).map
      (fun t => t.wrap) = some 5#16 := by decide +kernel

/-! ## Witnesses: operands that meet the hypotheses of each obligation, clause by clause -/

/-- A reference block with other capacities. -/
def small (inCap outCap : Nat) : Params := { Params.reference with inCap := inCap, outCap := outCap }

theorem small_wellFormed {a b : Nat} (h : (capacityOk a && capacityOk b) = true) : (small a b).wellFormed = true := by
  have := test_reference_wellFormed
  unfold Params.wellFormed Params.capacitiesOk at *
  simp only [Bool.and_eq_true] at h this ⊢
  exact ⟨⟨h, this.1.2⟩, this.2⟩

theorem test_witness_DecodeAndEncodeAgree :
    (Instr.illegalHigh 8#4 true).wellFormed = true ∧ (Instr.illegalHigh 15#4 false).wellFormed = true ∧
      decode 0xFFFFFFFF#32 = .ok (.illegalHigh 15#4 true) := by decide
theorem test_witness_OneOpcodeRowPerCommand :
    decode 0x108#32 = .ok (.illegalHigh 8#4 false) ∧ (Instr.nop true).row.covers 0xFFFFFFF0#32 = true := by decide
theorem test_witness_StartAction :
    (0x100#32).getLsbD 8 = true ∧ State.reset.status.state ≠ .busy ∧ done.status.state ≠ .busy ∧
      (0x301#32).getLsbD 8 = true ∧ busy.status.state = .busy := by decide +kernel
theorem test_witness_ClearAction :
    done.status.state ≠ .busy ∧ (0x200#32).getLsbD 8 = false ∧ (0x200#32).getLsbD 9 = true ∧
      State.reset.status.state = .idle ∧ State.reset.status.err = none := by decide +kernel
theorem test_witness_SetOnlyAction :
    done.status.state ≠ .busy ∧ (0x10000#32).getLsbD 8 = false ∧ (0x10000#32).getLsbD 9 = false := by decide +kernel
theorem test_witness_WritesWhileBusyAreDropped :
    ({ busy with program := [.write wrapAddr 5#32], sched := [.host] } : State).status.state = .busy ∧
      ({ busy with program := [.write wrapAddr 5#32], sched := [.host] } : State).mover = .host ∧
      ({ busy with program := [.write wrapAddr 5#32], sched := [.host] } : State).program = .write wrapAddr 5#32 :: [] := by
  decide +kernel
theorem test_witness_RegisterWindow :
    State.reset.params.capacitiesOk = true ∧ 0 < 0x40000 ∧ 0x3FFFF < 0x40000 ∧ 0xF ≤ 0xF ∧ 0xF ≤ 0x3FFFF := by
  decide +kernel
theorem test_witness_WrittenRegistersReadBack : State.reset.status.state ≠ .busy := by decide +kernel
theorem test_witness_ReadOnlyPlacesIgnoreWrites :
    (0x6 ≤ 0x6 ∧ 0x6 ≤ 0xE) ∧ (0x6 ≤ 0xE ∧ 0xE ≤ 0xE) ∧ 0 < 2 ^ 18 ∧ 262143 < 2 ^ 18 := by decide

/-- A block with the last word of each buffer written. -/
def lastWords : State := { State.reset with mem := [(inBase + 63, 1#32), (outBase + 63, 2#32), (descBase + 63, 3#32)] }

theorem test_witness_BufferWindows :
    lastWords.params.capacitiesOk = true ∧
      (63 < lastWords.params.inCap ∧ lastWords.mem.get? (inBase + 63) = some 1#32) ∧
      (63 < lastWords.params.descCap ∧ lastWords.mem.get? (descBase + 63) = some 3#32) ∧
      (63 < lastWords.params.outCap ∧ lastWords.status.state ≠ .busy ∧ lastWords.mem.get? (outBase + 63) = some 2#32) ∧
      (({ lastWords with status := ⟨.busy, none, false⟩ } : State).status.state = .busy ∧
        lastWords.mem.get? (inBase + 62) = none ∧ lastWords.mem.get? (descBase + 0) = none ∧
        lastWords.mem.get? (outBase + 62) = none) ∧
      (64 < 2 ^ 18 ∧ lastWords.params.inCap ≤ 64 ∧ lastWords.params.outCap ≤ 64 ∧ lastWords.params.descCap ≤ 64) ∧
      262143 < 2 ^ 18 := by decide +kernel
theorem test_witness_BufferWritesStore :
    State.reset.params.capacitiesOk = true ∧ State.reset.status.state ≠ .busy ∧ 0 < State.reset.params.inCap ∧
      63 < State.reset.params.inCap ∧ 63 < State.reset.params.descCap ∧ inAddr 62 ≠ inAddr 63 ∧
      outAddr 63 ≠ descAddr 63 := by decide +kernel
theorem test_witness_ReadsHaveNoSideEffect : (State.reset.busRead ctrlAddr).2.draws = State.reset.draws := by
  decide +kernel
theorem test_witness_IrqFollowsCompletion :
    (∃ t, exec (.nop true) State.reset = .next t ∧ t.irq = true) ∧
      done.status.state ≠ .busy ∧ (0x10100#32).getLsbD 8 = true ∧ (0x10200#32).getLsbD 9 = true ∧
      ((0x10000#32).getLsbD 8 = false ∧ (0x10000#32).getLsbD 9 = false ∧ (0x10000#32).getLsbD 16 = true) :=
  ⟨witness_next _ (by decide +kernel), by decide +kernel⟩
theorem test_witness_ResetPutsEveryRegisterBack :
    ({ busy with sched := [.rst] } : State).params.capacitiesOk = true ∧ ({ busy with sched := [.rst] } : State).mover = .rst := by
  decide +kernel
theorem test_witness_OnlyFourEventsChangeState :
    (∃ t, step { done with sched := [.rst] } = .next t ∧ t.status.state ≠ done.status.state) ∧
    (∃ t, step busy = .next t ∧ t.status.state ≠ busy.status.state) ∧
    (∃ t, step { done with program := [.write ctrlAddr 0x100#32] } = .next t ∧ t.status.state ≠ done.status.state) ∧
    ∃ t, step { done with program := [.write ctrlAddr 0x200#32] } = .next t ∧ t.status.state ≠ done.status.state :=
  ⟨witness_next _ (by decide +kernel), witness_next _ (by decide +kernel), witness_next _ (by decide +kernel),
    witness_next _ (by decide +kernel)⟩
theorem test_witness_RomIsNeverModified : ∃ t, step busy = .next t ∧ t.status.state = .done :=
  witness_next _ (by decide +kernel)
theorem test_witness_StepStartsTheWrittenCommand :
    (({ done with program := [.write 0xFFFFF#20 5#32] } : State).mover = .host ∧
      ({ done with program := [.write 0xFFFFF#20 5#32] } : State).program = .write 0xFFFFF#20 5#32 :: []) ∧
    (({ busy with program := [.read (outAddr 0)], sched := [.host] } : State).mover = .host ∧
      ({ busy with program := [.read (outAddr 0)], sched := [.host] } : State).program = .read (outAddr 0) :: []) ∧
    ({ done with program := [.write ctrlAddr 0x104#32] } : State).mover = .host ∧ done.status.state ≠ .busy ∧
      ({ done with program := [.write ctrlAddr 0x104#32] } : State).program = .write ctrlAddr 0x104#32 :: [] ∧
      decode 0x104#32 = .ok (.wrap false) := by decide +kernel
theorem test_witness_StepRunsThePendingCommand :
    busy.status.state = .busy ∧ busy.mover = .engine ∧ decode (0x100#32 ||| busy.ctrl.word) = .ok (.nop false) := by
  decide +kernel
theorem test_witness_FetchedWordRunsNext : decode 0x10102#32 = .ok (.encode true) := by decide
theorem test_witness_ExecIsStartThenCompletion :
    done.status.state ≠ .busy ∧ decode 0x301#32 = .ok (.transpose false) := by decide +kernel
theorem test_witness_WaitPollsStatus :
    (({ busy with program := [.wait], sched := [.host] } : State).mover = .host ∧
      ({ busy with program := [.wait], sched := [.host] } : State).program = .wait :: [] ∧
      ¬ (({ busy with program := [.wait], sched := [.host] } : State).busRead statusAddr).1.toNat % 4 = 2) ∧
    ({ done with program := [.wait] } : State).mover = .host ∧ ({ done with program := [.wait] } : State).program = .wait :: [] ∧
      (({ done with program := [.wait] } : State).busRead statusAddr).1.toNat % 4 = 2 := by decide +kernel
theorem test_witness_PollingTerminates :
    busy.status.state = .busy ∧
      ({ busy with program := [.wait], sched := [.host, .engine] } : State).program = .wait :: [] ∧
      Agent.rst ∉ ({ busy with program := [.wait], sched := [.host, .engine] } : State).sched := by decide +kernel

/-- A block running ENCODE on written inputs. -/
def encoding : State := (block .reset 0 [0x68, 0x69] [0x41]).started (.encode false)

/-- Every element below a bound is written, from one evaluation. -/
theorem written {m : Memory} {a n : Nat} (h : (List.range n).all (fun k => (m.get? (a + k)).isSome) = true) :
    ∀ k, k < n → (m.get? (a + k)).isSome = true := by
  rw [List.all_eq_true] at h
  exact fun k hk => h k (List.mem_range.mpr hk)

/-- Lengths above the capacities of 64, and nothing written: ENCODE reads no element (R103). -/
def overlong : State := { State.reset with inLen := 65#19, descLen := 65#19 }

theorem overlong_reads_nothing : overlong.operandsWritten (.encode false) :=
  ⟨fun h => absurd h.1 (by decide +kernel), fun h => absurd h.1.1 (by decide +kernel)⟩

theorem test_witness_OperandsAreStableWhileBusy :
    (encoding.status.state = .busy ∧ encoding.operandsWritten encoding.pending) ∧
      (overlong.started (.encode false)).status.state = .busy ∧
      (overlong.started (.encode false)).operandsWritten (overlong.started (.encode false)).pending := by
  rw [show encoding.pending = .encode false by decide, show (overlong.started (.encode false)).pending = .encode false by decide]
  exact ⟨⟨by decide, fun _ => written (by decide +kernel), fun _ => written (by decide +kernel)⟩, by decide,
    operandsWritten_started.mpr overlong_reads_nothing⟩
theorem test_witness_EveryCommandCompletes : encoding.params.capacitiesOk = true := by decide +kernel
theorem test_witness_RetryGivesTheSameError :
    ((block .reset 0 [0x100] [0x41]).params.capacitiesOk = true ∧
      (block .reset 0 [0x100] [0x41]).operandsWritten (.encode false) ∧
      ∃ t, exec (.encode false) (block .reset 0 [0x100] [0x41]) = .next t ∧ t.status.state = .error) ∧
    overlong.params.capacitiesOk = true ∧ overlong.operandsWritten (.encode false) ∧
      ∃ t, exec (.encode false) overlong = .next t ∧ t.status.state = .error :=
  ⟨⟨by decide +kernel, ⟨fun _ => written (by decide +kernel), fun _ => written (by decide +kernel)⟩,
    witness_next _ (by decide +kernel)⟩, by decide +kernel, overlong_reads_nothing, witness_next _ (by decide +kernel)⟩
theorem test_witness_NopCompletes : (block .reset 32 [] []).params.capacitiesOk = true := by decide +kernel

/-- Lengths at and above the capacities of 64. -/
def longIn : State := { State.reset with inLen := 65#19 }
def longDesc : State :=
  { State.reset with inLen := 64#19, descLen := 65#19, config := { ConfigReg.reset with armor := true, descPresent := true } }

theorem test_witness_LengthErrors :
    (longIn.params.capacitiesOk = true ∧ longIn.params.inCap < longIn.inLen.toNat ∧
      (Instr.wrap true = .transpose true ∨ Instr.wrap true = .encode true ∨ Instr.wrap true = .decode true ∨
        Instr.wrap true = .wrap true ∨ Instr.wrap true = .armor true ∨ Instr.wrap true = .dearmor true)) ∧
    longDesc.params.capacitiesOk = true ∧ longDesc.inLen.toNat ≤ longDesc.params.inCap ∧
      longDesc.config.descPresent = true ∧ longDesc.params.descCap < longDesc.descLen.toNat ∧
      (Instr.encode true = .armor true ∨ (Instr.encode true = .encode true ∧ longDesc.config.armor = true)) := by
  decide +kernel

theorem test_witness_LoopIsTheSlices : 1 ≤ 31 ∧ 1 ≤ 1 ∧ ∀ x ∈ [0, 2 ^ 31 - 1], x < 2 ^ 31 := by decide
theorem test_witness_TransposeKeepsEveryBit : 1 ≤ 8 ∧ 1 ≤ 10 ∧ ∀ x ∈ [0x68, 255], x < 2 ^ 8 := by decide
theorem test_witness_TransposeCounts : 1 ≤ 1 ∧ 1 ≤ 31 ∧ ∀ x ∈ [0, 1], x < 2 ^ 1 := by decide
theorem test_witness_TransposeCorners : 1 ≤ 1 ∧ 1 ≤ 31 ∧ ∀ x ∈ [1, 2, 15], x < 2 ^ 4 := by decide

/-- TR-15: 64 elements of one bit, and TR-8. -/
def widths (m n : Nat) : ConfigReg := { ConfigReg.reset with trM := BitVec.ofNat 5 m, trN := BitVec.ofNat 5 n }

/-- Fields that TRANSPOSE, ENCODE, DECODE and ARMOR ignore, at values they never read (R76). -/
theorem test_witness_IgnoredFieldsHaveNoEffect :
    (({ widths 8 10 with armor := true, fmt := 3#2 } : ConfigReg).trM = State.reset.config.trM ∧
      ({ widths 8 10 with armor := true, fmt := 3#2 } : ConfigReg).trN = State.reset.config.trN) ∧
    ((widths 0 0).armor = State.reset.config.armor ∧ (32#16) = State.reset.wrap ∧
      (State.reset.config.armor = true → (widths 0 0).descPresent = State.reset.config.descPresent ∧ 0#19 = State.reset.descLen)) ∧
    ((widths 0 0).ignoreGarbage = State.reset.config.ignoreGarbage ∧ (widths 0 0).fmt = State.reset.config.fmt) ∧
    (widths 0 0).descPresent = State.reset.config.descPresent ∧ 0#19 = State.reset.descLen := by decide +kernel

/-- A bound on every element of a list, from one evaluation. -/
theorem all_below {l : List Word} {b : Nat} (h : (l.all fun v => decide (v.toNat < b)) = true) : ∀ v ∈ l, v.toNat < b := allBelow h

/-- The elements before index `k`, none of which is at or above the bound. -/
theorem first_at {l : List Word} {b k : Nat} (h : ((l.take k).all fun v => decide (v.toNat < b)) = true) :
    ∀ j u, j < k → l[j]? = some u → u.toNat < b := by
  intro j u hj hu
  refine allBelow h u (List.mem_iff_getElem?.mpr ⟨j, ?_⟩)
  rw [List.getElem?_take_of_lt hj, hu]

theorem test_witness_TransposeCompletes :
    (block (widths 1 1) 32 (List.replicate 64 0) []).params.capacitiesOk = true ∧
      (block (widths 1 1) 32 (List.replicate 64 0) []).inLen.toNat ≤ 64 ∧ 1 ≤ (widths 1 1).trM.toNat ∧
      1 ≤ (widths 1 1).trN.toNat ∧
      (∀ v ∈ (block (widths 1 1) 32 (List.replicate 64 0) []).input, v.toNat < 2 ^ (widths 1 1).trM.toNat) ∧
      (widths 1 1).trM.toNat * (block (widths 1 1) 32 (List.replicate 64 0) []).inLen.toNat / (widths 1 1).trN.toNat ≤ 64 :=
  ⟨by decide +kernel, by decide +kernel, by decide, by decide, all_below (by decide +kernel), by decide +kernel⟩
theorem test_witness_TransposeFails :
    ((block (widths 0 5) 32 [5] []).params.capacitiesOk = true ∧ (block (widths 0 5) 32 [5] []).inLen.toNat ≤ 64 ∧
      (widths 0 5).trM.toNat = 0 ∧ (widths 3 0).trN.toNat = 0) ∧
    (1 ≤ (widths 3 5).trM.toNat ∧ 1 ≤ (widths 3 5).trN.toNat ∧
      (block (widths 3 5) 32 [5, 8, 3] []).input[1]? = some 8#32 ∧ 2 ^ (widths 3 5).trM.toNat ≤ (8#32).toNat ∧
      ∀ j u, j < 1 → (block (widths 3 5) 32 [5, 8, 3] []).input[j]? = some u → u.toNat < 2 ^ (widths 3 5).trM.toNat) ∧
    (∀ v ∈ (block (widths 31 1) 32 [5, 6, 7] []).input, v.toNat < 2 ^ (widths 31 1).trM.toNat) ∧
      64 < (widths 31 1).trM.toNat * (block (widths 31 1) 32 [5, 6, 7] []).inLen.toNat / (widths 31 1).trN.toNat :=
  ⟨by decide +kernel,
    ⟨by decide, by decide, by decide +kernel, by decide, first_at (by decide +kernel)⟩,
    all_below (by decide +kernel), by decide +kernel⟩

theorem test_witness_WrapLaws : 0 < 1 ∧ words [S 0, S 1] ≠ [] ∧ lf ∉ words [S 0, S 1] := by decide
theorem test_witness_WrapCompletes :
    (64 = (if (block .reset 0 (List.replicate 64 10) []).wrap.toNat = 0 ∨ (block .reset 0 (List.replicate 64 10) []).inLen.toNat = 0
        then (block .reset 0 (List.replicate 64 10) []).inLen.toNat else 0) ∧
      (block .reset 0 (List.replicate 64 10) []).params.capacitiesOk = true ∧
      (block .reset 0 (List.replicate 64 10) []).inLen.toNat ≤ 64 ∧ 64 ≤ (block .reset 0 [] []).params.outCap) ∧
    79 = (if (block .reset 1 ((List.range 40).map S) []).wrap.toNat = 0 ∨ (block .reset 1 ((List.range 40).map S) []).inLen.toNat = 0
        then 0 else 40 + (40 + 1 - 1) / 1 - 1) ∧
      (block .reset 1 ((List.range 40).map S) []).inLen.toNat = 40 ∧
      (block .reset 1 ((List.range 40).map S) []).params.outCap < 79 := by decide +kernel
theorem test_witness_ArmorLaws : 1 ≤ 1 ∧ 6 ≤ 6 ∧ 5 ≤ 5 ∧ (0 : Nat) = 0 := by decide

/-- The text ARMOR makes in a block (R112). -/
def armored (s : State) : List Word := armorText s.params.rom s.input s.selectDesc s.wrap.toNat

theorem test_witness_ArmorCompletes :
    ((block .reset 8 [S 1, S 2, S 3] []).params.capacitiesOk = true ∧ (block .reset 8 [S 1, S 2, S 3] []).inLen.toNat ≤ 64 ∧
      ((block .reset 8 [S 1, S 2, S 3] []).config.descPresent = true → (block .reset 8 [S 1, S 2, S 3] []).descLen.toNat ≤ 64) ∧
      (armored (block .reset 8 [S 1, S 2, S 3] [])).length ≤ 64) ∧
    longDesc.inLen.toNat ≤ 64 ∧
      ({ longDesc with descLen := 64#19 }.config.descPresent = true → { longDesc with descLen := 64#19 }.descLen.toNat ≤ 64) ∧
      64 < (armored (block .reset 64 [] [])).length := by decide +kernel

/-- DA-5, whose margins give L = 1 and D = [M, M], and DA-3. -/
def da5 : List Word := words [M, M, M, BEG, M, 10, S 0, 10, M, M, M, FIN, M]
def da3 : List Word := words [BEG, 10, FIN]

theorem da5_envelope : IsEnvelope Rom.reference da5 (words [S 0]) :=
  ⟨1, 0, 0, words [M, M], by decide, by decide, by decide, by decide +kernel⟩

theorem da3_none : ¬ ∃ b, IsEnvelope Rom.reference da3 b := by
  rintro ⟨b, h⟩
  have hr : Rom.reference.wellFormed Params.defaultTrimSet = true := by
    have := test_reference_wellFormed
    unfold Params.wellFormed at this
    rw [Bool.and_eq_true] at this
    exact this.2
  have h1 := (dearmor_envelope hr h).1
  exact absurd h1 (by decide +kernel)

theorem reference_rom_wellFormed : Rom.reference.wellFormed Params.defaultTrimSet = true := by
  have := test_reference_wellFormed
  unfold Params.wellFormed at this
  rw [Bool.and_eq_true] at this
  exact this.2

theorem test_witness_DearmorMatchesThePattern :
    Rom.reference.wellFormed Params.defaultTrimSet = true ∧ IsEnvelope Rom.reference da5 (words [S 0]) ∧
      (dearmor Rom.reference da5).matched = true ∧ (dearmor Rom.reference da3).matched = false :=
  ⟨reference_rom_wellFormed, da5_envelope, by decide +kernel, by decide +kernel⟩

/-- Blocks holding DA-5 and DA-3, the output capacities 64 and 1. -/
def holding (outCap : Nat) (xs : List Nat) : State := { block .reset 32 xs [] with params := small 64 outCap }

theorem test_witness_DearmorCompletes :
    ((holding 64 [M, M, M, BEG, M, 10, S 0, 10, M, M, M, FIN, M]).params.wellFormed = true ∧
      (holding 64 [M, M, M, BEG, M, 10, S 0, 10, M, M, M, FIN, M]).inLen.toNat ≤ 64 ∧
      IsEnvelope Rom.reference (trimmed Params.defaultTrimSet (holding 64 [M, M, M, BEG, M, 10, S 0, 10, M, M, M, FIN, M]).input)
        (words [S 0]) ∧ ((words [S 0]).filter (· != lf)).length ≤ 1) ∧
    (holding 1 [BEG, 10, FIN]).params.wellFormed = true ∧ (holding 1 [BEG, 10, FIN]).inLen.toNat ≤ 64 ∧
      da3 = trimmed Params.defaultTrimSet (holding 1 [BEG, 10, FIN]).input ∧
      (¬ ∃ b, IsEnvelope Rom.reference (trimmed Params.defaultTrimSet (holding 1 [BEG, 10, FIN]).input) b) ∧
      (holding 1 [BEG, 10, FIN]).params.outCap < (da3.filter (· != lf)).length := by
  have e5 : trimmed Params.defaultTrimSet (holding 64 [M, M, M, BEG, M, 10, S 0, 10, M, M, M, FIN, M]).input = da5 := by
    decide +kernel
  have e3 : trimmed Params.defaultTrimSet (holding 1 [BEG, 10, FIN]).input = da3 := by decide +kernel
  rw [e5, e3]
  exact ⟨⟨small_wellFormed (by decide), by decide +kernel, da5_envelope, by decide⟩, small_wellFormed (by decide),
    by decide +kernel, rfl, da3_none, by decide +kernel⟩
theorem test_witness_DearmorInvertsArmor :
    Rom.reference.wellFormed Params.defaultTrimSet = true ∧ lf ∉ words [S 1, S 2] ∧ lf ∉ words [0x42, 0x20] :=
  ⟨reference_rom_wellFormed, by decide, by decide⟩

theorem test_witness_PaddingSelection :
    (∀ b ∈ [255, 0, 1, 2, 3], b < 256) ∧ [255, 0, 1, 2, 3].length % 5 = 0 ∧ [255].length % 5 = 1 ∧ [255, 0].length % 5 = 2 ∧
      [255, 0, 1].length % 5 = 3 ∧ [255, 0, 1, 2].length % 5 = 4 := by decide
theorem test_witness_EncodeLengths :
    [255] ≠ [] ∧ (∀ b ∈ [255], b < 256) ∧ 2 = 4 * [255].length / 5 + (if 8 * [255].length % 10 > 0 then 2 else 0) ∧
      0 < 1 := by decide

/-- The elements ENCODE makes without armor (R94 to R97). -/
def encodedText (s : State) : List Word :=
  wrapLines (flatString s.params.rom (transpose 8 10 (s.input.map BitVec.toNat))) s.wrap.toNat

/-- EN-22 and EN-23. -/
theorem test_witness_EncodeCompletes :
    ((block .reset 1 (List.replicate 40 255) []).params.capacitiesOk = true ∧
      (block .reset 1 (List.replicate 40 255) []).inLen.toNat ≤ 64 ∧
      ((block .reset 1 (List.replicate 40 255) []).config.armor = false) ∧
      (∀ v ∈ (block .reset 1 (List.replicate 40 255) []).input, v.toNat < 256) ∧
      (encodedText (block .reset 1 (List.replicate 40 255) [])).length = 63) ∧
    (block .reset 1 (List.replicate 41 0) []).inLen.toNat ≤ 64 ∧
      (∀ v ∈ (block .reset 1 (List.replicate 41 0) []).input, v.toNat < 256) ∧
      (encodedText (block .reset 1 (List.replicate 41 0) [])).length = 67 :=
  ⟨⟨by decide +kernel, by decide +kernel, by decide +kernel, all_below (by decide +kernel), by decide +kernel⟩,
    by decide +kernel, all_below (by decide +kernel), by decide +kernel⟩
theorem test_witness_EncodeRefusesNonBytes :
    (block .reset 0 [0x68, 0x100, 0x21] []).params.capacitiesOk = true ∧
      (block .reset 0 [0x68, 0x100, 0x21] []).inLen.toNat ≤ 64 ∧ (block .reset 0 [0x68, 0x100, 0x21] []).config.armor = false ∧
      (block .reset 0 [0x68, 0x100, 0x21] []).input[1]? = some 0x100#32 ∧ 256 ≤ (0x100#32).toNat ∧
      ∀ j u, j < 1 → (block .reset 0 [0x68, 0x100, 0x21] []).input[j]? = some u → u.toNat < 256 :=
  ⟨by decide +kernel, by decide +kernel, by decide +kernel, by decide +kernel, by decide, first_at (by decide +kernel)⟩

theorem test_witness_LookupsInvertTheTables : Rom.reference.wellFormed Params.defaultTrimSet = true := reference_rom_wellFormed

theorem test_witness_FlatSequenceIsPlaced :
    words [S 1] = trimmed Params.defaultTrimSet (words [0x20, S 1]) ∧
      ⟨0, 1, false⟩ = dearmor Rom.reference (words [S 1]) ∧ 1 = (trimBounds Params.defaultTrimSet (words [0x20, S 1])).1 + 0 := by
  decide +kernel

/-- Every character of a placed list is a symbol, from one evaluation. -/
theorem all_symbols {r : Rom} {ps : List Placed} (h : (ps.all fun q => (symIdx? r q.char).isSome) = true) :
    ∀ q ∈ ps, q.char ∈ r.sym.toList := by
  rw [List.all_eq_true] at h
  exact fun q hq => symIdx_isSome_iff.mp (h q hq)

/-- Every character of a list is garbage and no LF, from one evaluation. -/
theorem no_symbols {r : Rom} {cs : List Word} (h : (cs.all fun c => c != lf && (symIdx? r c).isNone) = true) :
    ∀ c ∈ cs, c ≠ lf ∧ c ∉ r.sym.toList := by
  rw [List.all_eq_true] at h
  intro c hc
  have := h c hc
  rw [Bool.and_eq_true, Option.isNone_iff_eq_none] at this
  exact ⟨by simpa using this.1, symIdx_none_iff.mp this.2⟩

/-- The flat sequence of a block's input (R127). -/
def flat (s : State) : List Placed := (flatPlaced s.params s.input).1

/-- DEC-4, DEC-14 with garbage after the marker, and two bytes where one fits. -/
theorem test_witness_DecodeCompletes :
    ((block .reset 32 [S 890, S 731, S 955, S 768, 0xE008] []).params.capacitiesOk = true ∧
      (block .reset 32 [S 890, S 731, S 955, S 768, 0xE008] []).inLen.toNat ≤ 64 ∧ ConfigReg.reset.fmt.toNat ≤ 1 ∧
      flat (block .reset 32 [S 890, S 731, S 955, S 768, 0xE008] []) =
        placeFrom 0 (words [S 890, S 731, S 955, S 768]) ++ [⟨4, 0xE008#32⟩] ∧ padIdx? Rom.reference 0xE008#32 = some 8 ∧
      ∀ q ∈ placeFrom 0 (words [S 890, S 731, S 955, S 768]), q.char ∈ Rom.reference.sym.toList) ∧
    (({ ConfigReg.reset with ignoreGarbage := true, fmt := 1#2 } : ConfigReg).ignoreGarbage = true ∧
      flat (block { ConfigReg.reset with ignoreGarbage := true, fmt := 1#2 } 32 [S 890, 0xE008, 0x78] []) =
        [⟨0, 0xF037A#32⟩, ⟨1, 0xE008#32⟩, ⟨2, 0x78#32⟩] ∧
      ∀ l, [⟨0, 0xF037A#32⟩, ⟨1, 0xE008#32⟩, (⟨2, 0x78#32⟩ : Placed)].getLast? = some l → l.char ∉ Rom.reference.padSet) ∧
    (holding 1 [S 1, S 2]).params.capacitiesOk = true ∧
      flat (holding 1 [S 1, S 2]) = placeFrom 0 (words [S 1, S 2]) ∧
      (∀ q ∈ placeFrom 0 (words [S 1, S 2]), q.char ∈ Rom.reference.sym.toList) ∧
      (holding 1 [S 1, S 2]).params.outCap < (transposeBySlices 10 8 [1, 2]).groups.length :=
  ⟨⟨by decide +kernel, by decide +kernel, by decide, by decide +kernel, by decide +kernel, all_symbols (by decide +kernel)⟩,
    ⟨rfl, by decide +kernel, by rintro l h; cases h; decide +kernel⟩,
    by decide +kernel, by decide +kernel, all_symbols (by decide +kernel), by decide +kernel⟩

/-- DEC-8 with the largest code, DEC-9, and DEC-14: k = 8, k = 0, and garbage after the marker. -/
theorem test_witness_DecodeOfAlphabetString :
    ((block .reset 32 [S 1023, 0xE008] []).params.wellFormed = true ∧ (block .reset 32 [S 1023, 0xE008] []).inLen.toNat ≤ 64 ∧
      (block .reset 32 [S 1023, 0xE008] []).config.fmt.toNat ≤ 1 ∧ (∀ c ∈ [1023], c < 1024) ∧ 8 ∈ [0, 2, 4, 6, 8] ∧
      (block .reset 32 [S 1023, 0xE008] []).input = [1023].map (symAt Rom.reference) ++ [padAt Rom.reference 8] ∧
      5 * [1023].length / 4 - 1 ≤ 64) ∧
    (0 ∈ [0, 2, 4, 6, 8] ∧ (block .reset 32 [S 1023] []).input = [1023].map (symAt Rom.reference) ++ []) ∧
    (block { ConfigReg.reset with ignoreGarbage := true } 32 [S 1023, 0xE008, 0x20, 0x78] []).config.ignoreGarbage = true ∧
      (block { ConfigReg.reset with ignoreGarbage := true } 32 [S 1023, 0xE008, 0x20, 0x78] []).input =
        ([1023].map (symAt Rom.reference) ++ [padAt Rom.reference 8]) ++ [0x20#32] ++ [0x78#32] ∧
      (∀ c ∈ [0x20#32] ++ [0x78#32], c ≠ lf ∧ c ∉ Rom.reference.sym.toList) ∧ 0x78#32 ∉ Rom.reference.padSet ∧
      0x78#32 ∉ Params.defaultTrimSet :=
  ⟨⟨test_reference_wellFormed, by decide +kernel, by decide +kernel, by decide, by decide, by decide +kernel, by decide⟩,
    ⟨by decide, by decide +kernel⟩, by decide +kernel, by decide +kernel, no_symbols (by decide +kernel), by decide +kernel,
    by decide +kernel⟩

/-- DEC-21: 'x' at index 1, with the marker and without it. -/
theorem test_witness_DecodeRefusesInvalidSymbols :
    (block .reset 32 [S 417, 0x78, S 658, S 64, 0xE006] []).params.capacitiesOk = true ∧
      (block .reset 32 [S 417, 0x78, S 658, S 64, 0xE006] []).inLen.toNat ≤ 64 ∧ ConfigReg.reset.ignoreGarbage = false ∧
      (flat (block .reset 32 [S 417, 0x78, S 658, S 64, 0xE006] []) =
        [⟨0, 0xF01A1#32⟩] ++ ⟨1, 0x78#32⟩ :: [⟨2, 0xF0292#32⟩, ⟨3, 0xF0040#32⟩] ++ [⟨4, 0xE006#32⟩] ∧
          0xE006#32 ∈ Rom.reference.padSet) ∧
      (flat (block .reset 32 [S 417, 0x78] []) = [⟨0, 0xF01A1#32⟩] ++ ⟨1, 0x78#32⟩ :: [] ∧
        ∀ l, ((⟨1, 0x78#32⟩ : Placed) :: []).getLast? = some l → l.char ∉ Rom.reference.padSet) ∧
      (∀ x ∈ [(⟨0, 0xF01A1#32⟩ : Placed)], x.char ∈ Rom.reference.sym.toList) ∧ 0x78#32 ∉ Rom.reference.sym.toList :=
  ⟨by decide +kernel, by decide +kernel, rfl, ⟨by decide +kernel, by decide +kernel⟩,
    ⟨by decide +kernel, by rintro l h; cases h; decide +kernel⟩, all_symbols (by decide +kernel), symIdx_none_iff.mp (by decide +kernel)⟩

/-- DEC-32 and DEC-34. -/
theorem test_witness_DecodeRefusesInvalidFormats :
    (2 ≤ ({ ConfigReg.reset with fmt := 2#2 } : ConfigReg).fmt.toNat ∧
      ∀ q ∈ flat (block { ConfigReg.reset with fmt := 2#2 } 32 [] []), q.char ∈ Rom.reference.sym.toList) ∧
    2 ≤ ({ ConfigReg.reset with fmt := 3#2 } : ConfigReg).fmt.toNat ∧
      flat (block { ConfigReg.reset with fmt := 3#2 } 32 [S 417, S 658, S 64, 0xE006] []) =
        placeFrom 0 (words [S 417, S 658, S 64]) ++ [⟨3, 0xE006#32⟩] ∧ 0xE006#32 ∈ Rom.reference.padSet ∧
      (∀ q ∈ placeFrom 0 (words [S 417, S 658, S 64]), q.char ∈ Rom.reference.sym.toList) ∧
      (block { ConfigReg.reset with fmt := 3#2 } 32 [S 417, S 658, S 64, 0xE006] []).inLen.toNat ≤ 64 :=
  ⟨⟨by decide, all_symbols (by decide +kernel)⟩, by decide, by decide +kernel, by decide +kernel, all_symbols (by decide +kernel),
    by decide +kernel⟩
theorem test_witness_StringAndBinaryAgree :
    ∃ t, exec (.decode false) { block .reset 32 [S 1, S 2] [] with config := { ConfigReg.reset with fmt := 0#2 } } = .next t ∧
      t.status.state = .done := witness_next _ (by decide +kernel)

/-- The output of one block in the input of another: EN-9, of which DECODE is DEC-5. -/
def carried (t : State) : State :=
  { block { ConfigReg.reset with fmt := 1#2 } 32 [] [] with
    inLen := t.outLen
    mem := Memory.setList [] inBase ((List.range t.outLen.toNat).map fun k => (t.mem.get? (outBase + k)).getD 0#32) }

/-- A bounded statement, from one evaluation. -/
theorem below {n : Nat} {p : Nat → Prop} [DecidablePred p] (h : ((List.range n).all fun k => decide (p k)) = true) :
    ∀ k, k < n → p k := by
  rw [List.all_eq_true] at h
  exact fun k hk => by simpa using h k (List.mem_range.mpr hk)

theorem test_witness_DecodeInvertsEncode :
    ∃ t, exec (.encode false) (block { ConfigReg.reset with armor := true } 8 [0xDE, 0xAD, 0xBE, 0xEF] []) = .next t ∧
      t.status.state = .done ∧ (block { ConfigReg.reset with armor := true } 8 [0xDE, 0xAD, 0xBE, 0xEF] []).params.wellFormed = true ∧
      lf ∉ (block { ConfigReg.reset with armor := true } 8 [0xDE, 0xAD, 0xBE, 0xEF] []).selectDesc ∧
      (carried t).params = Params.reference ∧ (carried t).inLen = t.outLen ∧ t.outLen.toNat ≤ 64 ∧
      (block { ConfigReg.reset with armor := true } 8 [0xDE, 0xAD, 0xBE, 0xEF] []).inLen.toNat ≤ Params.reference.outCap ∧
      (∀ k, k < t.outLen.toNat → (carried t).mem.get? (inBase + k) = t.mem.get? (outBase + k)) ∧
      (carried t).config.fmt.toNat ≤ 1 ∧ (carried t).config.ignoreGarbage = false := by
  obtain ⟨t, h, h1, h2, h3⟩ := witness_next
    (o := exec (.encode false) (block { ConfigReg.reset with armor := true } 8 [0xDE, 0xAD, 0xBE, 0xEF] []))
    (fun t => t.status.state = .done ∧ t.outLen.toNat ≤ 64 ∧ ((List.range t.outLen.toNat).all fun k =>
      decide ((carried t).mem.get? (inBase + k) = t.mem.get? (outBase + k))) = true) (by decide +kernel)
  exact ⟨t, h, h1, test_reference_wellFormed, by decide +kernel, rfl, rfl, h2, by decide +kernel, below h3, show (1#2).toNat ≤ 1 by decide, rfl⟩

theorem test_witness_InvariantHoldsAtReset : Params.reference.capacitiesOk = true := by decide +kernel
theorem test_witness_EveryStepKeepsTheInvariant :
    busy.Inv ∧ ∃ t, step busy = .next t ∧ t.status.state = .done :=
  ⟨{ capacities := by decide +kernel
     memory := rfl
     stored := by intro a h; exact absurd h (by simp [busy, State.reset, State.resetOf, Memory.get?])
     errIffError := by decide
     busy := fun _ => ⟨rfl, rfl, rfl, rfl, rfl, rfl, rfl⟩
     error := by decide
     outLen := by decide +kernel
     output := fun h => absurd rfl h
     decPad := by decide },
    witness_next _ (by decide +kernel)⟩

end Sys2Proof.Tests
end

section
/-! PROOFS of the state family (spec/10_state.md): what reset leaves, the lookups of the ROM, and CLR. -/

namespace Sys2Proof.StateProofs

open Sys2Proof Sys2Proof.Machine

/-! ## Reset -/

/-- The move of the reset input is the block after reset, whatever the engine was doing (R163). -/
theorem step_of_mover_rst {s : State} (h : s.mover = .rst) : step s = .next s.ticked.afterReset := by
  rw [step, h, agentMove]

/-- The value R18's table gives for each register offset, the capacities being the block's own. -/
def resetValues (p : Params) : List Nat :=
  [0, 0, 0x000A0800, 0x20, 0, 0, 0, 0, 0, 0, 0, 0, p.inCap, p.outCap, p.descCap]

/-- The registers at the offsets 0x0 to 0xE, in the order of R18's table. -/
theorem register_window (s : State) :
    ((List.range 15).map fun o => (s.register o).toNat) =
      [s.ctrl.word.toNat, s.status.word.toNat, s.config.word.toNat, (s.wrap.zeroExtend 32).toNat,
        (s.inLen.zeroExtend 32).toNat, (s.descLen.zeroExtend 32).toNat, (s.outLen.zeroExtend 32).toNat,
        (s.trRem.zeroExtend 32).toNat, (s.trBits.zeroExtend 32).toNat, (s.decPad.zeroExtend 32).toNat,
        s.errInfo.toNat, (s.errIndex.zeroExtend 32).toNat, (BitVec.ofNat 32 s.params.inCap).toNat,
        (BitVec.ofNat 32 s.params.outCap).toNat, (BitVec.ofNat 32 s.params.descCap).toNat] := rfl

/-- Read over the bus, the offsets 0x0 to 0xE give the registers (R54). -/
theorem busRead_window (s : State) :
    ((List.range 15).map fun o => (s.busRead (BitVec.ofNat 20 o)).1.toNat) =
      (List.range 15).map fun o => (s.register o).toNat := by
  refine List.map_congr_left fun o ho => ?_
  have : o < 15 := List.mem_range.mp ho
  rw [busRead_reg s (by omega)]

/-- A legal capacity fits its 32-bit register, so the register shows it unchanged (R7, R18). -/
theorem toNat_capacityWord {c : Nat} (h : c ≤ 262144) : (BitVec.ofNat 32 c).toNat = c :=
  (BitVec.toNat_ofNat c 32).trans (Nat.mod_eq_of_lt (by omega))

/-- After reset every register holds its value of R18's table (R45). -/
theorem register_afterReset (s : State) (h : s.params.capacitiesOk = true) :
    ((List.range 15).map fun o => (s.afterReset.register o).toNat) = resetValues s.params := by
  obtain ⟨-, hin, -, hout, -, hdesc⟩ := capacity_bounds h
  rw [register_window, State.afterReset_params, toNat_capacityWord hin, toNat_capacityWord hout,
    toNat_capacityWord hdesc]
  simp [resetValues, Ctrl.toNat_word, Status.toNat_word, ConfigReg.toNat_word, ConfigReg.reset, Status.errField,
    EngineState.code]

/-- Settles O16: the reset move is `afterReset`, whose registers are read off the window one by one. -/
theorem resetPutsEveryRegisterBack : Obligations.ResetPutsEveryRegisterBack := by
  intro s hcap hrst
  refine ⟨s.ticked.afterReset, step_of_mover_rst hrst, rfl, rfl, fun _ => rfl, ?_⟩
  rw [busRead_window]
  exact register_afterReset s.ticked hcap

/-! ## The lookups of the ROM -/

/-- A word is outside SYM when it is the symbol of no index. -/
theorem not_mem_sym_iff {r : Rom} {c : Word} : c ∉ r.sym.toList ↔ ∀ i : Fin 1024, r.sym[i] ≠ c := by
  rw [Vector.mem_toList_iff, Vector.mem_iff_getElem]
  exact ⟨fun h i hi => h ⟨i, i.isLt, hi⟩, fun h ⟨i, hi, hc⟩ => h ⟨i, hi⟩ hc⟩

/-- Settles O60: WF_ROM makes SYM and PADSET injective, and each lookup inverts its table. -/
theorem lookupsInvertTheTables : Obligations.LookupsInvertTheTables := by
  intro r trim c hwf
  obtain ⟨hsym, hpad, -, -⟩ := Rom.sym_facts hwf
  refine ⟨fun _ => symIdx_some_iff hsym, symIdx_none_iff.trans not_mem_sym_iff, fun _ => padIdx_some_iff hpad, ?_, rfl⟩
  rw [padIdx_none_iff]
  simp [Rom.padSet]

/-! ## CLR -/

/-- An accepted CLR stores CMD and IE and clears the block (R23, R25). -/
theorem busWrite_clear {s : State} {v : Word} (hb : s.status.state ≠ .busy) (h8 : v.getLsbD 8 = false)
    (h9 : v.getLsbD 9 = true) :
    s.busWrite ctrlAddr v = { s with ctrl := ⟨wordCmd v, wordIe v⟩ }.cleared := by
  rw [busWrite_ctrl hb, writeCtrl_clear h8 h9]

/-- Settles O6: an accepted CLR is `cleared`, and in IDLE with no error `cleared` leaves STATUS as it stands. -/
theorem clearAction : Obligations.ClearAction := by
  intro s v hb h8 h9
  rw [busWrite_clear hb h8 h9]
  refine ⟨rfl, fun hidle herr => ?_⟩
  rw [State.cleared_status, ← hidle, ← herr]

end Sys2Proof.StateProofs
end

section
/-! PROOFS of the memory family (spec/20_memory.md): the register window, and the parameters no step changes. -/

namespace Sys2Proof.MemoryProofs

open Sys2Proof Sys2Proof.Machine

/-! ## The register window -/

/-- The number of a STATE (R27). -/
def stateNumber : EngineState → Nat
  | .idle => 0
  | .busy => 1
  | .done => 2
  | .error => 3

/-- The number of an ERR, 0 for none (R28, R137). -/
def errNumber : Option ErrorCode → Nat
  | none => 0
  | some .invalidSymbol => 1
  | some .invalidFormat => 2
  | some .illegalCmd => 3
  | some .badWidth => 4
  | some .valueRange => 5
  | some .length => 6
  | some .outOverflow => 7

theorem toNat_stateCode (e : EngineState) : e.code.toNat = stateNumber e := by cases e <;> rfl

theorem toNat_errField (t : Status) : t.errField.toNat = errNumber t.err := by
  rw [Status.errField]
  cases t.err with
  | none => rfl
  | some e => cases e <;> rfl

theorem toNat_statusWord (t : Status) :
    t.word.toNat = stateNumber t.state + 16 * errNumber t.err + 256 * t.armorMatch.toNat := by
  rw [Status.toNat_word, toNat_stateCode, toNat_errField]

/-- A register write outside CTRL, CONFIG, WRAP, IN_LEN and DESC_LEN changes nothing, BUSY or not (R19, R49, R166). -/
theorem busWrite_readOnlyOffset (s : State) {o : Nat} (ho : o < 0x40000) (hro : o = 1 ∨ 6 ≤ o) (v : Word) :
    s.busWrite (BitVec.ofNat 20 o) v = s := by
  by_cases hb : s.status.state = .busy
  · exact busWrite_busy hb _ v
  · rw [busWrite_reg hb ho, writeRegister_ro s o v hro]

/-- Settles O9: a read in the window is `register`, whose word is valued row by row of R18's table; a reserved offset is
read-only. -/
theorem registerWindow : Obligations.RegisterWindow := by
  intro s hcap
  obtain ⟨-, hin, -, hout, -, hdesc⟩ := capacity_bounds hcap
  refine ⟨fun o ho => ?_, fun o v hlo ho => busWrite_readOnlyOffset s ho (by omega) v⟩
  rw [busRead_reg s ho]
  refine ⟨rfl, ?_⟩
  dsimp only
  split
  · exact Ctrl.toNat_word s.ctrl
  · exact toNat_statusWord s.status
  · exact ConfigReg.toNat_word s.config
  · exact BitVec.toNat_setWidth_of_le (by decide)
  · exact BitVec.toNat_setWidth_of_le (by decide)
  · exact BitVec.toNat_setWidth_of_le (by decide)
  · exact BitVec.toNat_setWidth_of_le (by decide)
  · exact BitVec.toNat_setWidth_of_le (by decide)
  · exact BitVec.toNat_setWidth_of_le (by decide)
  · exact BitVec.toNat_setWidth_of_le (by decide)
  · rfl
  · exact BitVec.toNat_setWidth_of_le (by decide)
  · exact StateProofs.toNat_capacityWord hin
  · exact StateProofs.toNat_capacityWord hout
  · exact StateProofs.toNat_capacityWord hdesc
  · simp [State.register]

/-! ## The parameters -/

/-- No command writes a parameter of the block (R38, R146). -/
theorem exec_params {i : Instr} {s t : State} (h : exec i s = .next t) : t.params = s.params := by
  rw [exec_eq] at h
  cases h
  rw [complete_params, State.started_params]

/-- No step changes a parameter of the block (R64). -/
theorem step_params {s t : State} (h : step s = .next t) : t.params = s.params := by
  obtain ⟨-, rfl⟩ | ⟨-, rfl⟩ | ⟨-, -, hexec⟩ | ⟨-, -, rfl⟩ := step_cases h
  case inl => rw [State.afterReset_params, State.ticked_params]
  case inr.inl => rw [hostMove_params, State.ticked_params]
  case inr.inr.inl => rw [exec_params hexec, State.ticked_params]
  case inr.inr.inr => rw [State.ticked_params]

/-- Settles O18: every step keeps the parameters, so a lookup is in the same ROM. -/
theorem romIsNeverModified : Obligations.RomIsNeverModified := by
  intro s t h
  rw [step_params h]
  exact ⟨rfl, fun _ => rfl, fun _ => rfl⟩

end Sys2Proof.MemoryProofs
end

section
/-! PROOFS of the encoding family (spec/30_encoding.md): a CTRL word that neither starts nor clears. -/

namespace Sys2Proof.EncodingProofs

open Sys2Proof Sys2Proof.Machine

/-- Settles O7: outside BUSY the write reaches CTRL, where a word without START and CLR sets the two fields only. -/
theorem setOnlyAction : Obligations.SetOnlyAction := by
  intro s v hb h8 h9
  calc s.busWrite ctrlAddr v = s.writeCtrl v := busWrite_ctrl hb v
    _ = { s with ctrl := ⟨wordCmd v, wordIe v⟩ } := writeCtrl_set h8 h9

end Sys2Proof.EncodingProofs
end

section
/-! PROOFS of the transposer family (spec/40_transposer.md): the loop against the slices, the bits a transposition keeps,
and the errors of TRANSPOSE. -/

namespace Sys2Proof.TransposerProofs

open Sys2Proof Sys2Proof.Machine

/-! ## The loop and the slices -/

/-- Settles O33: what the loop returns, read off the stream, is the definition by slices. -/
theorem loopIsTheSlices : Obligations.LoopIsTheSlices := by
  intro m n xs _ hn _
  rw [transpose_eq m hn]
  rfl

/-! ## The bits a transposition keeps -/

/-- The bits of a stream after its last complete group (R83). -/
def trailing (n : Nat) (s : List Bool) : List Bool := s.drop (s.length / n * n)

/-- The remainder of R83, without its case split: with no trailing bit the shifted value is 0 as well. -/
theorem transpose_remainder {n : Nat} (m : Nat) (hn : 1 ≤ n) (xs : List Nat) :
    (transpose m n xs).remainder =
      bitsValue (trailing n (bitStream m xs)) <<< (n - (transpose m n xs).bitsRemaining) := by
  rw [transpose_eq m hn]
  dsimp only
  split
  · rfl
  · next h =>
    have hnil : trailing n (bitStream m xs) = [] :=
      List.eq_nil_of_length_eq_zero ((trailing_length _).trans (Nat.eq_zero_of_not_pos h))
    rw [hnil, bitsValue, Nat.zero_shiftLeft]

theorem length_trailing {n : Nat} (m : Nat) (hn : 1 ≤ n) (xs : List Nat) :
    (trailing n (bitStream m xs)).length = (transpose m n xs).bitsRemaining := by
  rw [transpose_eq m hn]
  exact trailing_length _

/-- The remainder holds the trailing bits and then the filler bits, which are 0 (R83, R84). -/
theorem bitsOf_remainder {n : Nat} (m : Nat) (hn : 1 ≤ n) (xs : List Nat) :
    bitsOf n (transpose m n xs).remainder =
      trailing n (bitStream m xs) ++ List.replicate (n - (transpose m n xs).bitsRemaining) false := by
  have hr : (transpose m n xs).bitsRemaining < n := by
    rw [(transpose_bounds m hn xs).2.1]; exact Nat.mod_lt _ hn
  have h := bitsOf_shift (n - (transpose m n xs).bitsRemaining) (trailing n (bitStream m xs))
  rwa [length_trailing m hn, Nat.add_sub_cancel' hr.le, ← transpose_remainder m hn] at h

/-- The groups' bits are the stream up to its trailing bits (R82). -/
theorem bitStream_groups_append_trailing {n : Nat} (m : Nat) (hn : 1 ≤ n) (xs : List Nat) :
    bitStream n (transpose m n xs).groups ++ trailing n (bitStream m xs) = bitStream m xs := by
  rw [transpose_eq m hn, bitStream_codes hn]
  exact List.take_append_drop ..

/-- Settles O34: the stream is cut after its last complete group, and the remainder is what follows, shifted up. -/
theorem transposeKeepsEveryBit : Obligations.TransposeKeepsEveryBit := by
  intro m n xs _ hn _
  obtain ⟨hgroups, hbits, -, -⟩ := transpose_bounds m hn xs
  refine ⟨?_, ?_, ?_⟩
  · rw [bitsOf_remainder m hn, List.take_left' (length_trailing m hn xs), bitStream_groups_append_trailing m hn]
  · rw [transpose_remainder m hn, Nat.shiftLeft_eq, Nat.mul_mod_left]
  · rw [hgroups, hbits, Nat.div_add_mod']

/-! ## The errors of TRANSPOSE -/

/-- A command whose rule raises ends in ERROR with what was raised, if that fits the error registers (R148, R150). -/
theorem exec_completesError {i : Instr} {s : State} {e : Raise} (h : ruleOf i s = .error e) (hinfo : e.info < 2 ^ 32)
    (hindex : e.index < 2 ^ 19) : ∃ t, exec i s = .next t ∧ CompletesError i s t e := by
  have hstarted : ruleOf i (s.started i) = ruleOf i s :=
    ruleOf_congr i rfl rfl rfl rfl rfl (fun _ => rfl) (fun _ => rfl)
  refine ⟨(s.started i).completeError e, ?_, completesError_complete hinfo hindex⟩
  rw [exec_eq, hstarted, h]
  rfl

/-- The two widths packed in one number, as BAD_WIDTH reports them (R141). -/
theorem widthRaise_some {s : State} (h : s.config.trM.toNat = 0 ∨ s.config.trN.toNat = 0) :
    s.widthRaise = some ⟨.badWidth, s.config.trM.toNat + 256 * s.config.trN.toNat, 0⟩ := by
  have hm : s.config.trM.toNat < 2 ^ 8 := s.config.trM.isLt.trans (by decide)
  have hpack : s.config.trM.toNat ||| s.config.trN.toNat <<< 8 = s.config.trM.toNat + 256 * s.config.trN.toNat := by
    rw [Nat.or_comm, ← Nat.shiftLeft_add_eq_or_of_lt hm, Nat.shiftLeft_eq]
    omega
  rw [State.widthRaise, if_pos h, hpack]

theorem widthRaise_none {s : State} (hm : 1 ≤ s.config.trM.toNat) (hn : 1 ≤ s.config.trN.toNat) :
    s.widthRaise = none :=
  if_neg (by omega)

/-! The rule's errors in the order of its checks (R90, R145), each with what the checks before it need in order to pass. -/

/-- BAD_WIDTH comes before any element is read (R141). -/
theorem transposeRule_badWidth {s : State} (hlen : s.inLen.toNat ≤ s.params.inCap)
    (h : s.config.trM.toNat = 0 ∨ s.config.trN.toNat = 0) :
    transposeRule s = .error ⟨.badWidth, s.config.trM.toNat + 256 * s.config.trN.toNat, 0⟩ := by
  rw [transposeRule, State.inLenRaise_none hlen, widthRaise_some h]
  rfl

/-- VALUE_RANGE reports the first element that is too wide (R91). -/
theorem transposeRule_valueRange {s : State} (hlen : s.inLen.toNat ≤ s.params.inCap)
    (hm : 1 ≤ s.config.trM.toNat) (hn : 1 ≤ s.config.trN.toNat) {k : Nat} {v : Word} (hk : s.input[k]? = some v)
    (hv : 2 ^ s.config.trM.toNat ≤ v.toNat)
    (hfirst : ∀ j u, j < k → s.input[j]? = some u → u.toNat < 2 ^ s.config.trM.toNat) :
    transposeRule s = .error ⟨.valueRange, v.toNat, k⟩ := by
  rw [transposeRule, State.inLenRaise_none hlen, widthRaise_none hm hn, rangeRaise_some _ 0 k v hk hv hfirst, Nat.zero_add]
  rfl

/-- OUT_OVERFLOW reports the number of groups (R86, R144). -/
theorem transposeRule_outOverflow {s : State} (hlen : s.inLen.toNat ≤ s.params.inCap)
    (hm : 1 ≤ s.config.trM.toNat) (hn : 1 ≤ s.config.trN.toNat)
    (hrange : ∀ v ∈ s.input, v.toNat < 2 ^ s.config.trM.toNat)
    (hcap : s.params.outCap < s.config.trM.toNat * s.inLen.toNat / s.config.trN.toNat) :
    transposeRule s = .error ⟨.outOverflow, s.config.trM.toNat * s.inLen.toNat / s.config.trN.toNat, 0⟩ := by
  have hgroups := (transpose_bounds s.config.trM.toNat hn (s.input.map BitVec.toNat)).1
  rw [List.length_map, State.length_input] at hgroups
  rw [transposeRule, State.inLenRaise_none hlen, widthRaise_none hm hn, (rangeRaise_none _ 0).mpr hrange]
  dsimp only [check]
  rw [State.fitting_overflows (by rwa [List.length_map, hgroups]), List.length_map, hgroups]

/-- Settles O38: each clause is one raise of the rule, and what it reports fits ERR_INFO and ERR_INDEX. -/
theorem transposeFails : Obligations.TransposeFails := by
  intro s ie hcaps hlen
  obtain ⟨-, hin, -⟩ := capacity_bounds hcaps
  have hmlt : s.config.trM.toNat < 32 := s.config.trM.isLt
  have hnlt : s.config.trN.toNat < 32 := s.config.trN.isLt
  refine ⟨fun hzero => ?_, fun hm hn => ⟨fun k v hk hv hfirst => ?_, fun hrange hcap => ?_⟩⟩
  · exact exec_completesError (transposeRule_badWidth hlen hzero) (by dsimp only; omega) (Nat.two_pow_pos 19)
  · obtain ⟨hklt, -⟩ := List.getElem?_eq_some_iff.mp hk
    rw [State.length_input] at hklt
    exact exec_completesError (transposeRule_valueRange hlen hm hn hk hv hfirst) v.isLt (by dsimp only; omega)
  · refine exec_completesError (transposeRule_outOverflow hlen hm hn hrange hcap) ?_ (Nat.two_pow_pos 19)
    calc s.config.trM.toNat * s.inLen.toNat / s.config.trN.toNat
        ≤ s.config.trM.toNat * s.inLen.toNat := Nat.div_le_self ..
      _ ≤ 32 * 262144 := Nat.mul_le_mul hmlt.le (hlen.trans hin)
      _ < 2 ^ 32 := by decide

end Sys2Proof.TransposerProofs
end

section
/-! PROOFS of the encoder family (spec/41_encoder.md): the padding marker, the lengths of the output, the elements ENCODE
refuses, and the round trip through DECODE. -/

namespace Sys2Proof.EncoderProofs

open Sys2Proof Sys2Proof.Machine

/-! ## The padding marker -/

/-- The padding index in R99's form: 2 for each byte after the last multiple of 5. -/
theorem padOf_eq_two_mul_mod_five (n : Nat) : padOf n = 2 * (n % 5) := by
  unfold padOf
  split <;> omega

/-- With no part group the flat string is the groups' symbols alone (R95, R99). -/
theorem flatString_of_padOf_zero (r : Rom) {bs : List Nat} (h : padOf bs.length = 0) :
    flatString r (transpose 8 10 bs) = (transpose 8 10 bs).groups.map (symAt r) := by
  have hbits : (transpose 8 10 bs).bitsRemaining = 0 := by
    rw [bitsRemaining_8_10]
    rw [padOf_eq_two_mul_mod_five] at h
    omega
  rw [flatString_eq, if_neg (by omega), List.append_nil]

/-- With a part group the flat string ends in the marker of its padding index (R96). -/
theorem getLast?_flatString (r : Rom) {bs : List Nat} (h : padOf bs.length ≠ 0) :
    (flatString r (transpose 8 10 bs)).getLast? = some (padAt r (padOf bs.length)) := by
  rw [flatString_codeText, codeText, if_neg h, List.getLast?_concat]

/-- Settles O47: the padding index is twice the length modulo 5, and its marker is the last character. -/
theorem paddingSelection : Obligations.PaddingSelection := by
  intro r bs _
  have hpad : ∀ e, bs.length % 5 = e → padOf bs.length = 2 * e := fun e he => by
    rw [padOf_eq_two_mul_mod_five, he]
  have hlast : ∀ e, bs.length % 5 = e → e ≠ 0 →
      (flatString r (transpose 8 10 bs)).getLast? = some (padAt r (2 * e)) := fun e he h0 => by
    rw [getLast?_flatString r (by rw [hpad e he]; omega), hpad e he]
  exact ⟨fun h => flatString_of_padOf_zero r (hpad 0 h), fun h => hlast 1 h (by decide), fun h => hlast 2 h (by decide),
    fun h => hlast 3 h (by decide), fun h => hlast 4 h (by decide)⟩

/-! ## The lengths -/

/-- One code for each 10 bits, the part group counting as a whole one (R94, R98). -/
theorem length_codesOf (bs : List Nat) : (codesOf (transpose 8 10 bs)).length = (8 * bs.length + 9) / 10 := by
  obtain ⟨hgroups, hbits, -, -⟩ := transpose_bounds 8 (n := 10) (by decide) bs
  unfold codesOf
  split
  · rw [List.length_append, List.length_singleton]; omega
  · omega

/-- The flat string of some bytes is not empty (R98). -/
theorem flatString_ne_nil (r : Rom) {bs : List Nat} (h : bs ≠ []) : flatString r (transpose 8 10 bs) ≠ [] := by
  have hbs : 0 < bs.length := List.length_pos_iff.mpr h
  refine List.ne_nil_of_length_pos ?_
  rw [length_flatString]
  split <;> omega

/-- Settles O48: the flat string's length, carried through each presentation of R97. -/
theorem encodeLengths : Obligations.EncodeLengths := by
  intro r bs desc w n hbs _ hn
  have hflat : (flatString r (transpose 8 10 bs)).length = n := by rw [length_flatString, hn]
  refine ⟨length_codesOf bs, hflat, ?_, fun hw => ?_, ?_⟩
  · rw [encodeBytes_out hbs]
    exact hflat
  · rw [encodeBytes_out hbs]
    exact length_wrapLines hw n _ hflat (flatString_ne_nil r hbs)
  · rw [encodeBytes_out hbs]
    exact length_armorText r _ desc w

/-! ## The rule of ENCODE -/

/-- With both lengths in range, ENCODE checks its elements and then encodes them (R103). -/
theorem encodeRule_of_lengths {s : State} (hlen : s.inLen.toNat ≤ s.params.inCap)
    (hdesc : s.config.armor = true → s.config.descPresent = true → s.descLen.toNat ≤ s.params.descCap) :
    encodeRule s = check (rangeRaise 256 0 s.input) (s.fitting (encodeBytes s.params.rom (s.input.map BitVec.toNat)
      s.config.armor (if s.config.armor then s.selectDesc else []) s.wrap.toNat)) := by
  have hraise : (if s.config.armor then s.descLenRaise else none) = none := by
    split
    · next ha => exact State.descLenRaise_none (hdesc ha)
    · rfl
  rw [encodeRule, State.inLenRaise_none hlen, hraise]
  rfl

/-- VALUE_RANGE reports the first element that is no byte (R104). -/
theorem encodeRule_valueRange {s : State} (hlen : s.inLen.toNat ≤ s.params.inCap)
    (hdesc : s.config.armor = true → s.config.descPresent = true → s.descLen.toNat ≤ s.params.descCap)
    {k : Nat} {v : Word} (hk : s.input[k]? = some v) (hv : 256 ≤ v.toNat)
    (hfirst : ∀ j u, j < k → s.input[j]? = some u → u.toNat < 256) : encodeRule s = .error ⟨.valueRange, v.toNat, k⟩ := by
  rw [encodeRule_of_lengths hlen hdesc, rangeRaise_some _ 0 k v hk hv hfirst, Nat.zero_add]
  rfl

/-- Settles O50: the rule raises VALUE_RANGE, whose value is a word and whose index is below IN_CAP. -/
theorem encodeRefusesNonBytes : Obligations.EncodeRefusesNonBytes := by
  intro s ie k v hcaps hlen hdesc hk hv hfirst
  obtain ⟨-, hin, -⟩ := capacity_bounds hcaps
  obtain ⟨hklt, -⟩ := List.getElem?_eq_some_iff.mp hk
  rw [State.length_input] at hklt
  exact TransposerProofs.exec_completesError (encodeRule_valueRange hlen hdesc hk hv hfirst) v.isLt (by dsimp only; omega)

/-- An ENCODE that raises nothing had bytes for input, and returns their encoding (R92, R103). -/
theorem encodeRule_ok {s : State} {r : Result} (h : encodeRule s = .ok r) :
    (∀ v ∈ s.input, v.toNat < 256) ∧ r = encodeBytes s.params.rom (s.input.map BitVec.toNat) s.config.armor
      (if s.config.armor then s.selectDesc else []) s.wrap.toNat := by
  obtain ⟨-, h⟩ := check_ok h
  obtain ⟨-, h⟩ := check_ok h
  obtain ⟨hrange, h⟩ := check_ok h
  exact ⟨(rangeRaise_none _ _).mp hrange, (State.fitting_ok h).1⟩

/-! ## The way through the buffers -/

/-- START changes nothing a rule depends on (R59). -/
theorem ruleOf_started (i j : Instr) (s : State) : ruleOf i (s.started j) = ruleOf i s :=
  ruleOf_congr i rfl rfl rfl rfl rfl (fun _ => rfl) (fun _ => rfl)

/-- A command whose rule returns a result ends in DONE with it, if its side values fit their registers (R148, R149). -/
theorem exec_completesDone {i : Instr} {s : State} {r : Result} (h : ruleOf i s = .ok r)
    (hcaps : s.params.capacitiesOk = true) (hrem : r.trRem < 2 ^ 31) (hbits : r.trBits < 2 ^ 5)
    (hpad : r.decPad < 2 ^ 4) : ∃ t, exec i s = .next t ∧ CompletesDone i s t r := by
  obtain ⟨-, -, -, hout, -⟩ := capacity_bounds hcaps
  refine ⟨(s.started i).completeDone r, ?_, completesDone_complete (by omega) (ruleOf_fits h) hrem hbits hpad⟩
  rw [exec_eq, ruleOf_started, h]
  rfl

/-- A command that ended in DONE had a result, which stands in OUT_BUF with its length in OUT_LEN (R149). -/
theorem exec_done_output {i : Instr} {s t : State} (hcaps : s.params.capacitiesOk = true) (h : exec i s = .next t)
    (hdone : t.status.state = .done) :
    ∃ r, ruleOf i s = .ok r ∧ t.outLen.toNat = r.out.length ∧
      ∀ k, k < r.out.length → t.mem.get? (outBase + k) = r.out[k]? := by
  obtain ⟨-, -, -, hout, -⟩ := capacity_bounds hcaps
  rw [exec_eq, ruleOf_started] at h
  cases hr : ruleOf i s with
  | error e => rw [hr] at h; cases h; cases hdone
  | ok r =>
    have hfits := ruleOf_fits hr
    rw [hr] at h
    cases h
    refine ⟨r, rfl, Nat.mod_eq_of_lt (by omega), fun k hk => ?_⟩
    dsimp only [State.complete]
    rw [State.completeDone_mem, State.get?_setOutput, if_pos (by omega), Nat.add_sub_cancel_left]

/-- IN_BUF holds the words that stand at its addresses (R52). -/
theorem input_eq_of_get? {s : State} {vs : List Word} (hlen : s.inLen.toNat = vs.length)
    (h : ∀ k, k < vs.length → s.mem.get? (inBase + k) = vs[k]?) : s.input = vs := by
  rw [State.input, hlen]
  exact memRead_of_get rfl h

/-! ## The round trip -/

/-- What the decoder sees in an encoded text: the codes' symbols with their marker, and an envelope exactly where one was
asked for and there was something to encode (R93, R101, R119). -/
theorem flatBody_encodeBytes {r : Rom} {trim : List Word} (hr : r.wellFormed trim = true) (bs : List Nat) (a : Bool)
    {desc : List Word} (hd : a = true → lf ∉ desc) (w : Nat) {text : List Word}
    (htext : text = (encodeBytes r bs a desc w).out) :
    flatBody (trimmed trim text) (dearmor r (trimmed trim text)) =
        codeText r (codesOf (transpose 8 10 bs)) (padOf bs.length) ∧
      (dearmor r (trimmed trim text)).matched = (a && decide (bs.length ≠ 0)) := by
  by_cases hbs : bs = []
  · subst hbs
    have htrim : trimmed trim [] = [] := trimmed_id (fun _ h => nomatch h) (fun _ h => nomatch h)
    have htext : text = [] := htext
    rw [htext, htrim, dearmor_few (by decide)]
    exact ⟨rfl, (Bool.and_false a).symm⟩
  · have hmem : ∀ c ∈ codeText r (codesOf (transpose 8 10 bs)) (padOf bs.length),
        c ∈ r.sym.toList ∨ c ∈ [r.pad2, r.pad4, r.pad6, r.pad8] :=
      codeText_mem (codesOf_lt bs) (padOf_mem bs.length)
    obtain ⟨htrim, hbody, hmatched⟩ := flatBody_present hr hmem a hd w
    rw [encodeBytes_out hbs, flatString_codeText] at htext
    subst htext
    rw [htrim, hbody, hmatched]
    simp [hbs]

/-- A list of bytes is its decoding from the codes (R101), as words. -/
theorem words_of_codes {vs : List Word} (h : ∀ v ∈ vs, v.toNat < 256) :
    (dropArtifact (padOf vs.length)
      (transpose 10 8 (codesOf (transpose 8 10 (vs.map BitVec.toNat)))).groups).map (BitVec.ofNat 32) = vs := by
  have hbytes : ∀ b ∈ vs.map BitVec.toNat, b < 256 := List.forall_mem_map.mpr h
  have hback := dropArtifact_codesOf hbytes
  rw [List.length_map] at hback
  rw [hback, List.map_map]
  exact List.map_id'' (fun v => (BitVec.ofNat_toNat 32 v).trans (BitVec.setWidth_eq v)) vs

/-- DECODE of an encoded text returns the bytes (R101). -/
theorem decodeRule_encodeBytes {s : State} (hwf : s.params.wellFormed = true) (hlen : s.inLen.toNat ≤ s.params.inCap)
    (hfmt : s.config.fmt.toNat ≤ 1) {vs : List Word} (hvs : ∀ v ∈ vs, v.toNat < 256)
    (hcap : vs.length ≤ s.params.outCap) {a : Bool} {desc : List Word} (hd : a = true → lf ∉ desc) {w : Nat}
    (hinput : s.input = (encodeBytes s.params.rom (vs.map BitVec.toNat) a desc w).out) :
    ∃ r, decodeRule s = .ok r ∧ r.out = vs ∧ r.armorMatch = (a && decide (vs.length ≠ 0)) ∧
      r.trRem < 2 ^ 31 ∧ r.trBits < 2 ^ 5 ∧ r.decPad < 2 ^ 4 := by
  obtain ⟨-, hrom⟩ := Bool.and_eq_true_iff.mp hwf
  obtain ⟨hbody, hmatched⟩ := flatBody_encodeBytes hrom (vs.map BitVec.toNat) a hd w hinput
  have hrule := decodeRule_codeText hwf hlen hfmt (codesOf_lt _) (padOf_mem _) hbody
  obtain ⟨-, hbits, -, hrem⟩ := transpose_bounds 10 (n := 8) (by decide) (codesOf (transpose 8 10 (vs.map BitVec.toNat)))
  rw [List.length_map] at hmatched hrule
  rw [words_of_codes hvs, hmatched, State.fitting_fits hcap] at hrule
  refine ⟨_, hrule, rfl, rfl, by dsimp only; omega, by dsimp only; omega, ?_⟩
  have hpad := padOf_eq_two_mul_mod_five vs.length
  dsimp only
  omega

/-- Settles O57: the text ENCODE left is what DECODE reads, and decoding an encoded text returns the bytes. -/
theorem decodeInvertsEncode : Obligations.DecodeInvertsEncode := by
  intro s t s' ie ie' hwf hlf hexec hdone hparams hinLen hfits hcap hmem hfmt _
  obtain ⟨hcaps, -⟩ := Bool.and_eq_true_iff.mp hwf
  obtain ⟨enc, henc, houtLen, hout⟩ := exec_done_output hcaps hexec hdone
  obtain ⟨hbytes, rfl⟩ := encodeRule_ok henc
  have hinput := input_eq_of_get? (s := s') (by rw [hinLen, houtLen]) fun k hk => by
    rw [hmem k (houtLen ▸ hk), hout k hk]
  rw [← hparams] at hwf hcaps hinput hcap hfits
  have hdesc : s.config.armor = true → lf ∉ if s.config.armor then s.selectDesc else [] := fun ha => by
    rw [if_pos ha]; exact hlf ha
  obtain ⟨dec, hdec, hdecOut, hmatch, hrem, hbits, hpad⟩ :=
    decodeRule_encodeBytes hwf (hinLen ▸ hfits) hfmt hbytes (by rwa [State.length_input]) hdesc hinput
  obtain ⟨t', ht', -, hstatus, hlen', -, -, -, -, -, hbuf, -⟩ :=
    exec_completesDone (i := .decode ie') hdec hcaps hrem hbits hpad
  rw [hdecOut, State.length_input] at hlen'
  refine ⟨t', ht', ?_, BitVec.eq_of_toNat_eq hlen', fun k hk => ?_⟩
  · rw [hstatus, hmatch, State.length_input]
    simp [BitVec.toNat_eq]
  · rw [hbuf k (by omega), hdecOut]

end Sys2Proof.EncoderProofs
end

section
/-! PROOFS of the framer family (spec/42_framer.md): the lines of a wrapped string, the margins of an armored one, and the
envelope test against its pattern. -/

namespace Sys2Proof.FramerProofs

open Sys2Proof Sys2Proof.Machine

/-! ## The lines of a wrapped string -/

/-- The lines Wrap makes of a string (R106): W characters at a time, the last line being what is left. -/
def linesOf (w : Nat) (s : List Word) : List (List Word) :=
  if w = 0 ∨ s.length ≤ w then [s] else s.take w :: linesOf w (s.drop w)
termination_by s.length
decreasing_by rw [List.length_drop]; omega

/-- A string that fits one line is left as it is (R105). -/
theorem wrapLines_short {w : Nat} {s : List Word} (h : w = 0 ∨ s.length ≤ w) : wrapLines s w = s := by
  rcases Nat.eq_zero_or_pos w with rfl | hw
  · exact wrapLines_zero s
  · rw [wrapLines_step hw, if_pos (by omega)]

/-- A longer string is its first line, LF, and the rest wrapped (R105). -/
theorem wrapLines_long {w : Nat} {s : List Word} (h : ¬(w = 0 ∨ s.length ≤ w)) :
    wrapLines s w = s.take w ++ lf :: wrapLines (s.drop w) w := by
  rw [wrapLines_step (by omega), if_neg (by omega)]

theorem linesOf_ne_nil (w : Nat) (s : List Word) : linesOf w s ≠ [] := by
  unfold linesOf
  split <;> exact List.cons_ne_nil _ _

/-- Wrap joins the lines by LF (R105, R106). -/
theorem wrapLines_eq_intercalate (w : Nat) (s : List Word) : wrapLines s w = [lf].intercalate (linesOf w s) := by
  fun_induction linesOf w s with
  | case1 s h => rw [wrapLines_short h, List.intercalate_singleton]
  | case2 s h ih =>
    rw [wrapLines_long h, ih, List.intercalate_cons_of_ne_nil (linesOf_ne_nil _ _), List.append_assoc]
    rfl

theorem flatten_linesOf (w : Nat) (s : List Word) : (linesOf w s).flatten = s := by
  fun_induction linesOf w s with
  | case1 s h => exact List.flatten_singleton
  | case2 s h ih => rw [List.flatten_cons, ih, List.take_append_drop]

/-- There are ceil(N/W) lines. -/
theorem length_linesOf {w : Nat} (hw : 0 < w) {s : List Word} (hs : s ≠ []) :
    (linesOf w s).length = (s.length + w - 1) / w := by
  fun_induction linesOf w s with
  | case1 s h =>
    have hpos : 0 < s.length := List.length_pos_iff.mpr hs
    rw [List.length_singleton]
    exact (Nat.div_eq_of_lt_le (by omega) (by omega)).symm
  | case2 s h ih =>
    have hrest : s.drop w ≠ [] := fun hnil => h (Or.inr (List.drop_eq_nil_iff.mp hnil))
    rw [List.length_cons, ih hrest, List.length_drop, ceil_step (n := s.length) hw (by omega)]

/-- Every line but the last has exactly W characters. -/
theorem length_of_mem_dropLast_linesOf {w : Nat} {s l : List Word} (hl : l ∈ (linesOf w s).dropLast) : l.length = w := by
  fun_induction linesOf w s with
  | case1 s h => cases hl
  | case2 s h ih =>
    rw [List.dropLast_cons_of_ne_nil (linesOf_ne_nil _ _)] at hl
    rcases List.mem_cons.mp hl with rfl | hl
    · rw [List.length_take]; omega
    · exact ih hl

/-- The last line has what the full lines before it leave. -/
theorem length_last_linesOf {w : Nat} {s l : List Word} (hl : (linesOf w s).getLast? = some l) :
    s.length = w * ((linesOf w s).length - 1) + l.length := by
  have hlines : (linesOf w s).dropLast ++ [l] = linesOf w s := List.dropLast_append_getLast? l hl
  calc s.length = ((linesOf w s).dropLast ++ [l]).flatten.length := by rw [hlines, flatten_linesOf]
    _ = w * ((linesOf w s).length - 1) + l.length := by
      rw [List.flatten_append, List.flatten_singleton, List.length_append, List.length_flatten,
        List.map_eq_replicate_iff.mpr fun _ => length_of_mem_dropLast_linesOf, List.sum_replicate_nat,
        List.length_dropLast, Nat.mul_comm]

theorem wrapLines_nil (w : Nat) : wrapLines [] w = [] := wrapLines_short (Or.inr (Nat.zero_le w))

/-- Wrapping leaves the first character first (R105). -/
theorem head?_wrapLines (s : List Word) (w : Nat) : (wrapLines s w).head? = s.head? := by
  by_cases h : w = 0 ∨ s.length ≤ w
  · rw [wrapLines_short h]
  · have htake : s.take w ≠ [] := List.ne_nil_of_length_pos (by rw [List.length_take]; omega)
    rw [wrapLines_long h, List.head?_append_of_ne_nil _ htake, List.head?_take, if_neg (by omega)]

/-- Wrapping leaves the last character last (R105). -/
theorem getLast?_wrapLines (s : List Word) (w : Nat) : (wrapLines s w).getLast? = s.getLast? := by
  induction s using linesOf.induct w with
  | case1 s h => rw [wrapLines_short h]
  | case2 s h ih =>
    have hs : s ≠ [] := List.ne_nil_of_length_pos (by omega)
    rw [wrapLines_long h, List.getLast?_append, List.getLast?_cons, ih, List.getLast?_drop, if_neg (by omega),
      List.getLast?_eq_some_getLast hs]
    rfl

/-- Settles O39: the lines are `linesOf`, and the ends of the wrapped string are the ends of the string. -/
theorem wrapLaws : Obligations.WrapLaws := by
  refine ⟨wrapLines_nil, fun s w hw hs hlf => ?_⟩
  have hlen := length_linesOf hw hs
  refine ⟨linesOf w s, hlen, wrapLines_eq_intercalate w s, flatten_linesOf w s,
    fun l => length_of_mem_dropLast_linesOf, fun l hl => ?_, ?_, ?_, length_wrapLines hw _ s rfl hs⟩
  · have hlast := length_last_linesOf hl
    rw [← hlen]
    omega
  · rw [head?_wrapLines]
    exact fun h => hlf (List.mem_of_mem_head? h)
  · rw [getLast?_wrapLines]
    exact fun h => hlf (List.mem_of_getLast? h)

/-! ## The margins of an armored line -/

/-- The bound of R109 on the descriptor. -/
theorem length_take_descBound_le (desc : List Word) (w : Nat) : (desc.take (descBound w)).length ≤ w / 2 - 2 := by
  rw [List.length_take, descBound_eq]
  exact Nat.min_le_left _ _

/-- A centred descriptor and marker, the right margin being the left one or one more (R111, R113). -/
theorem centred_marker (mark x : Word) (d : List Word) (w : Nat) :
    centred mark (d ++ [x]) w = List.replicate ((w - d.length - 1) / 2) mark ++ d ++ [x] ++
      List.replicate ((w - d.length - 1) / 2 + (w - d.length - 1) % 2) mark := by
  rw [centred_eq, List.length_append, List.length_singleton, Nat.sub_add_eq,
    show (w - d.length - 1 + 1) / 2 = (w - d.length - 1) / 2 + (w - d.length - 1) % 2 by omega, List.append_assoc _ d]

/-- Settles O41: each line is `centred_marker`, and the rest is arithmetic from the bound on the descriptor. -/
theorem armorLaws : Obligations.ArmorLaws := by
  intro r desc w d l rp
  have hd : d.length ≤ w / 2 - 2 := length_take_descBound_le desc w
  refine ⟨fun hw => ⟨centred_marker .., centred_marker .., by omega⟩, fun hw => by omega, fun hw => ?_, fun hw => ?_⟩
  · exact List.eq_nil_of_length_eq_zero (by omega)
  · subst hw
    exact ⟨rfl, rfl⟩

/-! ## The envelope test -/

/-- Settles O43: a match is an envelope and an envelope matches with its body; without a match the region is the whole
list. -/
theorem dearmorMatchesThePattern : Obligations.DearmorMatchesThePattern := by
  intro r trim t hr
  refine ⟨⟨dearmor_matched hr, fun ⟨_, h⟩ => (dearmor_envelope hr h).1⟩, fun _ h => (dearmor_envelope hr h).2, fun h => ?_⟩
  rw [dearmor_unmatched h]
  exact slice_all t

end Sys2Proof.FramerProofs
end

section
/-! PROOFS of the exceptions family (spec/60_exceptions.md): START, and the errors ILLEGAL_CMD, LENGTH, INVALID_SYMBOL and
INVALID_FORMAT. -/

namespace Sys2Proof.ExceptionProofs

open Sys2Proof Sys2Proof.Machine
open Sys2Proof.TransposerProofs (exec_completesError)

/-! ## START -/

/-- An accepted START word starts the command of its CMD and IE fields (R69, R147). -/
theorem busWrite_start {s : State} {w : Word} (hb : s.status.state ≠ .busy) (h8 : w.getLsbD 8 = true) :
    s.busWrite ctrlAddr w = s.started (.ofCode (wordCmd w) (wordIe w)) := by
  rw [busWrite_ctrl hb, writeCtrl_start h8]

theorem freshlyStarted_started (s : State) (i : Instr) : (s.started i).FreshlyStarted :=
  ⟨rfl, rfl, rfl, rfl, rfl, rfl, rfl⟩

theorem sameOperands_started (s : State) (i : Instr) : SameOperands s (s.started i) :=
  ⟨rfl, rfl, rfl, rfl, rfl, rfl, rfl, rfl, fun _ _ => rfl⟩

/-- Settles O5: outside BUSY the write is `started` with the command of the word, and while BUSY it is dropped. -/
theorem startAction : Obligations.StartAction := by
  intro s w h8
  refine ⟨fun hb => ⟨_, busWrite_start hb h8, freshlyStarted_started s _, ?_, ?_, sameOperands_started s _, rfl, rfl⟩,
    fun hb => busWrite_busy hb ctrlAddr w⟩
  · exact Instr.code_ofCode ..
  · exact Instr.ie_ofCode ..

/-! ## ILLEGAL_CMD -/

/-- A command whose rule is that of a reserved code ends in ILLEGAL_CMD with the code (R140). -/
theorem exec_completesError_of_illegalRule {i : Instr} {code : BitVec 4} (h : ruleOf i = illegalRule code) (s : State) :
    ∃ t, exec i s = .next t ∧ CompletesError i s t ⟨.illegalCmd, code.toNat, 0⟩ :=
  exec_completesError (congrFun h s) (code.isLt.trans (by decide)) (Nat.two_pow_pos 19)

/-- Settles O31: both constructors of the reserved codes run the rule of their code. -/
theorem reservedCodesFail : Obligations.ReservedCodesFail :=
  ⟨fun s _ => exec_completesError_of_illegalRule (code := 7#4) rfl s, fun s _ _ => exec_completesError_of_illegalRule rfl s⟩

/-! ## LENGTH -/

theorem descLenRaise_some {s : State} (hp : s.config.descPresent = true) (h : s.params.descCap < s.descLen.toNat) :
    s.descLenRaise = some ⟨.length, s.descLen.toNat, 1⟩ :=
  if_pos ⟨hp, h⟩

/-- With IN_LEN in range, ARMOR's next check is the descriptor's length (R122). -/
theorem armorRule_descLength {s : State} (hlen : s.inLen.toNat ≤ s.params.inCap) (hp : s.config.descPresent = true)
    (h : s.params.descCap < s.descLen.toNat) : armorRule s = .error ⟨.length, s.descLen.toNat, 1⟩ := by
  rw [armorRule, State.inLenRaise_none hlen, descLenRaise_some hp h]
  rfl

/-- With IN_LEN in range and ARMOR = 1, ENCODE's next check is the descriptor's length (R103). -/
theorem encodeRule_descLength {s : State} (hlen : s.inLen.toNat ≤ s.params.inCap) (ha : s.config.armor = true)
    (hp : s.config.descPresent = true) (h : s.params.descCap < s.descLen.toNat) :
    encodeRule s = .error ⟨.length, s.descLen.toNat, 1⟩ := by
  rw [encodeRule, State.inLenRaise_none hlen, if_pos ha, descLenRaise_some hp h]
  rfl

/-- Settles O32: IN_LEN is the first check of every rule that has one, and DESC_LEN the second of ARMOR and ENCODE. -/
theorem lengthErrors : Obligations.LengthErrors := by
  intro s ie _
  have hin : s.inLen.toNat < 2 ^ 32 := s.inLen.isLt.trans (by decide)
  have hdesc : s.descLen.toNat < 2 ^ 32 := s.descLen.isLt.trans (by decide)
  refine ⟨fun h i hi => ?_, fun hlen hp h i hi => ?_⟩
  · have hnop : ∀ ie', i ≠ .nop ie' := by rintro _ rfl; simp at hi
    have hillegal7 : ∀ ie', i ≠ .illegal7 ie' := by rintro _ rfl; simp at hi
    have hillegalHigh : ∀ c ie', i ≠ .illegalHigh c ie' := by rintro _ _ rfl; simp at hi
    exact exec_completesError (ruleOf_length h hnop hillegal7 hillegalHigh) hin (Nat.two_pow_pos 19)
  · obtain rfl | ⟨rfl, ha⟩ := hi
    · exact exec_completesError (armorRule_descLength hlen hp h) hdesc (Nat.one_lt_two_pow (by decide))
    · exact exec_completesError (encodeRule_descLength hlen ha hp h) hdesc (Nat.one_lt_two_pow (by decide))

/-! ## Step 3 of DECODE -/

/-- A padding marker in the last place is taken off (R128). -/
theorem depad_snd_marker {r : Rom} (ps : List Placed) {l : Placed} (h : l.char ∈ r.padSet) :
    (depad r (ps ++ [l])).2 = ps := by
  obtain ⟨k, hk⟩ : ∃ k, padIdx? r l.char = some k :=
    Option.ne_none_iff_exists'.mp fun hnone => padIdx_none_iff.mp hnone h
  rw [depad_marker hk]

/-- Without one nothing is taken off (R128). -/
theorem depad_snd_plain {r : Rom} {ps : List Placed} (h : ∀ l, ps.getLast? = some l → l.char ∉ r.padSet) :
    (depad r ps).2 = ps := by
  rw [depad_plain h]

/-! ## INVALID_SYMBOL -/

/-- With IGNORE_GARBAGE = 0, DECODE raises at the first character left after step 3 that is outside SYM, before it looks at
FMT (R129, R130, R138). -/
theorem decodeRule_invalidSymbol {s : State} (hlen : s.inLen.toNat ≤ s.params.inCap)
    (hig : s.config.ignoreGarbage = false) {pre post : List Placed} {q : Placed}
    (hrest : (depad s.params.rom (flatPlaced s.params s.input).1).2 = pre ++ q :: post)
    (hpre : ∀ x ∈ pre, x.char ∈ s.params.rom.sym.toList) (hq : q.char ∉ s.params.rom.sym.toList) :
    decodeRule s = .error ⟨.invalidSymbol, q.char.toNat, q.pos⟩ := by
  have hcodes : mapCodes s.params.rom (dropGarbage s.params.rom s.config.ignoreGarbage (pre ++ q :: post)) =
      .error ⟨.invalidSymbol, q.char.toNat, q.pos⟩ := by
    rw [hig]
    exact mapCodes_error (fun x hx => symIdx_isSome_iff.mpr (hpre x hx)) (symIdx_none_iff.mpr hq)
  rw [decodeRule, State.inLenRaise_none hlen, decodeText]
  dsimp only [check]
  rw [hrest, hcodes]

/-- Settles O54: step 3 leaves the sequence up to the marker, step 5 raises at its first character outside SYM, and a
character of the flat sequence stands in IN_BUF at its position. -/
theorem decodeRefusesInvalidSymbols : Obligations.DecodeRefusesInvalidSymbols := by
  intro s ie pre post q _ hlen hig hflat hpre hq
  have hrest : (depad s.params.rom (flatPlaced s.params s.input).1).2 = pre ++ q :: post := by
    obtain ⟨l, hps, hl⟩ | ⟨hps, hlast⟩ := hflat
    · rw [hps, depad_snd_marker _ hl]
    · rw [hps, depad_snd_plain]
      rwa [List.getLast?_append_of_ne_nil _ (List.cons_ne_nil q post)]
  have hmem : q ∈ (flatPlaced s.params s.input).1 := depad_mem q (by rw [hrest]; simp)
  have hpos : s.input[q.pos]? = some q.char := flatPlaced_pos s.params s.input q hmem
  have hindex : q.pos < 2 ^ 19 := by
    obtain ⟨hlt, -⟩ := List.getElem?_eq_some_iff.mp hpos
    rw [State.length_input] at hlt
    exact hlt.trans s.inLen.isLt
  obtain ⟨t, ht, herr⟩ := exec_completesError (i := .decode ie) (decodeRule_invalidSymbol hlen hig hrest hpre hq)
    q.char.isLt hindex
  exact ⟨t, ht, herr, hpos⟩

/-! ## INVALID_FORMAT -/

/-- When steps 4 and 5 raise nothing, DECODE raises at a FMT of 2 or 3 (R133, R139). -/
theorem decodeRule_invalidFormat {s : State} (hlen : s.inLen.toNat ≤ s.params.inCap) (hfmt : 2 ≤ s.config.fmt.toNat)
    (h : s.config.ignoreGarbage = true ∨
      ∀ q ∈ (depad s.params.rom (flatPlaced s.params s.input).1).2, q.char ∈ s.params.rom.sym.toList) :
    decodeRule s = .error ⟨.invalidFormat, s.config.fmt.toNat, 0⟩ := by
  have hcodes := mapCodes_dropGarbage (h.imp_right fun hsym q hq => symIdx_isSome_iff.mpr (hsym q hq))
  rw [decodeRule_eq hlen hcodes, if_neg (by omega)]

/-- Settles O55: in each case the characters left after step 3 raise nothing in step 5, so the format check is reached. -/
theorem decodeRefusesInvalidFormats : Obligations.DecodeRefusesInvalidFormats := by
  intro s ie _ hlen hfmt hvalid
  have hsym : s.config.ignoreGarbage = true ∨
      ∀ q ∈ (depad s.params.rom (flatPlaced s.params s.input).1).2, q.char ∈ s.params.rom.sym.toList := by
    obtain hig | hall | ⟨ps, l, hps, hl, hall⟩ := hvalid
    · exact .inl hig
    · exact .inr fun q hq => hall q (depad_mem q hq)
    · rw [hps, depad_snd_marker ps hl]
      exact .inr hall
  exact exec_completesError (i := .decode ie) (decodeRule_invalidFormat hlen hfmt hsym)
    (s.config.fmt.isLt.trans (by decide)) (Nat.two_pow_pos 19)

end Sys2Proof.ExceptionProofs
end

section
/-! PROOFS of the reset and hazards family (spec/70_reset_and_hazards.md): the two formats of DECODE give the same words. -/

namespace Sys2Proof.HazardProofs

open Sys2Proof Sys2Proof.Machine
open Sys2Proof.EncoderProofs (ruleOf_started)

/-! ## FMT -/

/-- The state with another FMT in CONFIG (R30). -/
def withFmt (s : State) (f : BitVec 2) : State := { s with config := { s.config with fmt := f } }

theorem withFmt_withFmt (s : State) (f g : BitVec 2) : withFmt (withFmt s f) g = withFmt s g := rfl

theorem started_withFmt (s : State) (f : BitVec 2) (i : Instr) : (withFmt s f).started i = withFmt (s.started i) f := rfl

/-- A completion leaves CONFIG alone and does not look at it (R149, R150). -/
theorem complete_withFmt (s : State) (f : BitVec 2) (r : Except Raise Result) :
    (withFmt s f).complete r = withFmt (s.complete r) f := by
  cases r <;> rfl

/-- FMT reaches what a command leaves through its rule alone. -/
theorem exec_withFmt (i : Instr) (s : State) (f : BitVec 2) :
    exec i (withFmt s f) = .next (withFmt ((s.started i).complete (ruleOf i (withFmt s f))) f) := by
  rw [exec_eq, ruleOf_started, started_withFmt, complete_withFmt]

/-- Decode's only look at its format is the check of step 8, which 0 and 1 both pass (R133). -/
theorem decodeText_string_eq_binary (p : Params) (raw : List Word) (ignore : Bool) :
    decodeText p raw 0 ignore = decodeText p raw 1 ignore := by
  dsimp only [decodeText]
  split
  · rfl
  · rw [if_pos (Or.inl rfl), if_pos (Or.inr rfl)]

/-- DECODE's rule reads FMT for Decode's format alone (R136). -/
theorem decodeRule_string_eq_binary (s : State) : decodeRule (withFmt s 0#2) = decodeRule (withFmt s 1#2) := by
  have htext : decodeText (withFmt s 0#2).params (withFmt s 0#2).input (withFmt s 0#2).config.fmt.toNat
        (withFmt s 0#2).config.ignoreGarbage =
      decodeText s.params s.input (withFmt s 1#2).config.fmt.toNat s.config.ignoreGarbage :=
    decodeText_string_eq_binary ..
  rw [decodeRule, htext]
  rfl

/-- Settles O56: DECODE's rule is the same under both formats, and FMT reaches nothing else of the command. -/
theorem stringAndBinaryAgree : Obligations.StringAndBinaryAgree := by
  intro s ie t h
  have ht : withFmt ((s.started (.decode ie)).complete (decodeRule (withFmt s 0#2))) 0#2 = t :=
    Host.Outcome.next.inj ((exec_withFmt (.decode ie) s 0#2).symm.trans h)
  calc exec (.decode ie) (withFmt s 1#2)
      = .next (withFmt ((s.started (.decode ie)).complete (decodeRule (withFmt s 1#2))) 1#2) := exec_withFmt ..
    _ = .next (withFmt t 1#2) := by rw [← ht, withFmt_withFmt, decodeRule_string_eq_binary]

end Sys2Proof.HazardProofs
end

section
/-! PROOFS about the command word (spec/30_encoding.md R67 to R72): decoding against encoding, the rows of the opcode
table, and the ignored bits. -/

namespace Sys2Proof.CommandWordProofs

open Sys2Proof Sys2Proof.Machine

/-! ## Decoding and encoding -/

/-- A command's word has START set, and its CMD and IE are the command's. -/
theorem encode_fields (i : Instr) :
    (encode i).getLsbD 8 = true ∧ wordCmd (encode i) = i.code ∧ wordIe (encode i) = i.ie := by
  have fields : ∀ (c : BitVec 4) (ie : Bool) (w : Word),
      w = 0x100#32 ||| c.zeroExtend 32 ||| (if ie then 0x10000#32 else 0#32) →
        w.getLsbD 8 = true ∧ wordCmd w = c ∧ wordIe w = ie := by
    rintro c ie w rfl
    revert c
    cases ie <;> decide
  exact fields i.code i.ie _ rfl

/-- A well-formed command is the one its code names (R70). -/
theorem ofCode_code_ie {i : Instr} (h : i.wellFormed = true) : Instr.ofCode i.code i.ie = i := by
  cases i with
  | illegalHigh code ie =>
    have hcodes : ∀ c : BitVec 4, 8 ≤ c.toNat → Instr.ofCode c ie = .illegalHigh c ie := by cases ie <;> decide
    exact hcodes code (of_decide_eq_true h)
  | _ => rfl

theorem decode_encode {i : Instr} (h : i.wellFormed = true) : decode (encode i) = .ok i := by
  obtain ⟨hstart, hcmd, hie⟩ := encode_fields i
  rw [decode_start hstart, hcmd, hie, ofCode_code_ie h]

/-- The significant bits of a command word are START with CMD, and IE (R68). -/
theorem significantBits_of_start {w : Word} (h : w.getLsbD 8 = true) :
    w &&& significantBits = 0x100#32 ||| (wordCmd w).zeroExtend 32 ||| (if wordIe w then 0x10000#32 else 0#32) := by
  have hie : w &&& 0x10000#32 = if wordIe w then 0x10000#32 else 0#32 := BitVec.and_twoPow w 16
  have hsplit : w &&& significantBits = w &&& 0x10F#32 ||| w &&& 0x10000#32 :=
    BitVec.and_or_distrib_left (x := w) (y := 0x10F#32) (z := 0x10000#32)
  rw [hsplit, startRow_iff.mpr h, hie]

/-- Settles O1: a command's word has the command's fields, and a word's significant bits are those fields. -/
theorem decodeAndEncodeAgree : Obligations.DecodeAndEncodeAgree := by
  refine ⟨fun i => decode_encode, fun w i h => ?_⟩
  obtain ⟨hstart, rfl⟩ := decode_ok h
  refine ⟨ofCode_wf _ _, ?_⟩
  rw [encode, Instr.code_ofCode, Instr.ie_ofCode, significantBits_of_start hstart]

/-! ## The rows of the opcode table -/

/-- Settles O2: a row covers exactly the words that decode to a command of that row. -/
theorem oneOpcodeRowPerCommand : Obligations.OneOpcodeRowPerCommand := by
  refine ⟨fun w i h j => ?_, fun w j h => ?_⟩
  · obtain ⟨hstart, rfl⟩ := decode_ok h
    exact (covers_iff w j).trans ((and_iff_right hstart).trans eq_comm)
  · obtain ⟨hstart, hrow⟩ := (covers_iff w j).mp h
    exact ⟨_, decode_start hstart, hrow⟩

/-! ## The ignored bits -/

/-- A CTRL write looks at the decoded word and its CMD and IE fields only. -/
theorem writeCtrl_masked (s : State) (w : Word) : s.writeCtrl (w &&& 0x1030F#32) = s.writeCtrl w := by
  obtain ⟨hcmd, hie⟩ := wordbits_masked w
  rw [State.writeCtrl, State.writeCtrl, decode_masked, hcmd, hie]

/-- Settles O4: a write to CTRL is dropped while BUSY, and otherwise looks at no ignored bit. -/
theorem ignoredBitsDoNothing : Obligations.IgnoredBitsDoNothing := by
  intro s w
  by_cases hb : s.status.state = .busy
  · rw [busWrite_busy hb, busWrite_busy hb]
  · rw [busWrite_ctrl hb, busWrite_ctrl hb, writeCtrl_masked]

/-! ## Words of the field table -/

/-- Settles O3: each word is decoded as it stands. -/
theorem writtenOutWordsDecode : Obligations.WrittenOutWordsDecode := by
  unfold Obligations.WrittenOutWordsDecode
  decide

end Sys2Proof.CommandWordProofs
end

section
/-! PROOFS about completions (spec/60_exceptions.md R146 to R150), once for all commands: what a command leaves in
OUT_BUF and in its registers, what it keeps, and what it depends on. -/

namespace Sys2Proof.CompletionProofs

open Sys2Proof Sys2Proof.Machine
open Sys2Proof.EncoderProofs (ruleOf_started exec_completesDone)
open Sys2Proof.TransposerProofs (exec_completesError)

/-! ## What exec can leave -/

/-- Every command ends in the DONE completion of its rule's result, or in the ERROR completion of what the rule
raised. -/
theorem exec_cases {i : Instr} {s t : State} (h : exec i s = .next t) :
    (∃ r, ruleOf i s = .ok r ∧ t = (s.started i).completeDone r) ∨
      ∃ e, ruleOf i s = .error e ∧ t = (s.started i).completeError e := by
  rw [exec_eq, ruleOf_started] at h
  cases hr : ruleOf i s with
  | ok r => rw [hr] at h; cases h; exact .inl ⟨r, rfl, rfl⟩
  | error e => rw [hr] at h; cases h; exact .inr ⟨e, rfl, rfl⟩

/-- A completion with an output that fits OUT_BUF writes OUT_BUF alone (R50, R149, R150). -/
theorem get?_setOutput_outside {s : State} {out : List Word} (hfit : out.length ≤ s.params.outCap) {a : Nat}
    (ha : ¬ s.inOutBuf a) : (s.setOutput out).mem.get? a = s.mem.get? a := by
  unfold State.inOutBuf at ha
  rw [State.get?_setOutput, if_neg (by omega), if_neg ha]

/-- In OUT_BUF it leaves the output, and no word after it (R149, R168). -/
theorem get?_setOutput_outBuf (s : State) (out : List Word) {k : Nat} (hk : k < s.params.outCap) :
    (s.setOutput out).mem.get? (outBase + k) = out[k]? := by
  rw [State.get?_setOutput, Nat.add_sub_cancel_left]
  split
  · rfl
  · rw [if_pos (by omega), List.getElem?_eq_none (by omega)]

/-- The words an output specifies are those below its length. -/
theorem isSome_setOutput_iff (s : State) (out : List Word) {k : Nat} (hk : k < s.params.outCap) :
    ((s.setOutput out).mem.get? (outBase + k)).isSome = true ↔ k < out.length := by
  rw [get?_setOutput_outBuf s out hk, isSome_getElem?]

/-- OUT_LEN names the whole output: an output that fits a legal OUT_CAP fits the register (R7, R36). -/
theorem toNat_outLen {p : Params} (hcaps : p.capacitiesOk = true) {out : List Word} (hfit : out.length ≤ p.outCap) :
    (BitVec.ofNat 19 out.length).toNat = out.length := by
  obtain ⟨-, -, -, hout, -⟩ := capacity_bounds hcaps
  exact Nat.mod_eq_of_lt (by omega)

/-! ## Every command completes -/

theorem sameOperands_completeDone {s : State} (i : Instr) {r : Result} (hfit : r.out.length ≤ s.params.outCap) :
    SameOperands s ((s.started i).completeDone r) :=
  ⟨rfl, rfl, rfl, rfl, rfl, rfl, rfl, rfl, fun _ ha => get?_setOutput_outside (s := s.started i) hfit ha⟩

theorem sameOperands_completeError (s : State) (i : Instr) (e : Raise) :
    SameOperands s ((s.started i).completeError e) :=
  ⟨rfl, rfl, rfl, rfl, rfl, rfl, rfl, rfl,
    fun _ ha => get?_setOutput_outside (s := s.started i) (out := []) (Nat.zero_le _) ha⟩

/-- Settles O27: the rule returns a result that fits OUT_CAP or raises, and each completion says the rest. -/
theorem everyCommandCompletes : Obligations.EveryCommandCompletes := by
  intro i s hcaps
  refine ⟨_, exec_eq i s, ?_⟩
  obtain ⟨r, hr, ht⟩ | ⟨e, -, ht⟩ := exec_cases (exec_eq i s)
  · have hfit := ruleOf_fits hr
    have hlen := toNat_outLen hcaps hfit
    rw [ht]
    refine ⟨sameOperands_completeDone i hfit, rfl, .inl ⟨rfl, rfl, rfl, rfl, ?_, fun k hk => ?_⟩⟩
    · rwa [State.completeDone_outLen, hlen]
    · rw [State.completeDone_outLen, hlen]
      exact isSome_setOutput_iff (s.started i) r.out hk
  · rw [ht]
    refine ⟨sameOperands_completeError s i e, rfl, .inr ⟨rfl, nofun, rfl, rfl, rfl, rfl, rfl, fun k hk => ?_⟩⟩
    exact get?_setOutput_outBuf (s.started i) [] hk

/-- Settles O30: NOP's rule returns the empty result, whose side values are 0. -/
theorem nopCompletes : Obligations.NopCompletes := by
  intro s ie hcaps
  obtain ⟨t, ht, hdone⟩ := exec_completesDone (i := .nop ie) (s := s) rfl hcaps (Nat.two_pow_pos 31)
    (Nat.two_pow_pos 5) (Nat.two_pow_pos 4)
  have ⟨_, hstatus, _⟩ := hdone
  refine ⟨t, ht, hdone, ?_⟩
  have hread : (t.busRead statusAddr).1 = t.status.word := congrArg Prod.fst (busRead_reg t (o := 1) (by decide))
  rw [hread, hstatus]
  rfl

/-! ## The last check -/

/-- A command whose rule ends in the check of R144 completes with its result, or with OUT_OVERFLOW. -/
theorem exec_of_fitting {i : Instr} {s : State} {r : Result} (h : ruleOf i s = s.fitting r)
    (hcaps : s.params.capacitiesOk = true) (hlen : r.out.length < 2 ^ 32) (hrem : r.trRem < 2 ^ 31)
    (hbits : r.trBits < 2 ^ 5) (hpad : r.decPad < 2 ^ 4) :
    (r.out.length ≤ s.params.outCap → ∃ t, exec i s = .next t ∧ CompletesDone i s t r) ∧
      (s.params.outCap < r.out.length →
        ∃ t, exec i s = .next t ∧ CompletesError i s t ⟨.outOverflow, r.out.length, 0⟩) := by
  refine ⟨fun hfit => ?_, fun hover => ?_⟩
  · exact exec_completesDone (h.trans (State.fitting_fits hfit)) hcaps hrem hbits hpad
  · exact exec_completesError (h.trans (State.fitting_overflows hover)) hlen (Nat.two_pow_pos 19)

/-! ## Running a command again, or on another state -/

/-- A command leaves the completion of what its rule answers. -/
theorem exec_of_ruleOf {i : Instr} {s : State} {x : Except Raise Result} (h : ruleOf i s = x) :
    exec i s = .next ((s.started i).complete x) := by
  rw [exec_eq, ruleOf_started, h]

/-- The elements a command reads lie below the capacities: it has passed its checks of R143. -/
theorem readsInput_inLen {i : Instr} {s : State} (h : s.readsInput i) : s.inLen.toNat ≤ s.params.inCap := by
  cases i with
  | nop ie => exact h.elim
  | transpose ie => exact h.1
  | encode ie => exact h.1
  | decode ie => exact h
  | wrap ie => exact h
  | armor ie => exact h.1
  | dearmor ie => exact h
  | illegal7 ie => exact h.elim
  | illegalHigh code ie => exact h.elim

/-- An element of IN_BUF lies outside OUT_BUF (R48). -/
theorem inBuf_not_inOutBuf {s : State} (hcaps : s.params.capacitiesOk = true) {k : Nat} (hk : k < s.params.inCap) :
    ¬ s.inOutBuf (inBase + k) := by
  obtain ⟨-, hin, -⟩ := capacity_bounds hcaps
  unfold State.inOutBuf inBase outBase
  omega

/-- An element of DESC_BUF lies outside OUT_BUF (R48). -/
theorem descBuf_not_inOutBuf {s : State} (hcaps : s.params.capacitiesOk = true) (k : Nat) :
    ¬ s.inOutBuf (descBase + k) := by
  obtain ⟨-, -, -, hout, -⟩ := capacity_bounds hcaps
  unfold State.inOutBuf outBase descBase
  omega

/-- After an error the operands are what they were, so the rule raises again. -/
theorem ruleOf_of_sameOperands {i : Instr} {s t : State} (hcaps : s.params.capacitiesOk = true)
    (hw : s.operandsWritten i) (h : SameOperands s t) : ruleOf i t = ruleOf i s := by
  obtain ⟨hparams, hconfig, hwrap, hinLen, hdescLen, -, -, -, hmem⟩ := h
  refine ruleOf_operandsWritten hw hparams hconfig hwrap hinLen hdescLen (fun hr k hk => ?_) (fun _ k _ => ?_)
  · exact hmem _ (inBuf_not_inOutBuf hcaps (hk.trans_le (readsInput_inLen hr)))
  · exact hmem _ (descBuf_not_inOutBuf hcaps k)

/-- Settles O28: an ERROR completion keeps the operands, so the command raises the same again. -/
theorem retryGivesTheSameError : Obligations.RetryGivesTheSameError := by
  intro i s t hcaps hw h herr
  obtain ⟨r, -, rfl⟩ | ⟨e, he, rfl⟩ := exec_cases h
  · cases herr
  · have hrule := ruleOf_of_sameOperands hcaps hw (sameOperands_completeError s i e)
    exact ⟨_, exec_of_ruleOf (hrule.trans he), rfl, rfl, rfl⟩

/-- The state with other values of the host's fields and another count of draws. -/
def withHost (s : State) (d : Nat) (p : List HostOp) (h : List Txn) : State :=
  { s with draws := d, program := p, trace := h }

/-- A completion does not look at the host, and advances the draws. -/
theorem complete_withHost (s : State) (i : Instr) (d : Nat) (p : List HostOp) (h : List Txn)
    (r : Except Raise Result) :
    ((withHost s d p h).started i).complete r =
      withHost ((s.started i).complete r) (d + s.inLen.toNat + s.descLen.toNat) p h := by
  cases r <;> rfl

/-- Settles O26: while BUSY the host's moves change only the host and the draws, which a rule with written operands
does not look at. -/
theorem operandsAreStableWhileBusy : Obligations.OperandsAreStableWhileBusy := by
  intro s n hb hw
  obtain ⟨d, p, h, hmoves⟩ := hostMove_iterate_busy hb n
  have hrule : ruleOf s.pending (withHost s d p h) = ruleOf s.pending s :=
    ruleOf_operandsWritten hw rfl rfl rfl rfl rfl (fun _ _ _ => rfl) (fun _ _ _ => rfl)
  rw [hmoves]
  refine ⟨rfl, _, d + s.inLen.toNat + s.descLen.toNat, p, h, exec_of_ruleOf rfl, ?_⟩
  exact (exec_of_ruleOf hrule).trans (congrArg _ (complete_withHost s s.pending d p h _))

/-- The state with other values of CONFIG, WRAP and DESC_LEN. -/
def withFields (s : State) (c : ConfigReg) (w : BitVec 16) (d : BitVec 19) : State :=
  { s with config := c, wrap := w, descLen := d }

theorem complete_withFields (s : State) (i : Instr) (c : ConfigReg) (w : BitVec 16) (d : BitVec 19)
    (r : Except Raise Result) :
    ((withFields s c w d).started i).complete r =
      { withFields ((s.started i).complete r) c w d with draws := s.draws + s.inLen.toNat + d.toNat } := by
  cases r <;> rfl

section
variable {s : State} {c : ConfigReg} {w : BitVec 16} {d : BitVec 19}

/-- SelectDesc and the check of DESC_LEN look at DESC_PRESENT and DESC_LEN alone (R108, R143). -/
theorem descriptor_withFields (hp : c.descPresent = s.config.descPresent) (hd : d = s.descLen) :
    (withFields s c w d).selectDesc = s.selectDesc ∧ (withFields s c w d).descLenRaise = s.descLenRaise := by
  subst hd
  unfold State.selectDesc State.descLenRaise withFields
  rw [hp]
  exact ⟨rfl, rfl⟩

/-! One lemma for each row of R76's table that marks a field as read. -/

theorem transposeRule_withFields (hm : c.trM = s.config.trM) (hn : c.trN = s.config.trN) :
    transposeRule (withFields s c w d) = transposeRule s := by
  unfold transposeRule State.widthRaise withFields
  rw [hm, hn]
  rfl

theorem encodeRule_withFields (ha : c.armor = s.config.armor) (hw : w = s.wrap)
    (hdesc : s.config.armor = true → c.descPresent = s.config.descPresent ∧ d = s.descLen) :
    encodeRule (withFields s c w d) = encodeRule s := by
  have hcheck : (if s.config.armor then (withFields s c w d).descLenRaise else none) =
      if s.config.armor then s.descLenRaise else none :=
    if_ctx_congr Iff.rfl (fun h => (descriptor_withFields (hdesc h).1 (hdesc h).2).2) fun _ => rfl
  have hselect : (if s.config.armor then (withFields s c w d).selectDesc else []) =
      if s.config.armor then s.selectDesc else [] :=
    if_ctx_congr Iff.rfl (fun h => (descriptor_withFields (hdesc h).1 (hdesc h).2).1) fun _ => rfl
  have harmor : (withFields s c w d).config.armor = s.config.armor := ha
  have hwrap : (withFields s c w d).wrap = s.wrap := hw
  unfold encodeRule
  rw [harmor, hcheck, hselect, hwrap]
  rfl

theorem decodeRule_withFields (hig : c.ignoreGarbage = s.config.ignoreGarbage) (hfmt : c.fmt = s.config.fmt) :
    decodeRule (withFields s c w d) = decodeRule s := by
  unfold decodeRule withFields
  rw [hig, hfmt]
  rfl

theorem wrapRule_withFields (hw : w = s.wrap) : wrapRule (withFields s c w d) = wrapRule s := by
  rw [hw]
  rfl

theorem armorRule_withFields (hp : c.descPresent = s.config.descPresent) (hd : d = s.descLen) (hw : w = s.wrap) :
    armorRule (withFields s c w d) = armorRule s := by
  obtain ⟨hselect, hcheck⟩ := descriptor_withFields (w := w) hp hd
  have hwrap : (withFields s c w d).wrap = s.wrap := hw
  unfold armorRule
  rw [hcheck, hselect, hwrap]
  rfl

end

/-- Settles O29: the rule does not look at an ignored field, and the completion keeps it. -/
theorem ignoredFieldsHaveNoEffect : Obligations.IgnoredFieldsHaveNoEffect := by
  intro i s c w d h
  have hrule : ruleOf i (withFields s c w d) = ruleOf i s := by
    cases i with
    | nop ie => rfl
    | transpose ie => exact transposeRule_withFields h.1 h.2
    | encode ie => exact encodeRule_withFields h.1 h.2.1 h.2.2
    | decode ie => exact decodeRule_withFields h.1 h.2
    | wrap ie => exact wrapRule_withFields h
    | armor ie => exact armorRule_withFields h.1 h.2.1 h.2.2
    | dearmor ie => rfl
    | illegal7 ie => rfl
    | illegalHigh code ie => rfl
  refine ⟨_, s.draws + s.inLen.toNat + d.toNat, exec_of_ruleOf rfl, ?_⟩
  exact (exec_of_ruleOf hrule).trans (congrArg _ (complete_withFields s i c w d _))

end Sys2Proof.CompletionProofs
end

section
/-! PROOFS of the invariant (`State.Inv`): it holds at reset, and each operation a step can perform keeps it. -/

namespace Sys2Proof.InvariantProofs

open Sys2Proof Sys2Proof.Machine
open Sys2Proof.CompletionProofs (exec_cases get?_setOutput_outside isSome_setOutput_iff toNat_outLen
  inBuf_not_inOutBuf descBuf_not_inOutBuf)
open Sys2Proof.ExceptionProofs (freshlyStarted_started)

/-- The invariant says nothing of CTRL, the operand registers, the draws, the host and the schedule. -/
theorem inv_withOthers {s : State} (h : s.Inv) (ctrl : Ctrl) (config : ConfigReg) (wrap : BitVec 16)
    (inLen descLen : BitVec 19) (draws : Nat) (program : List HostOp) (sched : List Agent) (trace : List Txn) :
    State.Inv { s with ctrl, config, wrap, inLen, descLen, draws, program, sched, trace } :=
  { capacities := h.capacities
    memory := h.memory
    stored := h.stored
    errIffError := h.errIffError
    busy := h.busy
    error := h.error
    outLen := h.outLen
    output := h.output
    decPad := h.decPad }

/-! ## Reset -/

/-- Right after reset no word is specified and every register the invariant speaks of is 0 (R45, R164). -/
theorem inv_resetOf {p : Params} (h : p.capacitiesOk = true) : (State.resetOf p).Inv where
  capacities := h
  memory := State.wf_reset p
  stored := nofun
  errIffError := ⟨nofun, nofun⟩
  busy := nofun
  error := nofun
  outLen := Nat.zero_le _
  output := fun _ _ _ => ⟨nofun, nofun⟩
  decPad := List.mem_cons_self

theorem inv_afterReset {s : State} (h : s.Inv) : s.afterReset.Inv :=
  inv_withOthers (inv_resetOf h.capacities) _ _ _ _ _ _ _ _ _

/-- Settles O58: the reference block has legal capacities too. -/
theorem invariantHoldsAtReset : Obligations.InvariantHoldsAtReset :=
  ⟨inv_resetOf (by decide), fun _ => inv_resetOf⟩

/-! ## START, CLR and the buffers -/

theorem inv_started {s : State} (h : s.Inv) (i : Instr) : (s.started i).Inv where
  capacities := h.capacities
  memory := h.memory
  stored := h.stored
  errIffError := ⟨nofun, nofun⟩
  busy := fun _ => freshlyStarted_started s i
  error := nofun
  outLen := Nat.zero_le _
  output := fun hbusy => absurd rfl hbusy
  decPad := List.mem_cons_self

/-- CLR leaves a DONE or an ERROR, whose result stays readable (R25, R153). -/
theorem inv_cleared {s : State} (h : s.Inv) (hb : s.status.state ≠ .busy) : s.cleared.Inv where
  capacities := h.capacities
  memory := h.memory
  stored := h.stored
  errIffError := ⟨nofun, nofun⟩
  busy := nofun
  error := nofun
  outLen := h.outLen
  output := fun _ => h.output hb
  decPad := h.decPad

/-- A word stored at a backed address outside OUT_BUF (R55). -/
theorem inv_setWord {s : State} (h : s.Inv) {a : Nat} (hbacked : s.backed a) (hout : ¬ s.inOutBuf a) (v : Word) :
    State.Inv { s with mem := s.mem.set a v } where
  capacities := h.capacities
  memory := Memory.wf_set a v h.memory
  stored := fun b hb => by
    by_cases hab : b = a
    · rw [hab]; exact hbacked
    · exact h.stored b (by rwa [Memory.get?_set_other _ _ hab] at hb)
  errIffError := h.errIffError
  busy := h.busy
  error := h.error
  outLen := h.outLen
  output := fun hb k hk => by
    have hne : outBase + k ≠ a := fun e => hout (e ▸ ⟨Nat.le_add_right .., Nat.add_lt_add_left hk _⟩)
    rw [Memory.get?_set_other _ _ hne]
    exact h.output hb k hk
  decPad := h.decPad

/-- An accepted CTRL write starts, clears, or stores CMD and IE alone (R23 to R25, R73). -/
theorem inv_writeCtrl {s : State} (h : s.Inv) (hb : s.status.state ≠ .busy) (v : Word) : (s.writeCtrl v).Inv := by
  have hset : State.Inv { s with ctrl := ⟨wordCmd v, wordIe v⟩ } := inv_withOthers h _ _ _ _ _ _ _ _ _
  unfold State.writeCtrl
  split
  · exact inv_started h _
  · exact inv_cleared hset hb
  · exact hset

theorem inv_busWrite {s : State} (h : s.Inv) (a : Addr) (v : Word) : (s.busWrite a v).Inv := by
  obtain e | ⟨hb, ⟨-, e⟩ | e | e | e | e | ⟨i, hi, -, e⟩ | ⟨i, hi, -, e⟩⟩ := busWrite_cases s a v <;> rw [e]
  · exact h
  · exact inv_writeCtrl h hb v
  · exact inv_withOthers h _ _ _ _ _ _ _ _ _
  · exact inv_withOthers h _ _ _ _ _ _ _ _ _
  · exact inv_withOthers h _ _ _ _ _ _ _ _ _
  · exact inv_withOthers h _ _ _ _ _ _ _ _ _
  · exact inv_setWord h (.inl ⟨Nat.le_add_right .., Nat.add_lt_add_left hi _⟩) (inBuf_not_inOutBuf h.capacities hi) v
  · exact inv_setWord h (.inr (.inr ⟨Nat.le_add_right .., Nat.add_lt_add_left hi _⟩))
      (descBuf_not_inOutBuf h.capacities i) v

/-! ## The agents -/

theorem inv_hostMove {s : State} (h : s.Inv) : s.hostMove.Inv := by
  have hprogram : ∀ p, State.Inv { s with program := p } := fun p => inv_withOthers h _ _ _ _ _ _ _ _ _
  have hlogged : ∀ {u : State}, u.Inv → ∀ x, (u.logged x).Inv := fun hu x => inv_withOthers hu _ _ _ _ _ _ _ _ _
  unfold State.hostMove
  split
  · exact h
  · exact hlogged (inv_busWrite (hprogram _) _ _) _
  · next a rest _ =>
    obtain ⟨d, hd⟩ := busRead_state { s with program := rest } a
    rw [hd]
    exact hlogged (inv_withOthers (hprogram rest) _ _ _ _ _ _ _ _ _) _
  · exact hlogged (hprogram _) _

/-- The words a completion leaves stand at backed addresses: in OUT_BUF, or where one stood before (R50). -/
theorem stored_setOutput {s : State} (h : s.Inv) {out : List Word} (hfit : out.length ≤ s.params.outCap) {a : Nat}
    (ha : ((s.setOutput out).mem.get? a).isSome = true) : s.backed a := by
  by_cases hbuf : s.inOutBuf a
  · exact .inr (.inl hbuf)
  · rw [get?_setOutput_outside hfit hbuf] at ha
    exact h.stored a ha

theorem inv_completeDone {s : State} (h : s.Inv) (hb : s.status.err = none) {r : Result}
    (hfit : r.out.length ≤ s.params.outCap) (hpad : r.decPad ∈ [0, 2, 4, 6, 8]) : (s.completeDone r).Inv := by
  have hlen : (s.completeDone r).outLen.toNat = r.out.length := toNat_outLen h.capacities hfit
  exact
    { capacities := h.capacities
      memory := State.wf_setOutput r.out h.memory
      stored := fun _ => stored_setOutput h hfit
      errIffError := by rw [State.completeDone_status, hb]; exact ⟨nofun, nofun⟩
      busy := nofun
      error := nofun
      outLen := hlen.trans_le hfit
      output := fun _ k hk => by rw [hlen]; exact isSome_setOutput_iff s r.out hk
      decPad := by
        have hlt : r.decPad < 2 ^ 4 := by simp at hpad; omega
        rwa [State.completeDone_decPad, BitVec.toNat_ofNat, Nat.mod_eq_of_lt hlt] }

theorem inv_completeError {s : State} (h : s.Inv) (hfresh : s.FreshlyStarted) (e : Raise) :
    (s.completeError e).Inv := by
  obtain ⟨hstatus, houtLen, htrRem, htrBits, hdecPad, -, -⟩ := hfresh
  have hlen : (s.completeError e).outLen.toNat = ([] : List Word).length := congrArg BitVec.toNat houtLen
  exact
    { capacities := h.capacities
      memory := State.wf_setOutput [] h.memory
      stored := fun _ => stored_setOutput h (Nat.zero_le _)
      errIffError := ⟨fun _ => rfl, fun _ => rfl⟩
      busy := nofun
      error := fun _ => ⟨houtLen, htrRem, htrBits, hdecPad, by rw [State.completeError_status, hstatus]⟩
      outLen := h.outLen
      output := fun _ k hk => by rw [hlen]; exact isSome_setOutput_iff s [] hk
      decPad := h.decPad }

theorem inv_exec {i : Instr} {s t : State} (h : s.Inv) (hexec : exec i s = .next t) : t.Inv := by
  obtain ⟨r, hr, rfl⟩ | ⟨e, -, rfl⟩ := exec_cases hexec
  · have hfit : r.out.length ≤ s.params.outCap := ruleOf_fits hr
    exact inv_completeDone (inv_started h i) rfl hfit (ruleOf_decPad hr)
  · exact inv_completeError (inv_started h i) (freshlyStarted_started s i) e

/-- Settles O59: each agent's move keeps the invariant, and so does striking the turn off the schedule. -/
theorem everyStepKeepsTheInvariant : Obligations.EveryStepKeepsTheInvariant := by
  intro s t h hstep
  have hticked : s.ticked.Inv := inv_withOthers h _ _ _ _ _ _ _ _ _
  obtain ⟨-, rfl⟩ | ⟨-, rfl⟩ | ⟨-, -, hexec⟩ | ⟨-, -, rfl⟩ := step_cases hstep
  case inl => exact inv_afterReset hticked
  case inr.inl => exact inv_hostMove hticked
  case inr.inr.inl => exact inv_exec hticked hexec
  case inr.inr.inr => exact hticked

end Sys2Proof.InvariantProofs
end

section
/-! PROOFS about the bus (spec/20_memory.md R47 to R55, spec/10_state.md R19 to R35): the writable registers read back,
the places that ignore writes, and the buffer windows. -/

namespace Sys2Proof.BusProofs

open Sys2Proof Sys2Proof.Machine
open Sys2Proof.MemoryProofs (busWrite_readOnlyOffset)

/-! ## The writable registers -/

/-- A field of the low k bits, read as a word, is the written word with the reserved bits 0 (R19). -/
theorem zeroExtend_extractLsb' (v : Word) {k : Nat} (hk : k ≤ 32) :
    (v.extractLsb' 0 k).zeroExtend 32 = v &&& BitVec.ofNat 32 (2 ^ k - 1) := by
  have hpow : 2 ^ k ≤ 2 ^ 32 := Nat.pow_le_pow_right (by decide) hk
  have hpos : 0 < 2 ^ k := Nat.two_pow_pos k
  refine BitVec.eq_of_toNat_eq ?_
  rw [BitVec.toNat_and, BitVec.toNat_ofNat, Nat.mod_eq_of_lt (by omega), Nat.and_two_pow_sub_one_eq_mod,
    BitVec.zeroExtend, BitVec.toNat_setWidth_of_le hk, BitVec.extractLsb'_toNat, Nat.shiftRight_zero]

/-- CTRL reads back CMD and IE of the written word (R23). -/
theorem word_ctrl_fields (v : Word) : Ctrl.word ⟨wordCmd v, wordIe v⟩ = v &&& 0x1000F#32 := by
  unfold Ctrl.word wordCmd wordIe
  refine BitVec.eq_of_getLsbD_eq fun k hk => ?_
  simp only [BitVec.getLsbD_append, BitVec.getLsbD_and]
  interval_cases k <;> simp

/-- CONFIG reads back its seven fields of the written word (R30). -/
theorem word_config_ofWord (v : Word) : (ConfigReg.ofWord v).word = v &&& 0x1F1F37#32 := by
  unfold ConfigReg.word ConfigReg.ofWord
  refine BitVec.eq_of_getLsbD_eq fun k hk => ?_
  simp only [BitVec.getLsbD_append, BitVec.getLsbD_and]
  interval_cases k <;> simp

/-- Every accepted CTRL write stores its CMD and IE (R23). -/
theorem writeCtrl_ctrl (s : State) (v : Word) : (s.writeCtrl v).ctrl = ⟨wordCmd v, wordIe v⟩ := by
  unfold State.writeCtrl
  split
  · next i hi =>
    obtain ⟨-, rfl⟩ := decode_ok hi
    rw [State.started_ctrl, Instr.code_ofCode, Instr.ie_ofCode]
  · rfl
  · rfl

/-- Settles O10: each write is `writeRegister` at its offset, and the read gives the word of the stored fields. -/
theorem writtenRegistersReadBack : Obligations.WrittenRegistersReadBack := by
  intro s v hb
  have hconfig : s.busWrite configAddr v = { s with config := .ofWord v } := busWrite_reg hb (o := 2) (by decide) v
  have hwrap : s.busWrite wrapAddr v = { s with wrap := v.extractLsb' 0 16 } := busWrite_reg hb (o := 3) (by decide) v
  have hinLen : s.busWrite inLenAddr v = { s with inLen := v.extractLsb' 0 19 } :=
    busWrite_reg hb (o := 4) (by decide) v
  have hdescLen : s.busWrite descLenAddr v = { s with descLen := v.extractLsb' 0 19 } :=
    busWrite_reg hb (o := 5) (by decide) v
  have hread : ∀ (u : State) (o : Nat), o < 0x40000 → (u.busRead (BitVec.ofNat 20 o)).1 = u.register o :=
    fun u o ho => congrArg Prod.fst (busRead_reg u ho)
  rw [busWrite_ctrl hb, hconfig, hwrap, hinLen, hdescLen]
  refine ⟨(hread _ 0 (by decide)).trans ?_, ⟨(hread _ 2 (by decide)).trans (word_config_ofWord v), rfl, rfl⟩,
    ⟨(hread _ 3 (by decide)).trans (zeroExtend_extractLsb' v (by decide)), rfl, rfl⟩,
    ⟨(hread _ 4 (by decide)).trans (zeroExtend_extractLsb' v (by decide)), rfl, rfl⟩,
    (hread _ 5 (by decide)).trans (zeroExtend_extractLsb' v (by decide)), rfl, rfl⟩
  exact (congrArg Ctrl.word (writeCtrl_ctrl s v)).trans (word_ctrl_fields v)

/-! ## The places that ignore writes -/

/-- An address without storage ignores a write (R50). -/
theorem busWrite_unbacked {s : State} {a : Addr} (h : placeOf s.params a = .unbacked) (v : Word) :
    s.busWrite a v = s := by
  unfold State.busWrite
  rw [h]
  exact ite_self s

/-- The whole OUT_BUF window ignores writes, the addresses without storage included (R50, R55). -/
theorem busWrite_outAddr (s : State) {i : Nat} (hi : i < 2 ^ 18) (v : Word) : s.busWrite (outAddr i) v = s := by
  have hplace := placeOf_outAddr s.params hi
  by_cases hcap : i < s.params.outCap
  · unfold State.busWrite
    rw [hplace, if_pos hcap]
    exact ite_self s
  · exact busWrite_unbacked (hplace.trans (if_neg hcap)) v

/-- Settles O11: STATUS and the offsets 0x6 to 0xE are read-only offsets, and OUT_BUF takes no write. -/
theorem readOnlyPlacesIgnoreWrites : Obligations.ReadOnlyPlacesIgnoreWrites := by
  intro s v
  exact ⟨busWrite_readOnlyOffset s (o := 1) (by decide) (.inl rfl) v,
    fun o hlo hhi => busWrite_readOnlyOffset s (by omega) (.inr hlo) v, fun i hi => busWrite_outAddr s hi v⟩

/-! ## The buffer windows -/

theorem isBusy_false {s : State} (hb : s.status.state ≠ .busy) : s.isBusy = false := decide_eq_false hb

theorem isBusy_true {s : State} (hb : s.status.state = .busy) : s.isBusy = true := decide_eq_true hb

theorem readWord_some {s : State} {stored : Option Word} {v : Word} (h : stored = some v) :
    s.readWord stored = (v, s) := by
  rw [h, State.readWord]

theorem readWord_none {s : State} {stored : Option Word} (h : stored = none) :
    s.readWord stored = (Config.freeWord s.draws, { s with draws := s.draws + 1 }) := by
  rw [h, State.readWord]

section
variable (s : State) {i : Nat}

theorem busRead_inAddr (hi : i < 2 ^ 18) : s.busRead (inAddr i) =
    if i < s.params.inCap then s.readWord (s.mem.get? (inBase + i)) else (0#32, s) := by
  unfold State.busRead
  rw [placeOf_inAddr _ hi]
  by_cases hcap : i < s.params.inCap
  · rw [if_pos hcap, if_pos hcap]
  · rw [if_neg hcap, if_neg hcap]

theorem busRead_outAddr (hi : i < 2 ^ 18) : s.busRead (outAddr i) =
    if i < s.params.outCap then s.readWord (if s.isBusy then none else s.mem.get? (outBase + i)) else (0#32, s) := by
  unfold State.busRead
  rw [placeOf_outAddr _ hi]
  by_cases hcap : i < s.params.outCap
  · rw [if_pos hcap, if_pos hcap]
  · rw [if_neg hcap, if_neg hcap]

theorem busRead_descAddr (hi : i < 2 ^ 18) : s.busRead (descAddr i) =
    if i < s.params.descCap then s.readWord (s.mem.get? (descBase + i)) else (0#32, s) := by
  unfold State.busRead
  rw [placeOf_descAddr _ hi]
  by_cases hcap : i < s.params.descCap
  · rw [if_pos hcap, if_pos hcap]
  · rw [if_neg hcap, if_neg hcap]

variable {s} (v : Word)

/-- An index below the capacity stores the word (R55). -/
theorem busWrite_inAddr_backed (hb : s.status.state ≠ .busy) (hi : i < 2 ^ 18) (hcap : i < s.params.inCap) :
    s.busWrite (inAddr i) v = { s with mem := s.mem.set (inBase + i) v } := by
  unfold State.busWrite
  rw [placeOf_inAddr _ hi, if_pos hcap, isBusy_false hb]
  rfl

theorem busWrite_descAddr_backed (hb : s.status.state ≠ .busy) (hi : i < 2 ^ 18) (hcap : i < s.params.descCap) :
    s.busWrite (descAddr i) v = { s with mem := s.mem.set (descBase + i) v } := by
  unfold State.busWrite
  rw [placeOf_descAddr _ hi, if_pos hcap, isBusy_false hb]
  rfl

end

/-- Settles O12: the windows' reads and writes, read off for a word that is stored, one that is not, and an index
without storage. -/
theorem bufferWindows : Obligations.BufferWindows := by
  intro s hcaps
  obtain ⟨-, hin, -, hout, -, hdesc⟩ := capacity_bounds hcaps
  have readIn : ∀ i, i < s.params.inCap → s.busRead (inAddr i) = s.readWord (s.mem.get? (inBase + i)) :=
    fun i hi => by rw [busRead_inAddr s (by omega), if_pos hi]
  have readDesc : ∀ i, i < s.params.descCap → s.busRead (descAddr i) = s.readWord (s.mem.get? (descBase + i)) :=
    fun i hi => by rw [busRead_descAddr s (by omega), if_pos hi]
  have readOut : ∀ i, i < s.params.outCap →
      s.busRead (outAddr i) = s.readWord (if s.isBusy then none else s.mem.get? (outBase + i)) :=
    fun i hi => by rw [busRead_outAddr s (by omega), if_pos hi]
  refine ⟨fun i v hi hv => ?_, fun i v hi hv => ?_, fun i v hi hb hv => ?_, fun i hi hb => ?_, fun i hi hv => ?_,
    fun i hi hv => ?_, fun i hi hv => ?_, fun i v hi hcap => ⟨?_, ?_⟩, fun i v hi hcap => ⟨?_, ?_⟩,
    fun i v hi hcap => ⟨?_, ?_⟩⟩
  · rw [readIn i hi, readWord_some hv]
  · rw [readDesc i hi, readWord_some hv]
  · rw [readOut i hi, isBusy_false hb]
    exact readWord_some hv
  · rw [readOut i hi, isBusy_true hb]
    exact readWord_none rfl
  · rw [readIn i hi, readWord_none hv]
  · rw [readDesc i hi, readWord_none hv]
  · rw [readOut i hi, hv, ite_self, readWord_none rfl]
  · rw [busRead_inAddr s hi, if_neg (by omega)]
  · exact busWrite_unbacked ((placeOf_inAddr _ hi).trans (if_neg (by omega))) v
  · rw [busRead_outAddr s hi, if_neg (by omega)]
  · exact busWrite_outAddr s hi v
  · rw [busRead_descAddr s hi, if_neg (by omega)]
  · exact busWrite_unbacked ((placeOf_descAddr _ hi).trans (if_neg (by omega))) v

/-! ## What a buffer write changes -/

/-- The addresses of the three windows as numbers (R48). -/
theorem toNat_bufferAddr {i : Nat} (hi : i < 2 ^ 18) :
    (inAddr i).toNat = inBase + i ∧ (outAddr i).toNat = outBase + i ∧ (descAddr i).toNat = descBase + i := by
  unfold inAddr outAddr descAddr inBase outBase descBase
  simp only [BitVec.toNat_ofNat]
  omega

/-- A word stored at one address is seen by a read of no other (R55). -/
theorem busRead_set_other {s : State} {a b : Addr} {n : Nat} (ha : a.toNat = n) (hne : b ≠ a) (v : Word) :
    (State.busRead { s with mem := s.mem.set n v } b).1 = (s.busRead b).1 := by
  have hb : b.toNat ≠ n := fun e => hne (BitVec.eq_of_toNat_eq (e.trans ha.symm))
  have hword : ∀ stored, (State.readWord { s with mem := s.mem.set n v } stored).1 = (s.readWord stored).1 :=
    fun stored => by cases stored <;> rfl
  obtain ⟨j, hj, rfl | rfl | rfl | rfl⟩ := addr_cases b
  · rw [busRead_reg _ hj, busRead_reg _ hj]
    rfl
  · rw [(toNat_bufferAddr hj).1] at hb
    rw [busRead_inAddr _ hj, busRead_inAddr _ hj, Memory.get?_set_other _ _ hb]
    split
    · exact hword _
    · rfl
  · rw [(toNat_bufferAddr hj).2.1] at hb
    rw [busRead_outAddr _ hj, busRead_outAddr _ hj, Memory.get?_set_other _ _ hb]
    split
    · exact hword _
    · rfl
  · rw [(toNat_bufferAddr hj).2.2] at hb
    rw [busRead_descAddr _ hj, busRead_descAddr _ hj, Memory.get?_set_other _ _ hb]
    split
    · exact hword _
    · rfl

/-- Settles O13: the write is one store, which is read back at its address and seen at no other. -/
theorem bufferWritesStore : Obligations.BufferWritesStore := by
  intro s v hcaps hb
  obtain ⟨-, hin, -, -, -, hdesc⟩ := capacity_bounds hcaps
  refine ⟨fun i hi => ?_, fun i hi => ?_⟩
  · have hi18 : i < 2 ^ 18 := by omega
    rw [busWrite_inAddr_backed v hb hi18 hi, busRead_inAddr _ hi18, if_pos hi,
      readWord_some (Memory.get?_set_same s.mem (inBase + i) v)]
    exact ⟨rfl, fun b hne => busRead_set_other (toNat_bufferAddr hi18).1 hne v, rfl⟩
  · have hi18 : i < 2 ^ 18 := by omega
    rw [busWrite_descAddr_backed v hb hi18 hi, busRead_descAddr _ hi18, if_pos hi,
      readWord_some (Memory.get?_set_same s.mem (descBase + i) v)]
    exact ⟨rfl, fun b hne => busRead_set_other (toNat_bufferAddr hi18).2.2 hne v, rfl⟩

/-! ## Reads -/

/-- Settles O14: a read changes the draws alone, so one that takes no draw leaves the state as it was. -/
theorem readsHaveNoSideEffect : Obligations.ReadsHaveNoSideEffect := by
  intro s a
  refine ⟨busRead_state s a, fun hdraws => ?_⟩
  obtain ⟨d, hd⟩ := busRead_state s a
  have hsame : (s.busRead a).2 = s := by
    rw [hd] at hdraws ⊢
    rw [show d = s.draws from hdraws]
  rw [hsame]

end Sys2Proof.BusProofs
end

section
/-! PROOFS about the step (spec/00_scope.md R5, spec/20_memory.md R58, spec/60_exceptions.md R148): the host's and the
engine's moves, STATE and `irq` along them, and the end of a WAIT. -/

namespace Sys2Proof.StepProofs

open Sys2Proof Sys2Proof.Machine

/-! ## The interrupt output -/

theorem isComplete_iff_state (s : State) :
    s.isComplete = true ↔ s.status.state = .done ∨ s.status.state = .error := by
  unfold State.isComplete
  cases s.status.state <;> simp

theorem irq_iff (s : State) :
    s.irq = true ↔ s.ctrl.ie = true ∧ (s.status.state = .done ∨ s.status.state = .error) := by
  rw [State.irq, Bool.and_eq_true, isComplete_iff_state]

/-- A completion raises `irq` to the IE of its command (R44, R152). -/
theorem irq_of_exec {i : Instr} {s t : State} (h : exec i s = .next t) : t.irq = i.ie := by
  rw [exec_eq] at h
  cases h
  have hcomplete := (isComplete_iff_state _).mpr (complete_state (s.started i) (ruleOf i (s.started i)))
  rw [State.irq, hcomplete, complete_ctrl, Bool.and_true]
  rfl

/-- Settles O15: `irq` looks at IE and STATE, which a completion and each accepted CTRL write set. -/
theorem irqFollowsCompletion : Obligations.IrqFollowsCompletion := by
  refine ⟨irq_iff, fun i s t => irq_of_exec, fun s v hb => ?_⟩
  rw [busWrite_ctrl hb]
  refine ⟨fun h => ?_, fun h8 h9 => ?_⟩
  · by_cases h8 : v.getLsbD 8 = true
    · rw [writeCtrl_start h8]
      exact Bool.and_false _
    · rw [writeCtrl_clear (Bool.not_eq_true _ ▸ h8) (h.resolve_left h8)]
      exact Bool.and_false _
  · rw [writeCtrl_set h8 h9]
    exact irq_iff _

/-! ## The moves of a step -/

theorem step_of_mover_host {s : State} (hm : s.mover = .host) : step s = .next s.ticked.hostMove := by
  rw [step, hm, agentMove]

/-- The engine's move while BUSY is the pending command (R148). -/
theorem step_of_mover_engine {s : State} (hm : s.mover = .engine) (hb : s.status.state = .busy) :
    step s = exec s.pending s.ticked := by
  rw [step, hm, agentMove, engineMove]
  exact if_pos (decide_eq_true hb)

/-- Otherwise the engine's move strikes off the turn alone (R160). -/
theorem step_of_idle_engine {s : State} (hm : s.mover = .engine) (hb : s.status.state ≠ .busy) :
    step s = .next s.ticked := by
  rw [step, hm, agentMove, engineMove]
  exact if_neg fun h => hb (of_decide_eq_true h)

section
variable {s : State} {rest : List HostOp}

theorem hostMove_write {a : Addr} {v : Word} (h : s.program = .write a v :: rest) :
    s.hostMove = (State.busWrite { s with program := rest } a v).logged (.wrote a v) := by
  rw [State.hostMove, h]

theorem hostMove_read {a : Addr} (h : s.program = .read a :: rest) :
    s.hostMove = (State.busRead { s with program := rest } a).2.logged
      (.gave a (State.busRead { s with program := rest } a).1) := by
  rw [State.hostMove, h]

theorem hostMove_wait (h : s.program = .wait :: rest) :
    s.hostMove = State.logged { s with program := if s.isComplete then rest else .wait :: rest }
      (.gave statusAddr s.status.word) := by
  rw [State.hostMove, h]

end

/-- Settles O23: the host's move and reset always give a next state, and so does every command. -/
theorem noStepStops : Obligations.NoStepStops := by
  intro s
  cases hm : s.mover with
  | host => exact ⟨_, step_of_mover_host hm⟩
  | rst => exact ⟨_, StateProofs.step_of_mover_rst hm⟩
  | engine =>
    by_cases hb : s.status.state = .busy
    · exact ⟨_, (step_of_mover_engine hm hb).trans (exec_eq _ _)⟩
    · exact ⟨_, step_of_idle_engine hm hb⟩

/-! ## The host's operations -/

/-- The state with other operations and another schedule. -/
def withAgents (s : State) (p : List HostOp) (q : List Agent) : State := { s with program := p, sched := q }

/-! The bus looks at neither the program nor the schedule. -/

theorem writeRegister_withAgents (s : State) (p : List HostOp) (q : List Agent) (o : Nat) (v : Word) :
    (withAgents s p q).writeRegister o v = withAgents (s.writeRegister o v) p q := by
  match o with
  | 0 =>
    show (withAgents s p q).writeCtrl v = withAgents (s.writeCtrl v) p q
    unfold State.writeCtrl
    cases decode v with
    | ok i => rfl
    | error e => cases e <;> rfl
  | 1 | 2 | 3 | 4 | 5 | _ + 6 => rfl

theorem busWrite_withAgents (s : State) (p : List HostOp) (q : List Agent) (a : Addr) (v : Word) :
    (withAgents s p q).busWrite a v = withAgents (s.busWrite a v) p q := by
  have hparams : (withAgents s p q).params = s.params := rfl
  have hbusy : (withAgents s p q).isBusy = s.isBusy := rfl
  unfold State.busWrite
  rw [hparams, hbusy]
  cases s.isBusy with
  | true => rfl
  | false =>
    cases placeOf s.params a with
    | register o => exact writeRegister_withAgents s p q o v
    | _ => rfl

theorem busRead_withAgents (s : State) (p : List HostOp) (q : List Agent) (a : Addr) :
    (withAgents s p q).busRead a = ((s.busRead a).1, withAgents (s.busRead a).2 p q) := by
  have hword : ∀ stored, (withAgents s p q).readWord stored =
      ((s.readWord stored).1, withAgents (s.readWord stored).2 p q) := fun stored => by cases stored <;> rfl
  have hparams : (withAgents s p q).params = s.params := rfl
  unfold State.busRead
  rw [hparams]
  cases placeOf s.params a with
  | register o => rfl
  | unbacked => rfl
  | _ => exact hword _

section
variable {s : State} {rest : List HostOp} (hm : s.mover = .host)
include hm

/-- The host's turn at a write is the bus write, with the operation and the turn struck off (R58, R79). -/
theorem step_write {a : Addr} {v : Word} (h : s.program = .write a v :: rest) :
    step s = .next ((withAgents (s.busWrite a v) rest s.sched.tail).logged (.wrote a v)) := by
  have hticked : { s.ticked with program := rest } = withAgents s rest s.sched.tail := rfl
  rw [step_of_mover_host hm, hostMove_write (s := s.ticked) h, hticked, busWrite_withAgents]

theorem step_read {a : Addr} (h : s.program = .read a :: rest) :
    step s = .next ((withAgents (s.busRead a).2 rest s.sched.tail).logged (.gave a (s.busRead a).1)) := by
  have hticked : { s.ticked with program := rest } = withAgents s rest s.sched.tail := rfl
  rw [step_of_mover_host hm, hostMove_read (s := s.ticked) h, hticked, busRead_withAgents]

theorem step_wait (h : s.program = .wait :: rest) :
    step s = .next ((withAgents s (if s.isComplete then rest else .wait :: rest) s.sched.tail).logged
      (.gave statusAddr s.status.word)) := by
  rw [step_of_mover_host hm, hostMove_wait (s := s.ticked) h]
  rfl

end

/-- Settles O8: the step is the write, which the bus drops. -/
theorem writesWhileBusyAreDropped : Obligations.WritesWhileBusyAreDropped := by
  intro s a v rest hb hm hprogram
  rw [step_write hm hprogram, busWrite_busy hb]
  rfl

/-- The bus does not write the host's record. -/
theorem busWrite_trace (s : State) (a : Addr) (v : Word) : (s.busWrite a v).trace = s.trace := by
  obtain e | ⟨-, ⟨-, e⟩ | e | e | e | e | ⟨_, -, -, e⟩ | ⟨_, -, -, e⟩⟩ := busWrite_cases s a v <;> rw [e]
  unfold State.writeCtrl
  split <;> rfl

/-- Settles O19: the step is the bus access of the operation; a CTRL write of a command word is START. -/
theorem stepStartsTheWrittenCommand : Obligations.StepStartsTheWrittenCommand := by
  intro s rest hm
  refine ⟨fun a v h => ?_, fun w i h hb hdec => ?_, fun a h => ?_⟩
  · rw [step_write hm h, ← busWrite_trace s a v]
    rfl
  · obtain ⟨hstart, rfl⟩ := decode_ok hdec
    rw [step_write hm h, ExceptionProofs.busWrite_start hb hstart]
    rfl
  · obtain ⟨d, hd⟩ := busRead_state s a
    refine ⟨d, ?_⟩
    rw [step_read hm h, hd]
    rfl

/-- Settles O24: a turn of WAIT logs STATUS, whose value modulo 4 is the STATE. -/
theorem waitPollsStatus : Obligations.WaitPollsStatus := by
  intro s rest hm hprogram
  have hread : s.busRead statusAddr = (s.status.word, s) := busRead_reg s (o := 1) (by decide)
  refine ⟨_, step_wait hm hprogram, ?_⟩
  rw [hread]
  exact ⟨rfl, if_congr (isComplete_iff s) rfl rfl, rfl, rfl⟩

/-! ## The engine's command -/

/-- Settles O20: the command register with START set is the word of the pending command. -/
theorem stepRunsThePendingCommand : Obligations.StepRunsThePendingCommand := by
  intro s i hb hm hdec
  obtain ⟨-, rfl⟩ := decode_ok hdec
  rw [step_of_mover_engine hm hb, startWord_cmd, startWord_ie]
  rfl

/-- A BUSY engine moves when the schedule names it, and when it names nobody (log entry 2). -/
theorem mover_of_busy {s : State} (hb : s.status.state = .busy) (h : s.sched = [] ∨ ∃ q, s.sched = .engine :: q) :
    s.mover = .engine := by
  obtain h | ⟨q, h⟩ := h
  · rw [State.mover, h]
    exact if_pos (decide_eq_true hb)
  · rw [State.mover, h]

/-- A started engine has its command pending. -/
theorem pending_started {w : Word} {i : Instr} (h : decode w = .ok i) (s : State) : (s.started i).pending = i := by
  obtain ⟨-, rfl⟩ := decode_ok h
  rw [State.pending, State.started_ctrl, Instr.code_ofCode, Instr.ie_ofCode]

/-- A placed command word starts its command, with the engine to move (log entry 9). -/
theorem commanded_of_decode {w : Word} {i : Instr} (h : decode w = .ok i) (s : State) :
    s.commanded w = { (if s.isBusy then s.cleared else s).started i with
      sched := if s.sched = [] then [] else .engine :: s.sched } := by
  rw [State.commanded, State.writeCtrl, h]

/-- Settles O21: the placed word starts its command, and the engine's move runs what is pending. -/
theorem fetchedWordRunsNext : Obligations.FetchedWordRunsNext := by
  intro s w i h
  have hword : tableWord 32 w.toNat = w := by
    rw [tableWord, Nat.mod_eq_of_lt w.isLt, BitVec.ofNat_toNat, BitVec.setWidth_eq]
  rw [State.withFetchWord, hword, commanded_of_decode h]
  refine (step_of_mover_engine (mover_of_busy rfl ?_) rfl).trans ?_
  · dsimp only
    split
    · exact .inl rfl
    · exact .inr ⟨_, rfl⟩
  · exact congrArg (exec · _) (pending_started h (if s.isBusy then s.cleared else s))

/-- Settles O22: the accepted word starts the command, and starting it once more changes nothing. -/
theorem execIsStartThenCompletion : Obligations.ExecIsStartThenCompletion := by
  intro s w i hb h
  obtain ⟨hstart, rfl⟩ := decode_ok h
  rw [ExceptionProofs.busWrite_start hb hstart, exec_eq, exec_eq]
  rfl

/-- A command leaves the host and the schedule alone (R146). -/
theorem exec_agents {i : Instr} {s t : State} (h : exec i s = .next t) :
    t.program = s.program ∧ t.sched = s.sched := by
  obtain ⟨r, -, rfl⟩ | ⟨e, -, rfl⟩ := CompletionProofs.exec_cases h
  · exact ⟨rfl, rfl⟩
  · exact ⟨rfl, rfl⟩

/-! ## STATE -/

/-- A bus write leaves STATUS alone unless CTRL accepts it (R27). -/
theorem busWrite_status (s : State) (a : Addr) (v : Word) :
    (s.busWrite a v).status = s.status ∨
      s.status.state ≠ .busy ∧ a = ctrlAddr ∧ s.busWrite a v = s.writeCtrl v := by
  obtain e | ⟨hb, ⟨ha, e⟩ | e | e | e | e | ⟨_, -, -, e⟩ | ⟨_, -, -, e⟩⟩ := busWrite_cases s a v
  case inr.inl => exact .inr ⟨hb, ha, e⟩
  all_goals exact .inl (by rw [e])

/-- An accepted CTRL write changes STATE by START or by CLR alone (R25, R73, R147). -/
theorem writeCtrl_state (s : State) (v : Word) :
    (s.writeCtrl v).status.state = s.status.state ∨
      v.getLsbD 8 = true ∧ (s.writeCtrl v).status.state = .busy ∨
      v.getLsbD 8 = false ∧ v.getLsbD 9 = true ∧ (s.writeCtrl v).status.state = .idle := by
  cases h8 : v.getLsbD 8 with
  | true => exact .inr (.inl ⟨rfl, by rw [writeCtrl_start h8]; rfl⟩)
  | false =>
    cases h9 : v.getLsbD 9 with
    | true => exact .inr (.inr ⟨rfl, rfl, by rw [writeCtrl_clear h8 h9]; rfl⟩)
    | false => exact .inl (by rw [writeCtrl_set h8 h9])

/-- The host changes STATE by an accepted CTRL write alone (R27). -/
theorem hostMove_state {s : State} (h : s.hostMove.status.state ≠ s.status.state) :
    s.status.state ≠ .busy ∧ ∃ v rest, s.program = .write ctrlAddr v :: rest ∧
      (v.getLsbD 8 = true ∧ s.hostMove.status.state = .busy ∨
        v.getLsbD 8 = false ∧ v.getLsbD 9 = true ∧ s.hostMove.status.state = .idle) := by
  match hp : s.program with
  | [] => exact absurd (by rw [State.hostMove, hp]) h
  | .wait :: rest => exact absurd (by rw [hostMove_wait hp]; rfl) h
  | .read a :: rest =>
    obtain ⟨d, hd⟩ := busRead_state { s with program := rest } a
    exact absurd (by rw [hostMove_read hp, hd]; rfl) h
  | .write a v :: rest =>
    rw [hostMove_write hp] at h ⊢
    rw [State.logged_status] at h ⊢
    obtain e | ⟨hb, rfl, e⟩ := busWrite_status { s with program := rest } a v
    · exact absurd (congrArg Status.state e) h
    · rw [e] at h ⊢
      exact ⟨hb, v, rest, rfl, (writeCtrl_state _ v).resolve_left h⟩

/-- Settles O17: of the four moves, the engine's changes STATE by a completion, and the host's by an accepted CTRL
write. -/
theorem onlyFourEventsChangeState : Obligations.OnlyFourEventsChangeState := by
  intro s t hstep hne
  obtain ⟨hm, -⟩ | ⟨hm, rfl⟩ | ⟨hm, hb, hexec⟩ | ⟨-, -, rfl⟩ := step_cases hstep
  case inl => exact .inl hm
  case inr.inl => exact .inr (.inr ⟨hm, hostMove_state hne⟩)
  case inr.inr.inl =>
    rw [exec_eq] at hexec
    cases hexec
    exact .inr (.inl ⟨hm, hb, complete_state _ _⟩)
  case inr.inr.inr => exact absurd rfl hne

/-! ## The end of a WAIT -/

/-- The machine gets past the WAIT, with the engine complete, within n steps. -/
def WaitEndsWithin (n : Nat) (s : State) (rest : List HostOp) : Prop :=
  ∃ k t, k ≤ n ∧ Host.Core.run Sys2Proof.core k s = .next t ∧ t.program = rest ∧
    (t.status.state = .done ∨ t.status.state = .error)

section
variable {s u : State} {rest : List HostOp} {n : Nat}

theorem waitEndsWithin_mono {m : Nat} (h : WaitEndsWithin n s rest) (hnm : n ≤ m) : WaitEndsWithin m s rest := by
  obtain ⟨k, t, hk, ht⟩ := h
  exact ⟨k, t, hk.trans hnm, ht⟩

theorem waitEndsWithin_of_step (h : step s = .next u) (hu : WaitEndsWithin n u rest) :
    WaitEndsWithin (n + 1) s rest := by
  obtain ⟨k, t, hk, hrun, ht⟩ := hu
  exact ⟨k + 1, t, Nat.succ_le_succ hk, (run_next h k).trans hrun, ht⟩

/-- When the engine is complete, the host's turn ends the WAIT (R79). -/
theorem waitEndsWithin_one (hdone : s.status.state = .done ∨ s.status.state = .error) (hp : s.program = .wait :: rest)
    (hm : s.mover = .host) : WaitEndsWithin 1 s rest :=
  waitEndsWithin_of_step (step_wait hm hp)
    ⟨0, _, Nat.le_refl 0, rfl, if_pos ((isComplete_iff_state s).mpr hdone), hdone⟩

end

/-- When the engine is complete, the WAIT ends by the host's next turn, which comes at the latest when the schedule is
used up. -/
theorem waitEndsWithin_of_complete {rest : List HostOp} {s : State} (q : List Agent) (hq : s.sched = q)
    (hrst : .rst ∉ q) (hp : s.program = .wait :: rest) (hdone : s.status.state = .done ∨ s.status.state = .error) :
    WaitEndsWithin (q.length + 1) s rest := by
  have hb : s.status.state ≠ .busy := fun h => by simp [h] at hdone
  induction q generalizing s with
  | nil =>
    have hm : s.mover = .host := by
      rw [State.mover, hq]
      exact if_neg fun h => hb (of_decide_eq_true h)
    exact waitEndsWithin_one hdone hp hm
  | cons a q ih =>
    have hm : s.mover = a := by rw [State.mover, hq]
    cases a with
    | rst => exact absurd List.mem_cons_self hrst
    | host => exact waitEndsWithin_mono (waitEndsWithin_one hdone hp hm) (Nat.le_add_left ..)
    | engine =>
      exact waitEndsWithin_of_step (step_of_idle_engine hm hb)
        (ih (s := s.ticked) (congrArg List.tail hq) (fun h => hrst (List.mem_cons_of_mem _ h)) hp hdone hb)

/-- The completion of a BUSY engine leaves the host at its WAIT, which then ends. -/
theorem waitEndsWithin_of_engine {s : State} {rest : List HostOp} (hm : s.mover = .engine)
    (hb : s.status.state = .busy) (hp : s.program = .wait :: rest) (hrst : .rst ∉ s.sched.tail) :
    WaitEndsWithin (s.sched.tail.length + 2) s rest := by
  have hexec := exec_eq s.pending s.ticked
  obtain ⟨hprogram, hsched⟩ := exec_agents hexec
  exact waitEndsWithin_of_step ((step_of_mover_engine hm hb).trans hexec)
    (waitEndsWithin_of_complete s.sched.tail hsched hrst (hprogram.trans hp) (complete_state _ _))

/-- While the engine is BUSY, each of the host's turns leaves it at the WAIT; then the engine completes. -/
theorem waitEndsWithin_of_busy {rest : List HostOp} {s : State} (q : List Agent) (hq : s.sched = q)
    (hrst : .rst ∉ q) (hp : s.program = .wait :: rest) (hb : s.status.state = .busy) :
    WaitEndsWithin (q.length + 2) s rest := by
  induction q generalizing s with
  | nil =>
    have h := waitEndsWithin_of_engine (mover_of_busy hb (.inl hq)) hb hp
    rw [hq] at h
    exact h List.not_mem_nil
  | cons a q ih =>
    have hrest : .rst ∉ q := fun h => hrst (List.mem_cons_of_mem _ h)
    have hm : s.mover = a := by rw [State.mover, hq]
    have htail : s.sched.tail = q := congrArg List.tail hq
    cases a with
    | rst => exact absurd List.mem_cons_self hrst
    | engine =>
      have h := waitEndsWithin_of_engine hm hb hp
      rw [htail] at h
      exact waitEndsWithin_mono (h hrest) (Nat.le_succ _)
    | host =>
      have hwaits : ¬ s.isComplete = true := by rw [isComplete_iff_state, hb]; simp
      exact waitEndsWithin_of_step (step_wait hm hp) (ih htail hrest (if_neg hwaits) hb)

/-- Settles O25: by induction on the schedule, first while BUSY and then once complete. -/
theorem pollingTerminates : Obligations.PollingTerminates := by
  intro s rest hb hp hrst
  exact waitEndsWithin_of_busy s.sched rfl hrst hp hb

end Sys2Proof.StepProofs
end

section
/-! PROOFS about what the commands compute (spec/40_transposer.md, spec/41_encoder.md, spec/42_framer.md,
spec/43_decoder.md): each command's output, as its completion leaves it. -/

namespace Sys2Proof.CommandProofs

open Sys2Proof Sys2Proof.Machine
open Sys2Proof.CompletionProofs (exec_of_fitting)
open Sys2Proof.EncoderProofs (exec_completesDone)

/-- A check that raises nothing is passed. -/
theorem check_none (next : Except Raise Result) : check none next = next := rfl

/-! ## TRANSPOSE -/

/-- The loop is the slices (R85), also for elements with more than m bits. -/
theorem transpose_eq_bySlices (m : Nat) {n : Nat} (hn : 1 ≤ n) (xs : List Nat) :
    transpose m n xs = transposeBySlices m n xs := by
  rw [transpose_eq m hn]
  rfl

/-- Settles O35: the counts are those of the loop's groups and trailing bits. -/
theorem transposeCounts : Obligations.TransposeCounts :=
  fun m _ xs _ hn _ => transpose_bounds m hn xs

/-- Settles O36: an empty stream has no group, and between equal widths every group is an element. -/
theorem transposeCorners : Obligations.TransposeCorners := by
  refine ⟨fun m n _ _ => rfl, fun m xs hm hx => ?_⟩
  have hmod : (bitStream m xs).length % m = 0 := by rw [length_bitStream, Nat.mul_mod_right]
  rw [transpose_eq m hm, hmod, if_neg (Nat.lt_irrefl 0), groupsOf_bitStream hm hx]

/-- Past its checks, TRANSPOSE's rule is the transposition (R90). -/
theorem transposeRule_of_legal {s : State} (hlen : s.inLen.toNat ≤ s.params.inCap) (hm : 1 ≤ s.config.trM.toNat)
    (hn : 1 ≤ s.config.trN.toNat) (hrange : ∀ v ∈ s.input, v.toNat < 2 ^ s.config.trM.toNat) {t : Transposed}
    (ht : t = transpose s.config.trM.toNat s.config.trN.toNat (s.input.map BitVec.toNat)) :
    transposeRule s =
      s.fitting { out := t.groups.map (BitVec.ofNat 32), trRem := t.remainder, trBits := t.bitsRemaining } := by
  rw [transposeRule, State.inLenRaise_none hlen, TransposerProofs.widthRaise_none hm hn,
    (rangeRaise_none _ 0).mpr hrange, check_none, check_none, check_none, ht]

/-- Settles O37: the rule returns the transposition, whose counts and bounds fit OUT_BUF, TR_REM and TR_BITS. -/
theorem transposeCompletes : Obligations.TransposeCompletes := by
  intro s ie hcaps hlen hm hn hrange hcap
  have hn32 : s.config.trN.toNat < 32 := s.config.trN.isLt
  obtain ⟨hgroups, hbits, -, hrem⟩ :=
    transpose_bounds s.config.trM.toNat hn (s.input.map BitVec.toNat)
  rw [List.length_map, State.length_input] at hgroups hbits
  have hmod := Nat.mod_lt (s.config.trM.toNat * s.inLen.toNat) hn
  rw [← transpose_eq_bySlices _ hn, ← hbits]
  refine exec_completesDone (i := .transpose ie) ?_ hcaps ?_ ?_ (Nat.two_pow_pos 4)
  · refine (transposeRule_of_legal hlen hm hn hrange rfl).trans (State.fitting_fits ?_)
    rwa [List.length_map, hgroups]
  · exact hrem.trans_le (Nat.pow_le_pow_right (by decide) (by omega))
  · dsimp only
    omega

/-! ## WRAP and ARMOR -/

/-- The length of a wrapped string, with the cases in which nothing is wrapped (R106). -/
theorem length_wrapLines_eq (s : List Word) (w : Nat) :
    (wrapLines s w).length = if w = 0 ∨ s.length = 0 then s.length else s.length + (s.length + w - 1) / w - 1 := by
  split
  · next h => rw [FramerProofs.wrapLines_short (by omega)]
  · next h => exact length_wrapLines (by omega) _ s rfl (fun hnil => h (.inr (by rw [hnil]; rfl)))

theorem wrapRule_eq {s : State} (hlen : s.inLen.toNat ≤ s.params.inCap) :
    wrapRule s = s.fitting { out := wrapLines s.input s.wrap.toNat } := by
  rw [wrapRule, State.inLenRaise_none hlen, check_none]

/-- Settles O40: the rule returns the wrapped input, whose elements are those of R105. -/
theorem wrapCompletes : Obligations.WrapCompletes := by
  intro s ie len hcaps hlen hlenEq
  have hout : (wrapLines s.input s.wrap.toNat).length = len := by
    rw [length_wrapLines_eq, State.length_input, hlenEq]
  have hbound := length_wrapLines_le s.input s.wrap.toNat
  rw [State.length_input] at hbound
  obtain ⟨hdone, herror⟩ := exec_of_fitting (i := .wrap ie) (wrapRule_eq hlen) hcaps (by dsimp only; omega)
    (Nat.two_pow_pos 31) (Nat.two_pow_pos 5) (Nat.two_pow_pos 4)
  dsimp only at hdone herror
  rw [hout] at hdone herror
  refine ⟨fun hfit => ?_, herror⟩
  obtain ⟨t, ht, hcomp⟩ := hdone hfit
  refine ⟨t, _, ht, hcomp, hout, fun j hj => ?_⟩
  split
  · next hw => rw [hw, wrapLines_zero]
  · next hw => exact getElem?_wrapLines (by omega) _ s.input j rfl (by rwa [hout])

theorem armorRule_eq {s : State} (hlen : s.inLen.toNat ≤ s.params.inCap)
    (hdesc : s.config.descPresent = true → s.descLen.toNat ≤ s.params.descCap) :
    armorRule s = s.fitting { out := armorText s.params.rom s.input s.selectDesc s.wrap.toNat } := by
  rw [armorRule, State.inLenRaise_none hlen, State.descLenRaise_none hdesc, check_none, check_none]

/-- A centred descriptor and marker, with each margin in one term (R111). -/
theorem centred_margins (mark x : Word) (d : List Word) (w : Nat) :
    centred mark (d ++ [x]) w = List.replicate ((w - d.length - 1) / 2) mark ++ d ++ [x] ++
      List.replicate ((w - d.length) / 2) mark := by
  rw [FramerProofs.centred_marker,
    show (w - d.length - 1) / 2 + (w - d.length - 1) % 2 = (w - d.length) / 2 by omega]

/-- An armored text is never too long for ERR_INFO. -/
theorem length_armorText_lt (r : Rom) {flat : List Word} (desc : List Word) {w : Nat} (hflat : flat.length < 2 ^ 20)
    (hw : w < 2 ^ 16) : (armorText r flat desc w).length < 2 ^ 32 := by
  have hwrap := length_wrapLines_le flat w
  rw [length_armorText]
  split <;> omega

/-- Settles O42: the rule returns the armored text, whose lines are the centred ones. -/
theorem armorCompletes : Obligations.ArmorCompletes := by
  intro s ie d header footer out hcaps hlen hdesc hd hheader hfooter hout
  have htake : d = s.selectDesc.take (descBound s.wrap.toNat) := by rw [descBound_eq, hd]; rfl
  have htext : armorText s.params.rom s.input s.selectDesc s.wrap.toNat = out := by
    rw [hout, hheader, hfooter, ← centred_margins, ← centred_margins, htake]
    rfl
  have hrule := armorRule_eq hlen hdesc
  rw [htext] at hrule
  refine exec_of_fitting (i := .armor ie) hrule hcaps ?_ (Nat.two_pow_pos 31) (Nat.two_pow_pos 5) (Nat.two_pow_pos 4)
  rw [← htext]
  have hin := s.inLen.isLt
  exact length_armorText_lt _ _ (by rw [State.length_input]; omega) s.wrap.isLt

/-! ## Trim and DEARMOR -/

/-- Settles O44: the three parts of the text are its leading characters of TRIM_SET, what is left, and the trailing
ones. -/
theorem trimLaws : Obligations.TrimLaws := by
  intro trim raw
  obtain ⟨-, htrimmed, hparts⟩ := trim_parts trim raw
  obtain ⟨hhead, hlast⟩ := trim_ends trim raw
  have hmem : ∀ l : List Word, ∀ c ∈ l.takeWhile trim.contains, c ∈ trim := fun l c hc => by
    simpa using List.mem_takeWhile_imp hc
  have hdrop : raw.drop (raw.takeWhile trim.contains).length = raw.dropWhile trim.contains := by
    have h := List.drop_left (l₁ := raw.takeWhile trim.contains) (l₂ := raw.dropWhile trim.contains)
    rwa [List.takeWhile_append_dropWhile] at h
  refine ⟨_, _, hparts, rfl, ?_, hmem raw, fun c hc => hmem _ c (List.mem_reverse.mp hc), hhead, hlast⟩
  rw [htrimmed, List.length_reverse, trimBounds, hdrop, Nat.add_sub_cancel_left]

theorem dearmorRule_eq {s : State} (hlen : s.inLen.toNat ≤ s.params.inCap) {t : List Word}
    (ht : t = trimmed s.params.trimSet s.input) :
    dearmorRule s =
      s.fitting { out := flatBody t (dearmor s.params.rom t), armorMatch := (dearmor s.params.rom t).matched } := by
  rw [dearmorRule, State.inLenRaise_none hlen, check_none, ht]

/-- A text of no envelope is its own body (R118). -/
theorem dearmor_of_no_envelope {r : Rom} {trim t : List Word} (hr : r.wellFormed trim = true)
    (h : ¬ ∃ body, IsEnvelope r t body) : dearmor r t = ⟨0, t.length, false⟩ :=
  dearmor_unmatched (Bool.eq_false_iff.mpr fun hm => h (dearmor_matched hr hm))

/-- Settles O45: an envelope is matched with its body, and any other text is its own body. -/
theorem dearmorCompletes : Obligations.DearmorCompletes := by
  intro s ie body seen hwf hlen hcase
  obtain ⟨hcaps, hrom⟩ := Bool.and_eq_true_iff.mp hwf
  obtain ⟨t, ht⟩ : ∃ t, t = trimmed s.params.trimSet s.input := ⟨_, rfl⟩
  rw [← ht] at hcase
  have hrule := dearmorRule_eq hlen ht
  obtain ⟨hflat, hmatched⟩ : flatBody t (dearmor s.params.rom t) = body.filter (· != lf) ∧
      (dearmor s.params.rom t).matched = seen := by
    unfold flatBody
    obtain ⟨rfl, henv⟩ | ⟨rfl, rfl, hno⟩ := hcase
    · obtain ⟨hmatched, hslice⟩ := dearmor_envelope hrom henv
      rw [hslice]
      exact ⟨rfl, hmatched⟩
    · rw [dearmor_of_no_envelope hrom hno, slice_all]
      exact ⟨rfl, rfl⟩
  have hbound : (flatBody t (dearmor s.params.rom t)).length ≤ s.input.length :=
    (length_flatBody t _).trans (ht ▸ length_trimmed s.params.trimSet s.input)
  have hin := s.inLen.isLt
  rw [hflat, State.length_input] at hbound
  rw [hflat, hmatched] at hrule
  exact exec_of_fitting (i := .dearmor ie) hrule hcaps (by dsimp only; omega) (Nat.two_pow_pos 31) (Nat.two_pow_pos 5)
    (Nat.two_pow_pos 4)

/-- Settles O46: an armored text is an envelope around its wrapped body, which without line breaks is the flat
string. -/
theorem dearmorInvertsArmor : Obligations.DearmorInvertsArmor := by
  intro r trim flat desc w hr hflat hdesc
  obtain ⟨hmatched, hslice⟩ := dearmor_envelope hr (armorText_envelope r (flat := flat) w hdesc)
  refine ⟨hmatched, ?_, trimmed_armorText hr flat desc w⟩
  rw [flatBody, hslice]
  exact filter_wrapLines w _ flat rfl hflat

/-! ## ENCODE -/

/-- Encode by cases on the input's being empty (R92 to R97). -/
theorem encodeBytes_eq (r : Rom) (bs : List Nat) (armor : Bool) (desc : List Word) (w : Nat) :
    encodeBytes r bs armor desc w =
      { out := if bs.length = 0 then []
          else if armor then armorText r (flatString r (transpose 8 10 bs)) desc w
          else wrapLines (flatString r (transpose 8 10 bs)) w
        trRem := (transpose 8 10 bs).remainder, trBits := (transpose 8 10 bs).bitsRemaining } := by
  cases bs with
  | nil => rfl
  | cons b bs => exact encodeBytes_out (List.cons_ne_nil b bs) armor desc w

/-- Settles O49: the rule returns the encoding, in the words of R94 to R97. -/
theorem encodeCompletes : Obligations.EncodeCompletes := by
  intro s ie flat out t8 hcaps hlen hdesc hbytes ht8 hflat hout
  have htrans : transpose 8 10 (s.input.map BitVec.toNat) = t8 :=
    (transpose_eq_bySlices 8 (by decide) _).trans ht8.symm
  have hflatString : flatString s.params.rom t8 = flat := (flatString_eq _ _).trans hflat.symm
  obtain ⟨-, hbits, -, hrem⟩ := transpose_bounds 8 (n := 10) (by decide) (s.input.map BitVec.toNat)
  have hflatLen := length_flatString s.params.rom (s.input.map BitVec.toNat)
  rw [htrans] at hbits hrem hflatLen
  rw [hflatString, List.length_map, State.length_input] at hflatLen
  have hin := s.inLen.isLt
  have hflatLt : flat.length < 2 ^ 20 := by rw [hflatLen]; split <;> omega
  have hrule : encodeRule s = s.fitting { out := out, trRem := t8.remainder, trBits := t8.bitsRemaining } := by
    rw [EncoderProofs.encodeRule_of_lengths hlen hdesc, (rangeRaise_none _ 0).mpr hbytes, check_none,
      encodeBytes_eq, htrans, hflatString, hout, List.length_map, State.length_input]
    cases s.config.armor <;> simp only [Bool.false_eq_true, if_true, if_false]
  have houtLt : out.length < 2 ^ 32 := by
    rw [hout]
    split
    · exact Nat.two_pow_pos 32
    · split
      · exact length_armorText_lt _ _ hflatLt s.wrap.isLt
      · have hwrap := length_wrapLines_le flat s.wrap.toNat
        omega
  exact exec_of_fitting (i := .encode ie) hrule hcaps houtLt (by dsimp only; omega) (by dsimp only; omega)
    (Nat.two_pow_pos 4)

/-! ## DECODE -/

/-- Settles O51: the positions of P are those of the region, and its characters the flat body's. -/
theorem flatSequenceIsPlaced : Obligations.FlatSequenceIsPlaced := by
  rintro p raw t g lo rfl rfl rfl
  have hpositions := flatPlaced_positions p raw
  refine ⟨hpositions, fun q hq => ?_, flatPlaced_pos p raw, flatPlaced_chars p raw, rfl, flatPlaced_rising p raw⟩
  have hpos : q.pos ∈ (flatPlaced p raw).1.map Placed.pos := List.mem_map_of_mem hq
  rw [hpositions] at hpos
  have hrange := List.mem_range'_1.mp (List.mem_of_mem_filter hpos)
  omega

/-- P is no longer than the input (R127). -/
theorem length_flatPlaced_le (p : Params) (raw : List Word) : (flatPlaced p raw).1.length ≤ raw.length := by
  have hchars := congrArg List.length (flatPlaced_chars p raw)
  rw [List.length_map] at hchars
  rw [hchars]
  exact (length_flatBody _ _).trans (length_trimmed _ _)

/-- The codes of a sequence: those of its characters that have one (R129, R130). -/
def codesOfPlaced (r : Rom) (ps : List Placed) : List Nat := ps.filterMap fun q => symIdx? r q.char

theorem codesOfPlaced_eq (r : Rom) (ps : List Placed) :
    codesOfPlaced r ps = (ps.map Placed.char).filterMap (symIdx? r) :=
  (List.filterMap_map (f := Placed.char) (g := symIdx? r)).symm

theorem length_codesOfPlaced_le (r : Rom) (ps : List Placed) : (codesOfPlaced r ps).length ≤ ps.length :=
  List.length_filterMap_le ..

/-- DECODE's rule once step 3 is known and step 5 raises nothing (R128 to R134). -/
theorem decodeRule_of_depad {s : State} (hlen : s.inLen.toNat ≤ s.params.inCap) (hfmt : s.config.fmt.toNat ≤ 1)
    {pad : Nat} {ps : List Placed} (hdepad : depad s.params.rom (flatPlaced s.params s.input).1 = (pad, ps))
    (hsym : s.config.ignoreGarbage = true ∨ ∀ q ∈ ps, q.char ∈ s.params.rom.sym.toList) {t : Transposed}
    (ht : t = transpose 10 8 (codesOfPlaced s.params.rom ps)) :
    decodeRule s = s.fitting
      { out := (dropArtifact pad t.groups).map (BitVec.ofNat 32), trRem := t.remainder, trBits := t.bitsRemaining,
        decPad := pad, armorMatch := (flatPlaced s.params s.input).2 } := by
  have hcodes := mapCodes_dropGarbage (hsym.imp_right fun h q hq => symIdx_isSome_iff.mpr (h q hq))
  have hrule := decodeRule_eq (codes := codesOfPlaced s.params.rom ps) hlen (by rw [hdepad]; exact hcodes)
  rw [hdepad, if_pos hfmt, ← ht] at hrule
  exact hrule

/-- Settles O52: step 3 is one of the two cases of R128, and the rule then returns the bytes of the codes. -/
theorem decodeCompletes : Obligations.DecodeCompletes := by
  rintro s ie ps pad codes bytes t10 hcaps hlen hfmt hstep3 hsym rfl ht10 rfl
  obtain ⟨hdepad, hps⟩ : depad s.params.rom (flatPlaced s.params s.input).1 = (pad, ps) ∧
      ps.length ≤ (flatPlaced s.params s.input).1.length := by
    obtain ⟨l, hps, hl⟩ | ⟨rfl, rfl, hlast⟩ := hstep3
    · rw [hps, depad_marker hl, List.length_append]
      exact ⟨rfl, Nat.le_add_right ..⟩
    · exact ⟨depad_plain hlast, Nat.le_refl _⟩
  have hpad : pad ∈ [0, 2, 4, 6, 8] := by
    have h := depad_idx s.params.rom (flatPlaced s.params s.input).1
    rwa [hdepad] at h
  have hpad8 : pad ≤ 8 := by simp at hpad; omega
  have hdrop : dropArtifact pad t10.groups = if pad = 8 then t10.groups.dropLast else t10.groups :=
    if_congr ⟨fun h => Nat.le_antisymm hpad8 h, fun h => Nat.le_of_eq h.symm⟩ rfl rfl
  have htrans : transpose 10 8 (codesOfPlaced s.params.rom ps) = t10 :=
    (transpose_eq_bySlices 10 (by decide) _).trans ht10.symm
  obtain ⟨hgroups, hbits, -, hrem⟩ := transpose_bounds 10 (n := 8) (by decide) (codesOfPlaced s.params.rom ps)
  rw [htrans] at hgroups hbits hrem
  have hcount := length_codesOfPlaced_le s.params.rom ps
  have hflat := length_flatPlaced_le s.params s.input
  rw [State.length_input] at hflat
  have hbytes := length_dropArtifact pad t10.groups
  rw [hdrop] at hbytes
  have hin := s.inLen.isLt
  have hrule := decodeRule_of_depad hlen hfmt hdepad hsym htrans.symm
  rw [hdrop] at hrule
  have h := exec_of_fitting (i := .decode ie) hrule hcaps (by dsimp only; rw [List.length_map]; omega)
    (by dsimp only; omega) (by dsimp only; omega) (by dsimp only; omega)
  dsimp only at h
  rwa [List.length_map] at h

/-! ## DECODE of an alphabet string -/

/-- A word outside SYM gives no code. -/
theorem filterMap_symIdx_nil {r : Rom} {cs : List Word} (h : ∀ c ∈ cs, c ∉ r.sym.toList) :
    cs.filterMap (symIdx? r) = [] :=
  List.filterMap_eq_nil_iff.mpr fun c hc => symIdx_none_iff.mpr (h c hc)

section
variable {r : Rom} {trim : List Word} (hr : r.wellFormed trim = true)
include hr

/-- The codes of a symbol text are its codes, with its marker or without (R39, R95). -/
theorem filterMap_symIdx_codeText {codes : List Nat} {k : Nat} (hcodes : ∀ c ∈ codes, c < 1024)
    (hk : k ∈ [0, 2, 4, 6, 8]) : (codeText r codes k).filterMap (symIdx? r) = codes := by
  obtain ⟨hnodup, -, hsym, -⟩ := Rom.sym_facts hr
  have hsyms : (codes.map (symAt r)).filterMap (symIdx? r) = codes := by
    have hinverse : ∀ c ∈ codes, (symIdx? r ∘ symAt r) c = some c := fun c hc => symIdx_symAt hnodup (hcodes c hc)
    rw [List.filterMap_map, List.filterMap_congr hinverse]
    exact List.filterMap_some
  rw [codeText, List.filterMap_append, hsyms]
  split
  · exact List.append_nil codes
  · next h0 =>
    have hpad : padAt r k ∈ r.padSet := padAt_mem r (by simp at hk ⊢; omega)
    rw [filterMap_symIdx_nil (List.forall_mem_singleton.mpr fun hm => (hsym _ hm).1 hpad), List.append_nil]

/-- Trimming takes no symbol away, since no symbol is in TRIM_SET (R40, R125). -/
theorem filterMap_symIdx_trimmed (raw : List Word) :
    (trimmed trim raw).filterMap (symIdx? r) = raw.filterMap (symIdx? r) := by
  obtain ⟨-, -, hsym, -⟩ := Rom.sym_facts hr
  obtain ⟨pre, post, hraw, -, -, hpre, hpost, -⟩ := trimLaws trim raw
  have houtside : ∀ l : List Word, (∀ c ∈ l, c ∈ trim) → l.filterMap (symIdx? r) = [] := fun l hl =>
    filterMap_symIdx_nil fun c hc hm => (hsym c hm).2.2.2.2.2 (hl c hc)
  conv_rhs => rw [hraw, List.filterMap_append, List.filterMap_append, houtside pre hpre, houtside post hpost]
  rw [List.nil_append, List.append_nil]

end

/-- A text that does not end in TRIM_SET keeps its last character (R125). -/
theorem getLast?_trimmed {trim raw : List Word} {x : Word} (hlast : raw.getLast? = some x) (hx : x ∉ trim) :
    (trimmed trim raw).getLast? = some x := by
  obtain ⟨pre, post, hraw, -, -, hpre, hpost, -⟩ := trimLaws trim raw
  have hnil : ∀ l m : List Word, (∀ c ∈ m, c ∈ trim) → (l ++ m).getLast? = some x → m = [] := by
    intro l m hm h
    by_contra hne
    rw [List.getLast?_append_of_ne_nil _ hne] at h
    exact hx (hm x (List.mem_of_getLast? h))
  rw [hraw] at hlast
  rw [hnil _ post hpost hlast, List.append_nil] at hlast
  by_cases htrimmed : trimmed trim raw = []
  · rw [htrimmed, List.append_nil] at hlast
    exact absurd (hpre x (List.mem_of_getLast? hlast)) hx
  · rwa [List.getLast?_append_of_ne_nil _ htrimmed] at hlast

/-- In a text without LF, P is the trimmed text, and there is no envelope (R116, R118, R127). -/
theorem flatPlaced_of_no_lf (p : Params) {raw : List Word} (h : lf ∉ raw) :
    (flatPlaced p raw).1.map Placed.char = trimmed p.trimSet raw ∧ (flatPlaced p raw).2 = false := by
  have hlf : lf ∉ trimmed p.trimSet raw := fun hm => h (List.mem_of_mem_take (List.mem_of_mem_drop hm))
  have hregion : dearmor p.rom (trimmed p.trimSet raw) = ⟨0, (trimmed p.trimSet raw).length, false⟩ :=
    dearmor_few (by rw [List.count_eq_zero_of_not_mem hlf]; decide) p.rom
  refine ⟨?_, congrArg Region.matched hregion⟩
  rw [flatPlaced_chars, hregion, flatBody, slice_all]
  exact List.filter_eq_self.mpr fun c hc => bne_iff_ne.mpr fun e => hlf (e ▸ hc)

/-- The bytes of the codes, and how many there are (R131, R132). -/
theorem transpose_codes (codes : List Nat) :
    transpose 10 8 codes = transposeBySlices 10 8 codes ∧
      (transposeBySlices 10 8 codes).groups.length = 5 * codes.length / 4 ∧
      (transposeBySlices 10 8 codes).bitsRemaining = 10 * codes.length % 8 ∧
      (transposeBySlices 10 8 codes).remainder < 2 ^ 8 := by
  have heq := transpose_eq_bySlices 10 (n := 8) (by decide) codes
  obtain ⟨hgroups, hbits, -, hrem⟩ := transpose_bounds 10 (n := 8) (by decide) codes
  rw [heq] at hgroups hbits hrem
  exact ⟨heq, by omega, hbits, hrem⟩

/-- DECODE of a plain symbol text (R128, R131 to R133, R174). -/
theorem decodeRule_plain {s : State} (hwf : s.params.wellFormed = true) (hlen : s.inLen.toNat ≤ s.params.inCap)
    (hfmt : s.config.fmt.toNat ≤ 1) {codes : List Nat} {k : Nat} (hcodes : ∀ c ∈ codes, c < 1024)
    (hk : k ∈ [0, 2, 4, 6, 8]) (hinput : s.input = codeText s.params.rom codes k) :
    decodeRule s = s.fitting
      { out := (dropArtifact k (transpose 10 8 codes).groups).map (BitVec.ofNat 32)
        trRem := (transpose 10 8 codes).remainder, trBits := (transpose 10 8 codes).bitsRemaining, decPad := k
        armorMatch := false } := by
  obtain ⟨-, hrom⟩ := Bool.and_eq_true_iff.mp hwf
  have h := flatBody_present hrom (codeText_mem hcodes hk) false (desc := []) nofun 0
  simp only [Bool.false_eq_true, if_false, wrapLines_zero] at h
  obtain ⟨htrim, hbody, hmatched⟩ := h
  rw [← hinput] at htrim hbody hmatched
  have hrule := decodeRule_codeText hwf hlen hfmt hcodes hk (by rw [htrim, hbody, hinput])
  rwa [htrim, hmatched] at hrule

/-- DECODE of a symbol text with garbage after it: the marker is no longer last, and goes with the garbage (R128,
R129, R170). -/
theorem decodeRule_garbage {s : State} (hwf : s.params.wellFormed = true) (hlen : s.inLen.toNat ≤ s.params.inCap)
    (hfmt : s.config.fmt.toNat ≤ 1) (hig : s.config.ignoreGarbage = true) {codes : List Nat} {k : Nat}
    (hcodes : ∀ c ∈ codes, c < 1024) (hk : k ∈ [0, 2, 4, 6, 8]) {junk : List Word} {x : Word}
    (hinput : s.input = codeText s.params.rom codes k ++ junk ++ [x])
    (hjunk : ∀ c ∈ junk ++ [x], c ≠ lf ∧ c ∉ s.params.rom.sym.toList) (hpad : x ∉ s.params.rom.padSet)
    (htrim : x ∉ s.params.trimSet) :
    decodeRule s = s.fitting
      { out := (transpose 10 8 codes).groups.map (BitVec.ofNat 32), trRem := (transpose 10 8 codes).remainder
        trBits := (transpose 10 8 codes).bitsRemaining, decPad := 0, armorMatch := false } := by
  obtain ⟨-, hrom⟩ := Bool.and_eq_true_iff.mp hwf
  obtain ⟨-, -, hsymLf, hpadLf⟩ := Rom.sym_facts hrom
  have hlf : lf ∉ s.input := by
    rw [hinput, List.append_assoc, List.mem_append]
    rintro (h | h)
    · obtain h | h := codeText_mem hcodes hk _ h
      · exact (hsymLf _ h).2.2.2.2.1 rfl
      · exact (hpadLf _ h).2.1 rfl
    · exact (hjunk _ h).1 rfl
  obtain ⟨hchars, hmatched⟩ := flatPlaced_of_no_lf s.params hlf
  have hlast : ((flatPlaced s.params s.input).1.map Placed.char).getLast? = some x := by
    rw [hchars]
    exact getLast?_trimmed (by rw [hinput, List.getLast?_concat]) htrim
  have hdepad : depad s.params.rom (flatPlaced s.params s.input).1 = (0, (flatPlaced s.params s.input).1) := by
    refine depad_plain fun l hl => ?_
    rw [List.getLast?_map, hl] at hlast
    rwa [Option.some.inj hlast]
  have hcodesOf : codesOfPlaced s.params.rom (flatPlaced s.params s.input).1 = codes := by
    rw [codesOfPlaced_eq, hchars, filterMap_symIdx_trimmed hrom, hinput, List.append_assoc, List.filterMap_append,
      filterMap_symIdx_codeText hrom hcodes hk, filterMap_symIdx_nil fun c hc => (hjunk c hc).2, List.append_nil]
  have hrule := decodeRule_of_depad hlen hfmt hdepad (.inl hig) rfl
  rwa [hcodesOf, hmatched] at hrule

/-- Settles O53: the plain text is decoded with its marker, and the one with garbage without. -/
theorem decodeOfAlphabetString : Obligations.DecodeOfAlphabetString := by
  rintro s ie codes k text hwf hlen hfmt hcodes hk rfl
  obtain ⟨hcaps, -⟩ := Bool.and_eq_true_iff.mp hwf
  obtain ⟨htrans, hgroups, hbits, hrem⟩ := transpose_codes codes
  have hk16 : k < 2 ^ 4 := by simp at hk; omega
  rw [← hbits]
  refine ⟨fun hinput hcap => ?_, fun junk x hig hinput hjunk hpad htrim hcap => ?_⟩
  · have hdrop : dropArtifact k (transposeBySlices 10 8 codes).groups =
        if k = 8 then (transposeBySlices 10 8 codes).groups.dropLast else (transposeBySlices 10 8 codes).groups :=
      if_congr (by simp at hk; omega) rfl rfl
    have hlength : (if k = 8 then (transposeBySlices 10 8 codes).groups.dropLast
        else (transposeBySlices 10 8 codes).groups).length ≤ s.params.outCap := by
      split
      · next h => rwa [if_pos h, ← hgroups, ← List.length_dropLast] at hcap
      · next h => rwa [if_neg h, ← hgroups] at hcap
    have hrule := decodeRule_plain hwf hlen hfmt hcodes hk hinput
    rw [htrans, hdrop, State.fitting_fits (by rwa [List.length_map])] at hrule
    exact exec_completesDone (i := .decode ie) hrule hcaps (by dsimp only; omega) (by dsimp only; omega) hk16
  · have hrule := decodeRule_garbage hwf hlen hfmt hig hcodes hk hinput hjunk hpad htrim
    rw [htrans, State.fitting_fits (by rwa [List.length_map, hgroups])] at hrule
    exact exec_completesDone (i := .decode ie) hrule hcaps (by dsimp only; omega) (by dsimp only; omega)
      (Nat.two_pow_pos 4)

end Sys2Proof.CommandProofs
end
